-- ==== Sys2Proof/Word.lean ====
section
/-! DEFINITION. The bit-vector types of the machine (spec/00_scope.md R7, R8, R10). -/

namespace Sys2Proof

/-- A 32-bit value: a register's content, an address, an instruction word (R7 `XLEN`, R10). -/
abbrev Word := BitVec 32

/-- The smallest addressable unit of memory (20_memory.md R71). -/
abbrev Byte := BitVec 8

/-- A register number: the 5-bit field that names one of `x0` to `x31` (10_state.md R20). -/
abbrev RegId := BitVec 5

end Sys2Proof
end

