-- ==== Sys2Proof/Machine/Flags.lean ====
section
/-! DEFINITION. The machine has no flag, condition code or predicate register (spec/10_state.md R37): a compare writes 0 or 1 to
a general register, and a branch compares two registers directly. These are the comparisons themselves. -/

namespace Sys2Proof.Machine

/-- `s(a) < s(b)` (00_scope.md R10). -/
def lessSigned (a b : Word) : Bool := decide (a.toInt < b.toInt)
/-- `u(a) < u(b)` (00_scope.md R10). -/
def lessUnsigned (a b : Word) : Bool := decide (a.toNat < b.toNat)

/-- The 0 or 1 a compare writes (40_register_alu.md R160, R161). -/
def compareResult (c : Bool) : Word := if c then 1 else 0

/-- Branch conditions (43_control_transfer.md R231 to R236, D17). -/
def condEq (a b : Word) : Bool := a == b
def condNe (a b : Word) : Bool := a != b
def condLt (a b : Word) : Bool := lessSigned a b
def condGe (a b : Word) : Bool := !lessSigned a b
def condLtu (a b : Word) : Bool := lessUnsigned a b
def condGeu (a b : Word) : Bool := !lessUnsigned a b

end Sys2Proof.Machine
end

