-- ==== Sys2Proof/Machine/Event.lean ====
section
/-! DEFINITION. The names the machine shares with its host: ports, console events, console input values, the causes of
termination and the run state (spec/20_memory.md R62, 44_ports_and_heap.md R260, 60_exceptions.md R301, 10_state.md R36). -/

namespace Sys2Proof.Machine

/-- The ports that intercept a qualifying store as a virtual routine (R65 case 1). -/
inductive StorePort where
  | writeChar
  | writeSint
  | writeUhex
  | halt
  | dumpPc
  | dumpRegs
  | dumpMem
deriving DecidableEq, Repr

/-- The ports that intercept a qualifying load as a virtual routine (R65 case 2). -/
inductive LoadPort where
  | readChar
  | readSint
deriving DecidableEq, Repr

/-- The eleven reserved addresses of R7, by name (R62, R64). -/
inductive Port where
  | store (p : StorePort)
  | load (p : LoadPort)
  | heapMalloc
  | heapFree
deriving DecidableEq, Repr

/-- One value the console host supplies, of the kind the read asks for (R260, R269, R270, R343): the 8-bit code of a
character, or a 32-bit two's-complement integer. -/
inductive InputValue where
  | char (c : Byte)
  | sint (i : Word)
deriving DecidableEq, Repr

/-- One event `HostOut(kind, value)` of the console output trace (R260, R262 to R264, R266 to R268). -/
inductive Event where
  | writeChar (v : Word)
  | writeSint (v : Word)
  | writeUhex (v : Word)
  | dumpPc (pc : Word)
  /-- the program counter and the thirty-two registers `x0` to `x31` in order -/
  | dumpRegs (pc : Word) (regs : List Word)
  | dumpMem (b : Byte)
deriving DecidableEq, Repr

/-- The five causes of termination, each with the information R301 records. -/
inductive Cause where
  | halt
  | pcExit
  | invalidInstruction (w : Word)
  | misalignedFetch (pc : Word)
  | addressFault (ea : Word)
deriving DecidableEq, Repr

/-- The control state machine's two states; HALTED holds its cause, and with it the exit status (R36, R301). -/
inductive RunState where
  | running
  | halted (c : Cause)
deriving DecidableEq, Repr

/-- The exit status of a cause (R301): 0 for `Halt` and `PcExit`, 1 for the three fatal conditions. -/
def Cause.exitStatus : Cause → Nat
  | .halt => 0
  | .pcExit => 0
  | .invalidInstruction _ => 1
  | .misalignedFetch _ => 1
  | .addressFault _ => 1

/-- The exit status HALTED holds; RUNNING has none (R36, R331). -/
def RunState.exitStatus : RunState → Option Nat
  | .running => none
  | .halted c => some c.exitStatus

end Sys2Proof.Machine
end

