-- ==== Sys2Proof/Config.lean ====
section
/-! DEFINITION. What one implementation fixes: the parameters of spec/00_scope.md R7, and the two OPEN texts of
spec/92_eei_decisions.md D24 and D25, which are free values. -/

namespace Sys2Proof

/-- The named parameters of R7 (00_scope.md). The port addresses and the bounds of the address map stand in
Machine/Router.lean. -/
def Config.xlen : Nat := 32
def Config.nreg : Nat := 32
def Config.ilen : Nat := 32
def Config.imemSize : Nat := 1024
def Config.dmemSize : Nat := 1024
def Config.heapBanks : Nat := 128
def Config.bankSize : Nat := 64
def Config.heapSize : Nat := 8192
/-- The image of a launch: instruction memory's bytes, then data memory's (70_reset_and_hazards.md R332). -/
def Config.imageSize : Nat := Config.imemSize + Config.dmemSize

/-- `MALLOC_RESULT_REG` (R7, R271, D26): the register a malloc leaves its pointer in. -/
def Config.mallocResultReg : RegId := 28

/-- `CONSOLE_FORMAT`'s open part (D24): the bytes the host prints after the k-th piece of an event's text.
FREE VALUE (log entry 6). -/
opaque Config.consoleSeparator : Machine.Event → Nat → List Byte

/-- `FATAL_DIAGNOSTIC` (D25): the bytes the host prints before and after the register dump of a status-1 termination.
FREE VALUE (log entry 7). -/
opaque Config.fatalDiagnostic : Machine.Cause → List Byte × List Byte

end Sys2Proof
end

