-- ==== Sys2Proof/Machine/Memory.lean ====
section
/-! DEFINITION. The storage of instruction memory, data memory and heap as one list of (address, byte) pairs in canonical form:
addresses strictly rising, no entry equal to what an unlisted address reads as. Addresses are those of the map of
spec/20_memory.md R62; which of them hold storage is the router's (Machine/Router.lean). -/

namespace Sys2Proof.Machine

/-- Listed bytes of storage by address. -/
abbrev Memory := List Host.Cell

/-- What an unlisted storage byte reads as: 0x00. It is R33's reset value for the heap (D15); for instruction and data memory
before an image is loaded it is a DESIGN CHOICE (log entry 2). -/
def Memory.unlisted : Byte := 0

/-- The byte at an address. -/
def Memory.read : Memory → Nat → Byte
  | [], _ => Memory.unlisted
  | (k, c) :: m, a => if a = k then c else Memory.read m a

/-- The memory without any entry for an address. -/
def Memory.clear : Memory → Nat → Memory
  | [], _ => []
  | (k, c) :: m, a => if a = k then Memory.clear m a else (k, c) :: Memory.clear m a

/-- Put an entry in its place by address. -/
def Memory.put : Memory → Nat → Byte → Memory
  | [], a, b => [(a, b)]
  | (k, c) :: m, a, b => if a < k then (a, b) :: (k, c) :: m else (k, c) :: Memory.put m a b

/-- Replace the byte at an address, keeping the canonical form. -/
def Memory.write (m : Memory) (a : Nat) (b : Byte) : Memory :=
  if b = Memory.unlisted then Memory.clear m a else Memory.put (Memory.clear m a) a b

/-- The bytes of a list laid out from an address on, in canonical form (a launch's image, R332). -/
def Memory.ofBytes : Nat → List Byte → Memory
  | _, [] => []
  | a, b :: bs => if b = Memory.unlisted then Memory.ofBytes (a + 1) bs else (a, b) :: Memory.ofBytes (a + 1) bs

/-- The canonical form. -/
abbrev Memory.wf (m : Memory) : Prop :=
  List.Pairwise (fun c d => c.1 < d.1) m ∧ ∀ c ∈ m, c.2 ≠ Memory.unlisted

end Sys2Proof.Machine
end

