-- ==== Sys2Proof/Machine/State.lean ====
section
/-! DEFINITION. The whole state of the machine as plain data (spec/10_state.md R20 to R41), its value at reset
(70_reset_and_hazards.md R331), and the reasons a step may have no successor. -/

namespace Sys2Proof.Machine

/-- Everything the spec gives the machine (R41), with the host's output trace and the console input still to be read. -/
structure State where
  /-- `x1` to `x31`, in order. `x0` is hard-wired to zero and has no storage (R20, R21). -/
  gpr : Vector Word 31
  /-- the program counter, held as 32 bits (R27, D8) -/
  pc : Word
  /-- instruction memory, data memory and heap, by the addresses of the map (R30, R32, R33, R62) -/
  mem : Memory
  /-- `bytes_allocated[0]` to `bytes_allocated[127]` (R35) -/
  bytesAllocated : List Nat
  /-- RUNNING, or HALTED with its cause and exit status (R36) -/
  runState : RunState
  /-- the pending-virtual-load flag of the current cycle (R34, D28) -/
  pendingVirtualLoad : Bool
  /-- the console output trace, oldest event first (R40, R260) -/
  output : List Event
  /-- the console input values not yet consumed, the next first: what is left of the run's input sequence (R40, R260) -/
  input : List InputValue
deriving DecidableEq, Repr

/-- Why the machine has no next state. Both are stops the spec describes. -/
inductive Fault where
  /-- Raised by a load from a read port when the host has supplied no value of the port's kind: the machine is RUNNING and
  blocked, and the cycle has no successor (R260, R309, D23). Safe: no state is invented, and the state in which the load
  blocks is the state the host's answer finds. -/
  | consoleInputBlocked (p : LoadPort)
  /-- Raised by `step` in HALTED: no transition leaves it and no later cycle runs (R36, R305). Safe. -/
  | halted
deriving DecidableEq, Repr

/-- Why an instruction has no meaning in the model. -/
inductive Refusal where
  /-- Raised by an arm of `exec` whose instruction has no meaning yet, with its mnemonic. Safe. No arm raises it. -/
  | notModelled (mnemonic : String)
deriving DecidableEq, Repr

/-- The machine right after reset (R331) with no program image and no console input supplied yet: both come from outside the
machine (`State.launch`, log entries 2 and 3). Registers: R26, D5; `pc`: R29; heap and counts: R33, R35, D15; run state: R36. -/
def State.reset : State :=
  { gpr := Vector.replicate 31 0
    pc := 0
    mem := []
    bytesAllocated := List.replicate 128 0
    runState := .running
    pendingVirtualLoad := false
    output := []
    input := [] }

end Sys2Proof.Machine
end

