-- ==== Sys2Proof/Machine/Router.lean ====
section
/-! DEFINITION. The memory address router's decisions on an address alone: the map of spec/20_memory.md R62, byte routing (R63),
port decode (R64) and the order of interception (R65). -/

namespace Sys2Proof.Machine

/-! ### The address map (R62, 90_conflicts.md C1) -/

def imemLast : Nat := 0x03FF
def dmemBase : Nat := 0x0400
def dmemLast : Nat := 0x07FF
def heapBase : Nat := 0xB700
def heapLast : Nat := 0xD6FF

/-- The class of one byte address (R63). -/
inductive Region where
  | imem (k : Nat)
  | dmem (k : Nat)
  | heap (bank offset : Nat)
  | unmapped
  | beyond
deriving DecidableEq, Repr

/-- Byte routing (R63). -/
def route (a : Word) : Region :=
  if a.toNat ≤ imemLast then .imem a.toNat
  else if a.toNat ≤ dmemLast then .dmem (a.toNat - dmemBase)
  else if heapBase ≤ a.toNat ∧ a.toNat ≤ heapLast then
    .heap ((a.toNat - heapBase) / Config.bankSize) ((a.toNat - heapBase) % Config.bankSize)
  else if a.toNat > heapLast then .beyond
  else .unmapped

/-- The storage address of a byte that stores reach: data memory and heap. Instruction memory is read path only and unmapped bytes
hold nothing (R66, R67). -/
def Region.storeCell : Region → Option Nat
  | .imem _ => none
  | .dmem k => some (dmemBase + k)
  | .heap b o => some (heapBase + Config.bankSize * b + o)
  | .unmapped => none
  | .beyond => none

/-- The eleven port addresses (R62). -/
def portAddress : Port → Word
  | .store .writeChar => 0x0800
  | .store .writeSint => 0x0804
  | .store .writeUhex => 0x0808
  | .store .halt => 0x080C
  | .load .readChar => 0x0812
  | .load .readSint => 0x0816
  | .store .dumpPc => 0x0820
  | .store .dumpRegs => 0x0824
  | .store .dumpMem => 0x0828
  | .heapMalloc => 0x0830
  | .heapFree => 0x0834

def allPorts : List Port :=
  [.store .writeChar, .store .writeSint, .store .writeUhex, .store .halt, .load .readChar, .load .readSint,
   .store .dumpPc, .store .dumpRegs, .store .dumpMem, .heapMalloc, .heapFree]

/-- Port decode: the whole effective address compared for equality (R64). -/
def portOf (ea : Word) : Option Port := allPorts.find? (fun p => portAddress p == ea)

/-- Whether the instruction of the cycle is a qualifying load or a qualifying store (00_scope.md R17). -/
inductive AccessClass where
  | load
  | store
deriving DecidableEq, Repr

/-- What an access is, after classification (R65, R82 `kind`). -/
inductive AccessKind where
  | plain
  | vrStore (p : StorePort)
  | vrLoad (p : LoadPort)
  | malloc
deriving DecidableEq, Repr

/-- The order of interception (R65): a store to a store port, a load from a read port, a store to the malloc port, and every
other access plain, the heap-free port and the crossed cases among them. -/
def accessKind (c : AccessClass) (ea : Word) : AccessKind :=
  match c, portOf ea with
  | .store, some (.store p) => .vrStore p
  | .load, some (.load p) => .vrLoad p
  | .store, some .heapMalloc => .malloc
  | _, _ => .plain

/-- Whether the access is a virtual-routine load: what sets the pending-virtual-load flag (10_state.md R34). -/
def AccessKind.isVirtualLoad : AccessKind → Bool
  | .vrLoad _ => true
  | .plain | .vrStore _ | .malloc => false

/-- Which read port a virtual-routine load reaches, by its address (R62). -/
def loadPortAt (ea : Word) : LoadPort := if ea = portAddress (.load .readChar) then .readChar else .readSint

/-- Whether any of the `n` byte addresses from `ea`, modulo 2^32, lies beyond the heap (R68). -/
def touchesBeyond (ea : Word) : Nat → Bool
  | 0 => false
  | n + 1 => route ea == .beyond || touchesBeyond (ea + 1) n

/-- The byte write strobes of a plain store of these bytes from `ea` on: the storage cells written, each with its byte; bytes
routed to instruction memory or to no memory are dropped (R66, R67, R70, R82). -/
def writeStrobes : Word → List Byte → List Host.Cell
  | _, [] => []
  | ea, b :: bs =>
    match (route ea).storeCell with
    | some a => (a, b) :: writeStrobes (ea + 1) bs
    | none => writeStrobes (ea + 1) bs

end Sys2Proof.Machine
end

