-- ==== Sys2Proof/Machine/Allocator.lean ====
section
/-! DEFINITION. The heap allocator: first fit over runs of free banks (spec/44_ports_and_heap.md R271 to R275). -/

namespace Sys2Proof.Machine

/-- The number of banks a request takes: `floor(n / 64) + 1`, also when `n` is a multiple of 64 (R272, 90_conflicts.md C3). -/
def banksNeeded (n : Nat) : Nat := n / Config.bankSize + 1

/-- Whether the `nb` banks from `start` on are all free (R272). -/
def runFree (counts : List Nat) (start : Nat) : Nat → Bool
  | 0 => true
  | nb + 1 => counts[start]? == some 0 && runFree counts (start + 1) nb

/-- The first viable start bank, scanning 0 to `128 - nb` upward; no start is scanned when `nb > 128` (R272). -/
def firstFit (counts : List Nat) (nb : Nat) : Option Nat :=
  (List.range (Config.heapBanks + 1 - nb)).find? (fun start => runFree counts start nb)

/-- The count a bank of the run is marked with: 64, but `n mod 64` in the run's last bank when that is not 0 (R272, C4). -/
def markedCount (n start bank : Nat) : Nat :=
  if bank + 1 = start + banksNeeded n ∧ n % Config.bankSize ≠ 0 then n % Config.bankSize else Config.bankSize

/-- Mark the run of a request of `n` bytes from `start`; `bank` is the number of the first count of the list (R272). -/
def markRun (n start : Nat) : Nat → List Nat → List Nat
  | _, [] => []
  | bank, c :: cs =>
    (if start ≤ bank ∧ bank < start + banksNeeded n then markedCount n start bank else c) :: markRun n start (bank + 1) cs

/-- `malloc(n)` on the counts: the start bank and the new counts, or no space (R272, D27). -/
def malloc (counts : List Nat) (n : Nat) : Option (Nat × List Nat) :=
  match firstFit counts (banksNeeded n) with
  | some start => some (start, markRun n start 0 counts)
  | none => none

/-- The pointer to a bank (R272). -/
def bankPointer (start : Nat) : Word := BitVec.ofNat 32 (heapBase + Config.bankSize * start)

/-! ### The interface (R274) -/

/-- The request lines the router raises: `size[31:0]` is present exactly while `req` is set (log entry 29). -/
structure AllocatorRequest where
  size : Option Word
deriving DecidableEq, Repr

/-- The line `req`. -/
def AllocatorRequest.req (r : AllocatorRequest) : Bool := r.size.isSome

/-- The allocator's response in the cycle of a request: `ok`, and `ptr` when it is set (R274). -/
structure AllocatorResponse where
  ok : Bool
  ptr : Word
deriving DecidableEq, Repr

/-- The allocator's answer to a request of `size` bytes (R272); 0 stands for no space. -/
def allocatorResponse (counts : List Nat) (size : Word) : AllocatorResponse :=
  match malloc counts size.toNat with
  | some (start, _) => ⟨true, bankPointer start⟩
  | none => ⟨false, 0⟩

/-- The counts after the cycle of a request (R272). -/
def allocatorNext (counts : List Nat) (size : Word) : List Nat :=
  match malloc counts size.toNat with
  | some (_, counts') => counts'
  | none => counts

/-- The response lines: a request is answered in its own cycle, and without one there is no response (R274, log entry 29). -/
def allocatorOutputs (counts : List Nat) (r : AllocatorRequest) : Option AllocatorResponse := r.size.map (allocatorResponse counts)

/-- The counts at the end of the cycle: only a request changes them (R274, 10_state.md R35). -/
def allocatorCounts (counts : List Nat) (r : AllocatorRequest) : List Nat :=
  match r.size with
  | some size => allocatorNext counts size
  | none => counts

/-- The value the register-file controller writes to `x[MALLOC_RESULT_REG]` on a response: `ptr`, or 0 when `ok` is clear (R274). -/
def AllocatorResponse.result (r : AllocatorResponse) : Word := if r.ok then r.ptr else 0

end Sys2Proof.Machine
end

