-- ==== Sys2Proof/Syntax.lean ====
section
/-! DEFINITION. The instruction set as syntax: one constructor of `Instr` per row of spec/opcode_table.json (spec/00_scope.md R3),
the format tags (30_encoding.md R103) and the mnemonics (R115, R117). -/

namespace Sys2Proof

/-- The decoder's nine format tags (R103). -/
inductive Format where
  | r
  | iArith
  | iLoad
  | iJump
  | s
  | sb
  | u
  | uj
  | invalid
deriving DecidableEq, Repr

/-- The closed enumeration of mnemonics (R3, R117); `INVALID` is the absence of one. -/
inductive Mnemonic where
  | add | sub | xor | or | and | sll | srl | sra | slt | sltu
  | addi | slti | sltiu | xori | ori | andi
  | lui
  | lb | lh | lw | lbu | lhu
  | sb | sh | sw
  | beq | bne | blt | bge | bltu | bgeu
  | jal | jalr
deriving DecidableEq, Repr

/-- An instruction with its operands. An immediate is the raw field of its format (`imm_raw`, 30_encoding.md R114): 12 bits
for I and S, 13 for SB, 21 for UJ, and for `lui` the 20 bits `w[31:12]` (R187). -/
inductive Instr where
  -- R format (40_register_alu.md)
  | add (rd rs1 rs2 : RegId)
  | sub (rd rs1 rs2 : RegId)
  | xor (rd rs1 rs2 : RegId)
  | or (rd rs1 rs2 : RegId)
  | and (rd rs1 rs2 : RegId)
  | sll (rd rs1 rs2 : RegId)
  | srl (rd rs1 rs2 : RegId)
  | sra (rd rs1 rs2 : RegId)
  | slt (rd rs1 rs2 : RegId)
  | sltu (rd rs1 rs2 : RegId)
  -- I_ARITH and U (41_immediate_alu.md)
  | addi (rd rs1 : RegId) (imm : BitVec 12)
  | slti (rd rs1 : RegId) (imm : BitVec 12)
  | sltiu (rd rs1 : RegId) (imm : BitVec 12)
  | xori (rd rs1 : RegId) (imm : BitVec 12)
  | ori (rd rs1 : RegId) (imm : BitVec 12)
  | andi (rd rs1 : RegId) (imm : BitVec 12)
  | lui (rd : RegId) (imm20 : BitVec 20)
  -- I_LOAD and S (42_load_store.md)
  | lb (rd rs1 : RegId) (imm : BitVec 12)
  | lh (rd rs1 : RegId) (imm : BitVec 12)
  | lw (rd rs1 : RegId) (imm : BitVec 12)
  | lbu (rd rs1 : RegId) (imm : BitVec 12)
  | lhu (rd rs1 : RegId) (imm : BitVec 12)
  | sb (rs1 rs2 : RegId) (imm : BitVec 12)
  | sh (rs1 rs2 : RegId) (imm : BitVec 12)
  | sw (rs1 rs2 : RegId) (imm : BitVec 12)
  -- SB, UJ and I_JUMP (43_control_transfer.md)
  | beq (rs1 rs2 : RegId) (imm : BitVec 13)
  | bne (rs1 rs2 : RegId) (imm : BitVec 13)
  | blt (rs1 rs2 : RegId) (imm : BitVec 13)
  | bge (rs1 rs2 : RegId) (imm : BitVec 13)
  | bltu (rs1 rs2 : RegId) (imm : BitVec 13)
  | bgeu (rs1 rs2 : RegId) (imm : BitVec 13)
  | jal (rd : RegId) (imm : BitVec 21)
  | jalr (rd rs1 : RegId) (imm : BitVec 12)
deriving DecidableEq, Repr

/-- The format each mnemonic belongs to (R103, R115). -/
def Mnemonic.format : Mnemonic → Format
  | .add | .sub | .xor | .or | .and | .sll | .srl | .sra | .slt | .sltu => .r
  | .addi | .slti | .sltiu | .xori | .ori | .andi => .iArith
  | .lui => .u
  | .lb | .lh | .lw | .lbu | .lhu => .iLoad
  | .sb | .sh | .sw => .s
  | .beq | .bne | .blt | .bge | .bltu | .bgeu => .sb
  | .jal => .uj
  | .jalr => .iJump

/-- The mnemonic of an instruction. -/
def Instr.mnemonic : Instr → Mnemonic
  | .add _ _ _ => .add
  | .sub _ _ _ => .sub
  | .xor _ _ _ => .xor
  | .or _ _ _ => .or
  | .and _ _ _ => .and
  | .sll _ _ _ => .sll
  | .srl _ _ _ => .srl
  | .sra _ _ _ => .sra
  | .slt _ _ _ => .slt
  | .sltu _ _ _ => .sltu
  | .addi _ _ _ => .addi
  | .slti _ _ _ => .slti
  | .sltiu _ _ _ => .sltiu
  | .xori _ _ _ => .xori
  | .ori _ _ _ => .ori
  | .andi _ _ _ => .andi
  | .lui _ _ => .lui
  | .lb _ _ _ => .lb
  | .lh _ _ _ => .lh
  | .lw _ _ _ => .lw
  | .lbu _ _ _ => .lbu
  | .lhu _ _ _ => .lhu
  | .sb _ _ _ => .sb
  | .sh _ _ _ => .sh
  | .sw _ _ _ => .sw
  | .beq _ _ _ => .beq
  | .bne _ _ _ => .bne
  | .blt _ _ _ => .blt
  | .bge _ _ _ => .bge
  | .bltu _ _ _ => .bltu
  | .bgeu _ _ _ => .bgeu
  | .jal _ _ => .jal
  | .jalr _ _ _ => .jalr

end Sys2Proof
end

