-- ==== Sys2Proof/WellFormed.lean ====
section
/-! DEFINITION. Which terms of `Instr` the encodings admit. Only the SB and UJ immediates are restricted: no instruction bit
maps to their bit 0, so it is 0 and the offset is even (spec/30_encoding.md R108, R110). -/

namespace Sys2Proof

/-- The check: every operand is a field of its format, and a branch or `jal` offset is even (R108, R110, R111). -/
def Instr.wellFormed : Instr → Bool
  | .add _ _ _ | .sub _ _ _ | .xor _ _ _ | .or _ _ _ | .and _ _ _ => true
  | .sll _ _ _ | .srl _ _ _ | .sra _ _ _ | .slt _ _ _ | .sltu _ _ _ => true
  | .addi _ _ _ | .slti _ _ _ | .sltiu _ _ _ | .xori _ _ _ | .ori _ _ _ | .andi _ _ _ => true
  | .lui _ _ => true
  | .lb _ _ _ | .lh _ _ _ | .lw _ _ _ | .lbu _ _ _ | .lhu _ _ _ => true
  | .sb _ _ _ | .sh _ _ _ | .sw _ _ _ => true
  | .beq _ _ imm | .bne _ _ imm | .blt _ _ imm | .bge _ _ imm | .bltu _ _ imm | .bgeu _ _ imm => !imm.getLsbD 0
  | .jal _ imm => !imm.getLsbD 0
  | .jalr _ _ _ => true

/-- `Instr.wellFormed` as a proposition. -/
abbrev Instr.WellFormed (i : Instr) : Prop := i.wellFormed = true

end Sys2Proof
end

