-- ==== Sys2Proof/Decode.lean ====
section
/-! DEFINITION. The bitfield extractor, the immediate codec, the instruction decoder and the encoder
(spec/30_encoding.md R100 to R124). The opcode and function codes are those of R103 and R115. -/

namespace Sys2Proof

/-! ### Bitfield extractor and byte order -/

/-- `extract_bits(w, hi, lo)`: the unsigned integer of bits `lo` to `hi`; arguments outside the contract
`0 ≤ lo ≤ hi ≤ 31` are refused (R8, R101, 93_implementation_defined.md item 1). -/
def extractBits (w : Word) (hi lo : Nat) : Option Nat :=
  if lo ≤ hi ∧ hi ≤ 31 then some (w.toNat / 2 ^ lo % 2 ^ (hi - lo + 1)) else none

/-- The word of four bytes, the first at the lowest address: little-endian (20_memory.md R80). -/
def wordOfBytes (b0 b1 b2 b3 : Byte) : Word := b3 ++ b2 ++ b1 ++ b0

/-- The four bytes of a word in memory order (20_memory.md R80). -/
def bytesOfWord (w : Word) : List Byte :=
  [w.extractLsb' 0 8, w.extractLsb' 8 8, w.extractLsb' 16 8, w.extractLsb' 24 8]

/-! ### Fields (R102, R105 to R110) -/

def opcodeField (w : Word) : BitVec 7 := w.extractLsb' 0 7
def rdField (w : Word) : RegId := w.extractLsb' 7 5
def funct3Field (w : Word) : BitVec 3 := w.extractLsb' 12 3
def rs1Field (w : Word) : RegId := w.extractLsb' 15 5
def rs2Field (w : Word) : RegId := w.extractLsb' 20 5
def funct7Field (w : Word) : BitVec 7 := w.extractLsb' 25 7

/-- I format: `w[31:20]` (R106). -/
def immRawI (w : Word) : BitVec 12 := w.extractLsb' 20 12

/-- S format: the fields w[31:25], w[11:7] (R107). -/
def immRawS (w : Word) : BitVec 12 := w.extractLsb' 25 7 ++ w.extractLsb' 7 5

/-- SB format: the fields w[31], w[7], w[30:25], w[11:8], 0 (R108). -/
def immRawSB (w : Word) : BitVec 13 :=
  w.extractLsb' 31 1 ++ w.extractLsb' 7 1 ++ w.extractLsb' 25 6 ++ w.extractLsb' 8 4 ++ 0#1

/-- U format: w[31:12] above twelve zeros (R109). -/
def immRawU (w : Word) : Word := w.extractLsb' 12 20 ++ 0#12

/-- UJ format: the fields w[31], w[19:12], w[20], w[30:21], 0 (R110). -/
def immRawUJ (w : Word) : BitVec 21 :=
  w.extractLsb' 31 1 ++ w.extractLsb' 12 8 ++ w.extractLsb' 20 1 ++ w.extractLsb' 21 10 ++ 0#1

/-! ### Immediate codec (R11, R111, R112) -/

/-- `sext_12`, of the I and S immediates. -/
def sext12 (v : BitVec 12) : Word := v.signExtend 32
/-- `sext_13`, of the SB immediate. -/
def sext13 (v : BitVec 13) : Word := v.signExtend 32
/-- `sext_21`, of the UJ immediate. -/
def sext21 (v : BitVec 21) : Word := v.signExtend 32
/-- The U immediate as a 32-bit value: the twenty bits above twelve zeros (R109). -/
def luiValue (imm20 : BitVec 20) : Word := imm20 ++ 0#12

/-! ### Format classification and mnemonic resolution -/

/-- The format tag, a function of the opcode alone (R103, R104). -/
def classify (opcode : BitVec 7) : Format :=
  if opcode = 0b0110011#7 then .r
  else if opcode = 0b0010011#7 then .iArith
  else if opcode = 0b0000011#7 then .iLoad
  else if opcode = 0b1100111#7 then .iJump
  else if opcode = 0b0100011#7 then .s
  else if opcode = 0b1100011#7 then .sb
  else if opcode = 0b0110111#7 then .u
  else if opcode = 0b1101111#7 then .uj
  else .invalid

/-- The table of R115: the mnemonic of a format and its function codes; `none` is R116's unresolved combination. `funct7`
takes part only for R format, and `funct3` not for U and UJ. -/
def resolve (f : Format) (funct3 : BitVec 3) (funct7 : BitVec 7) : Option Mnemonic :=
  match f with
  | .r =>
    if funct7 = 0b0000000#7 then
      if funct3 = 0b000#3 then some .add
      else if funct3 = 0b001#3 then some .sll
      else if funct3 = 0b010#3 then some .slt
      else if funct3 = 0b011#3 then some .sltu
      else if funct3 = 0b100#3 then some .xor
      else if funct3 = 0b101#3 then some .srl
      else if funct3 = 0b110#3 then some .or
      else some .and
    else if funct7 = 0b0100000#7 then
      if funct3 = 0b000#3 then some .sub
      else if funct3 = 0b101#3 then some .sra
      else none
    else none
  | .iArith =>
    if funct3 = 0b000#3 then some .addi
    else if funct3 = 0b010#3 then some .slti
    else if funct3 = 0b011#3 then some .sltiu
    else if funct3 = 0b100#3 then some .xori
    else if funct3 = 0b110#3 then some .ori
    else if funct3 = 0b111#3 then some .andi
    else none
  | .iLoad =>
    if funct3 = 0b000#3 then some .lb
    else if funct3 = 0b001#3 then some .lh
    else if funct3 = 0b010#3 then some .lw
    else if funct3 = 0b100#3 then some .lbu
    else if funct3 = 0b101#3 then some .lhu
    else none
  | .iJump => if funct3 = 0b000#3 then some .jalr else none
  | .s =>
    if funct3 = 0b000#3 then some .sb
    else if funct3 = 0b001#3 then some .sh
    else if funct3 = 0b010#3 then some .sw
    else none
  | .sb =>
    if funct3 = 0b000#3 then some .beq
    else if funct3 = 0b001#3 then some .bne
    else if funct3 = 0b100#3 then some .blt
    else if funct3 = 0b101#3 then some .bge
    else if funct3 = 0b110#3 then some .bltu
    else if funct3 = 0b111#3 then some .bgeu
    else none
  | .u => some .lui
  | .uj => some .jal
  | .invalid => none

/-! ### The decoded value -/

/-- The decoder's output: one case per format tag, each carrying only its own fields beside the raw word and its opcode
(R118, D2). -/
inductive Decoded where
  | r (word : Word) (opcode : BitVec 7) (mnem : Mnemonic) (rd rs1 rs2 : RegId) (funct3 : BitVec 3) (funct7 : BitVec 7)
  | iArith (word : Word) (opcode : BitVec 7) (mnem : Mnemonic) (rd rs1 : RegId) (funct3 : BitVec 3)
      (immRaw : BitVec 12) (imm : Word)
  | iLoad (word : Word) (opcode : BitVec 7) (mnem : Mnemonic) (rd rs1 : RegId) (funct3 : BitVec 3)
      (immRaw : BitVec 12) (imm : Word)
  | iJump (word : Word) (opcode : BitVec 7) (mnem : Mnemonic) (rd rs1 : RegId) (funct3 : BitVec 3)
      (immRaw : BitVec 12) (imm : Word)
  | s (word : Word) (opcode : BitVec 7) (mnem : Mnemonic) (rs1 rs2 : RegId) (funct3 : BitVec 3)
      (immRaw : BitVec 12) (imm : Word)
  | sb (word : Word) (opcode : BitVec 7) (mnem : Mnemonic) (rs1 rs2 : RegId) (funct3 : BitVec 3)
      (immRaw : BitVec 13) (imm : Word)
  | u (word : Word) (opcode : BitVec 7) (mnem : Mnemonic) (rd : RegId) (immRaw : Word) (imm : Word)
  | uj (word : Word) (opcode : BitVec 7) (mnem : Mnemonic) (rd : RegId) (immRaw : BitVec 21) (imm : Word)
  | invalid (word : Word) (opcode : BitVec 7)
deriving DecidableEq, Repr

/-- The fields of a format, taken from the word (R105 to R110, R114). -/
def fieldsOf (f : Format) (m : Mnemonic) (w : Word) : Decoded :=
  match f with
  | .r => .r w (opcodeField w) m (rdField w) (rs1Field w) (rs2Field w) (funct3Field w) (funct7Field w)
  | .iArith => .iArith w (opcodeField w) m (rdField w) (rs1Field w) (funct3Field w) (immRawI w) (sext12 (immRawI w))
  | .iLoad => .iLoad w (opcodeField w) m (rdField w) (rs1Field w) (funct3Field w) (immRawI w) (sext12 (immRawI w))
  | .iJump => .iJump w (opcodeField w) m (rdField w) (rs1Field w) (funct3Field w) (immRawI w) (sext12 (immRawI w))
  | .s => .s w (opcodeField w) m (rs1Field w) (rs2Field w) (funct3Field w) (immRawS w) (sext12 (immRawS w))
  | .sb => .sb w (opcodeField w) m (rs1Field w) (rs2Field w) (funct3Field w) (immRawSB w) (sext13 (immRawSB w))
  | .u => .u w (opcodeField w) m (rdField w) (immRawU w) (immRawU w)
  | .uj => .uj w (opcodeField w) m (rdField w) (immRawUJ w) (sext21 (immRawUJ w))
  | .invalid => .invalid w (opcodeField w)

/-- The decoder: a total, pure function of the word (R118, R120). An unknown opcode and an unresolved function code both give
`invalid` (R104, R116, D4). -/
def decodeFields (w : Word) : Decoded :=
  match resolve (classify (opcodeField w)) (funct3Field w) (funct7Field w) with
  | some m => fieldsOf (classify (opcodeField w)) m w
  | none => .invalid w (opcodeField w)

/-- The mnemonic a decoded value carries; `none` is `INVALID` (R117, R118). -/
def Decoded.mnemonic : Decoded → Option Mnemonic
  | .r _ _ m _ _ _ _ _ => some m
  | .iArith _ _ m _ _ _ _ _ => some m
  | .iLoad _ _ m _ _ _ _ _ => some m
  | .iJump _ _ m _ _ _ _ _ => some m
  | .s _ _ m _ _ _ _ _ => some m
  | .sb _ _ m _ _ _ _ _ => some m
  | .u _ _ m _ _ _ => some m
  | .uj _ _ m _ _ _ => some m
  | .invalid _ _ => none

/-- The case of a decoded value (R118). -/
def Decoded.format : Decoded → Format
  | .r _ _ _ _ _ _ _ _ => .r
  | .iArith _ _ _ _ _ _ _ _ => .iArith
  | .iLoad _ _ _ _ _ _ _ _ => .iLoad
  | .iJump _ _ _ _ _ _ _ _ => .iJump
  | .s _ _ _ _ _ _ _ _ => .s
  | .sb _ _ _ _ _ _ _ _ => .sb
  | .u _ _ _ _ _ _ => .u
  | .uj _ _ _ _ _ _ => .uj
  | .invalid _ _ => .invalid

/-- The instruction a decoded value stands for: its mnemonic applied to its operand fields. -/
def Decoded.instr (d : Decoded) : Option Instr :=
  match d with
  | .r _ _ m rd rs1 rs2 _ _ =>
    match m with
    | .add => some (.add rd rs1 rs2)
    | .sub => some (.sub rd rs1 rs2)
    | .xor => some (.xor rd rs1 rs2)
    | .or => some (.or rd rs1 rs2)
    | .and => some (.and rd rs1 rs2)
    | .sll => some (.sll rd rs1 rs2)
    | .srl => some (.srl rd rs1 rs2)
    | .sra => some (.sra rd rs1 rs2)
    | .slt => some (.slt rd rs1 rs2)
    | .sltu => some (.sltu rd rs1 rs2)
    | _ => none
  | .iArith _ _ m rd rs1 _ imm _ =>
    match m with
    | .addi => some (.addi rd rs1 imm)
    | .slti => some (.slti rd rs1 imm)
    | .sltiu => some (.sltiu rd rs1 imm)
    | .xori => some (.xori rd rs1 imm)
    | .ori => some (.ori rd rs1 imm)
    | .andi => some (.andi rd rs1 imm)
    | _ => none
  | .iLoad _ _ m rd rs1 _ imm _ =>
    match m with
    | .lb => some (.lb rd rs1 imm)
    | .lh => some (.lh rd rs1 imm)
    | .lw => some (.lw rd rs1 imm)
    | .lbu => some (.lbu rd rs1 imm)
    | .lhu => some (.lhu rd rs1 imm)
    | _ => none
  | .iJump _ _ m rd rs1 _ imm _ =>
    match m with
    | .jalr => some (.jalr rd rs1 imm)
    | _ => none
  | .s _ _ m rs1 rs2 _ imm _ =>
    match m with
    | .sb => some (.sb rs1 rs2 imm)
    | .sh => some (.sh rs1 rs2 imm)
    | .sw => some (.sw rs1 rs2 imm)
    | _ => none
  | .sb _ _ m rs1 rs2 _ imm _ =>
    match m with
    | .beq => some (.beq rs1 rs2 imm)
    | .bne => some (.bne rs1 rs2 imm)
    | .blt => some (.blt rs1 rs2 imm)
    | .bge => some (.bge rs1 rs2 imm)
    | .bltu => some (.bltu rs1 rs2 imm)
    | .bgeu => some (.bgeu rs1 rs2 imm)
    | _ => none
  | .u _ _ m rd imm _ =>
    match m with
    | .lui => some (.lui rd (imm.extractLsb' 12 20))
    | _ => none
  | .uj _ _ m rd imm _ =>
    match m with
    | .jal => some (.jal rd imm)
    | _ => none
  | .invalid _ _ => none

/-- Why bytes are no instruction, by name. -/
inductive Reject where
  /-- the opcode is outside the eight of R103 (R104) -/
  | unknownOpcode (opcode : BitVec 7)
  /-- a known opcode whose function codes no row of R115 lists (R116, D4) -/
  | unresolvedFunction (opcode : BitVec 7) (funct3 : BitVec 3) (funct7 : BitVec 7)
  /-- fewer than the four bytes of a word (R100) -/
  | truncated (available : Nat)
deriving DecidableEq, Repr

/-- The instruction of a word, or the reason why the word is `INVALID`. -/
def decodeWord (w : Word) : Except Reject Instr :=
  match (decodeFields w).instr with
  | some i => .ok i
  | none =>
    if classify (opcodeField w) = .invalid then .error (.unknownOpcode (opcodeField w))
    else .error (.unresolvedFunction (opcodeField w) (funct3Field w) (funct7Field w))

/-- The decoder over bytes in memory order: one instruction and the bytes after it. Every instruction is four bytes (R100). -/
def decodeBytes : List Byte → Except Reject (Instr × List Byte)
  | b0 :: b1 :: b2 :: b3 :: rest =>
    match decodeWord (wordOfBytes b0 b1 b2 b3) with
    | .ok i => .ok (i, rest)
    | .error r => .error r
  | bs => .error (.truncated bs.length)

/-- The decoder on a row of spec/opcode_table.json: the low `nbits` bits of `w` as the instruction's four bytes. No instruction
is longer than 32 bits (R100). -/
def decodeTableWord (nbits w : Nat) : Option Instr :=
  if nbits ≤ 32 then
    match decodeBytes (bytesOfWord (BitVec.ofNat 32 (w % 2 ^ nbits))) with
    | .ok (i, _) => some i
    | .error _ => none
  else none

/-! ### The decoder's flat interface (R119) -/

/-- The decoder's output signals. `rd`, `rs1`, `rs2`, `funct3`, `funct7` and the immediates are present exactly when the field
belongs to the decoded case (the strobes `uses_rd`, `uses_rs1` and `uses_rs2` are the presence of the first three): a signal
outside its case is unspecified, and is unavailable here rather than a number (R118, 93_implementation_defined.md item 2). -/
structure DecoderOutputs where
  fmt : Format
  mnem : Option Mnemonic
  opcode : BitVec 7
  rd : Option RegId
  rs1 : Option RegId
  rs2 : Option RegId
  funct3 : Option (BitVec 3)
  funct7 : Option (BitVec 7)
  /-- `imm_raw`, zero-extended to 32 bits (R119) -/
  immRaw : Option Word
  imm : Option Word
deriving DecidableEq, Repr

/-- The signals of a decoded value. `fmt` is R103's tag, a function of the opcode alone: for an unlisted function code (R116) it is the
opcode's tag, while the decoded value is the case `INVALID` (R118) and `mnem` is INVALID. -/
def Decoded.outputs : Decoded → DecoderOutputs
  | .r _ op m rd rs1 rs2 f3 f7 => ⟨.r, some m, op, some rd, some rs1, some rs2, some f3, some f7, none, none⟩
  | .iArith _ op m rd rs1 f3 raw imm =>
    ⟨.iArith, some m, op, some rd, some rs1, none, some f3, none, some (raw.setWidth 32), some imm⟩
  | .iLoad _ op m rd rs1 f3 raw imm =>
    ⟨.iLoad, some m, op, some rd, some rs1, none, some f3, none, some (raw.setWidth 32), some imm⟩
  | .iJump _ op m rd rs1 f3 raw imm =>
    ⟨.iJump, some m, op, some rd, some rs1, none, some f3, none, some (raw.setWidth 32), some imm⟩
  | .s _ op m rs1 rs2 f3 raw imm =>
    ⟨.s, some m, op, none, some rs1, some rs2, some f3, none, some (raw.setWidth 32), some imm⟩
  | .sb _ op m rs1 rs2 f3 raw imm =>
    ⟨.sb, some m, op, none, some rs1, some rs2, some f3, none, some (raw.setWidth 32), some imm⟩
  | .u _ op m rd raw imm => ⟨.u, some m, op, some rd, none, none, none, none, some raw, some imm⟩
  | .uj _ op m rd raw imm => ⟨.uj, some m, op, some rd, none, none, none, none, some (raw.setWidth 32), some imm⟩
  | .invalid _ op => ⟨classify op, none, op, none, none, none, none, none, none, none⟩

/-- The decoder as a combinational block: `instr[31:0]` to its output signals (R119). -/
def decoderOutputs (instr : Word) : DecoderOutputs := (decodeFields instr).outputs

/-- The output `invalid`, set when `fmt` is `INVALID` or R116 applies, that is, no mnemonic resolves (R119). -/
def DecoderOutputs.invalid (o : DecoderOutputs) : Bool := o.fmt == .invalid || o.mnem.isNone

/-! ### The encoder -/

def encodeR (funct7 : BitVec 7) (funct3 : BitVec 3) (rd rs1 rs2 : RegId) : Word :=
  funct7 ++ rs2 ++ rs1 ++ funct3 ++ rd ++ 0b0110011#7

/-- I layout (R106), for I_ARITH, I_LOAD and I_JUMP. -/
def encodeI (opcode : BitVec 7) (funct3 : BitVec 3) (rd rs1 : RegId) (imm : BitVec 12) : Word :=
  imm ++ rs1 ++ funct3 ++ rd ++ opcode

/-- S layout (R107). -/
def encodeS (funct3 : BitVec 3) (rs1 rs2 : RegId) (imm : BitVec 12) : Word :=
  imm.extractLsb' 5 7 ++ rs2 ++ rs1 ++ funct3 ++ imm.extractLsb' 0 5 ++ 0b0100011#7

/-- SB layout (R108). -/
def encodeSB (funct3 : BitVec 3) (rs1 rs2 : RegId) (imm : BitVec 13) : Word :=
  imm.extractLsb' 12 1 ++ imm.extractLsb' 5 6 ++ rs2 ++ rs1 ++ funct3 ++ imm.extractLsb' 1 4 ++ imm.extractLsb' 11 1
    ++ 0b1100011#7

/-- U layout (R109). -/
def encodeU (rd : RegId) (imm20 : BitVec 20) : Word := imm20 ++ rd ++ 0b0110111#7

/-- UJ layout (R110). -/
def encodeUJ (rd : RegId) (imm : BitVec 21) : Word :=
  imm.extractLsb' 20 1 ++ imm.extractLsb' 1 10 ++ imm.extractLsb' 11 1 ++ imm.extractLsb' 12 8 ++ rd ++ 0b1101111#7

/-- The word of an instruction, from the layouts of R105 to R110 and the codes of R115. -/
def encode : Instr → Word
  | .add rd rs1 rs2 => encodeR 0b0000000 0b000 rd rs1 rs2
  | .sub rd rs1 rs2 => encodeR 0b0100000 0b000 rd rs1 rs2
  | .xor rd rs1 rs2 => encodeR 0b0000000 0b100 rd rs1 rs2
  | .or rd rs1 rs2 => encodeR 0b0000000 0b110 rd rs1 rs2
  | .and rd rs1 rs2 => encodeR 0b0000000 0b111 rd rs1 rs2
  | .sll rd rs1 rs2 => encodeR 0b0000000 0b001 rd rs1 rs2
  | .srl rd rs1 rs2 => encodeR 0b0000000 0b101 rd rs1 rs2
  | .sra rd rs1 rs2 => encodeR 0b0100000 0b101 rd rs1 rs2
  | .slt rd rs1 rs2 => encodeR 0b0000000 0b010 rd rs1 rs2
  | .sltu rd rs1 rs2 => encodeR 0b0000000 0b011 rd rs1 rs2
  | .addi rd rs1 imm => encodeI 0b0010011 0b000 rd rs1 imm
  | .slti rd rs1 imm => encodeI 0b0010011 0b010 rd rs1 imm
  | .sltiu rd rs1 imm => encodeI 0b0010011 0b011 rd rs1 imm
  | .xori rd rs1 imm => encodeI 0b0010011 0b100 rd rs1 imm
  | .ori rd rs1 imm => encodeI 0b0010011 0b110 rd rs1 imm
  | .andi rd rs1 imm => encodeI 0b0010011 0b111 rd rs1 imm
  | .lui rd imm20 => encodeU rd imm20
  | .lb rd rs1 imm => encodeI 0b0000011 0b000 rd rs1 imm
  | .lh rd rs1 imm => encodeI 0b0000011 0b001 rd rs1 imm
  | .lw rd rs1 imm => encodeI 0b0000011 0b010 rd rs1 imm
  | .lbu rd rs1 imm => encodeI 0b0000011 0b100 rd rs1 imm
  | .lhu rd rs1 imm => encodeI 0b0000011 0b101 rd rs1 imm
  | .sb rs1 rs2 imm => encodeS 0b000 rs1 rs2 imm
  | .sh rs1 rs2 imm => encodeS 0b001 rs1 rs2 imm
  | .sw rs1 rs2 imm => encodeS 0b010 rs1 rs2 imm
  | .beq rs1 rs2 imm => encodeSB 0b000 rs1 rs2 imm
  | .bne rs1 rs2 imm => encodeSB 0b001 rs1 rs2 imm
  | .blt rs1 rs2 imm => encodeSB 0b100 rs1 rs2 imm
  | .bge rs1 rs2 imm => encodeSB 0b101 rs1 rs2 imm
  | .bltu rs1 rs2 imm => encodeSB 0b110 rs1 rs2 imm
  | .bgeu rs1 rs2 imm => encodeSB 0b111 rs1 rs2 imm
  | .jal rd imm => encodeUJ rd imm
  | .jalr rd rs1 imm => encodeI 0b1100111 0b000 rd rs1 imm

/-- The bytes of an instruction in memory order. -/
def encodeBytes (i : Instr) : List Byte := bytesOfWord (encode i)

/-! ### The opcode table (R117, spec/opcode_table.json) -/

/-- A row's `mask`: the bits the row fixes. -/
def Mnemonic.mask (m : Mnemonic) : Word :=
  match m.format with
  | .r => 0xFE00707F
  | .iArith | .iLoad | .iJump | .s | .sb => 0x0000707F
  | .u | .uj => 0x0000007F
  | .invalid => 0

/-- A row's `match`: what the fixed bits hold. -/
def Mnemonic.pattern : Mnemonic → Word
  | .add => 0x00000033
  | .sub => 0x40000033
  | .xor => 0x00004033
  | .or => 0x00006033
  | .and => 0x00007033
  | .sll => 0x00001033
  | .srl => 0x00005033
  | .sra => 0x40005033
  | .slt => 0x00002033
  | .sltu => 0x00003033
  | .addi => 0x00000013
  | .slti => 0x00002013
  | .sltiu => 0x00003013
  | .xori => 0x00004013
  | .ori => 0x00006013
  | .andi => 0x00007013
  | .lui => 0x00000037
  | .lb => 0x00000003
  | .lh => 0x00001003
  | .lw => 0x00002003
  | .lbu => 0x00004003
  | .lhu => 0x00005003
  | .sb => 0x00000023
  | .sh => 0x00001023
  | .sw => 0x00002023
  | .beq => 0x00000063
  | .bne => 0x00001063
  | .blt => 0x00004063
  | .bge => 0x00005063
  | .bltu => 0x00006063
  | .bgeu => 0x00007063
  | .jal => 0x0000006F
  | .jalr => 0x00000067

/-- The word matches the row (R117). -/
def Mnemonic.matchesWord (m : Mnemonic) (w : Word) : Bool := (w &&& m.mask) == m.pattern

end Sys2Proof
end

