-- ==== Sys2Proof/Machine/Operands.lean ====
section
/-! DEFINITION. Operand forms: access widths, extension of loaded values, the value a store port receives and the shift amount.
The immediates' forms stand in Decode.lean (`sext12`, `sext13`, `sext21`, `luiValue`), since the decoded value carries them. -/

namespace Sys2Proof.Machine

/-- Access widths (20_memory.md R73). -/
inductive Width where
  | byte
  | half
  | word
deriving DecidableEq, Repr

/-- The width in bytes (R73). -/
def Width.bytes : Width → Nat
  | .byte => 1
  | .half => 2
  | .word => 4

/-- `sext_8` of the low byte (00_scope.md R11, 42_load_store.md R200). -/
def sext8 (v : Word) : Word := (v.setWidth 8).signExtend 32
/-- `sext_16` of the low half. -/
def sext16 (v : Word) : Word := (v.setWidth 16).signExtend 32
/-- `zext_8` of the low byte. -/
def zext8 (v : Word) : Word := (v.setWidth 8).setWidth 32
/-- `zext_16` of the low half. -/
def zext16 (v : Word) : Word := (v.setWidth 16).setWidth 32

/-- `zext_{8n}(x[rs2][8n-1:0])`: what a store of a width hands to a port (R201, R261, D19). -/
def maskToWidth (w : Width) (v : Word) : Word :=
  match w with
  | .byte => zext8 v
  | .half => zext16 v
  | .word => v

/-- `x[rs2][4:0]`, the shift amount (40_register_alu.md R156, D16). -/
def shiftAmount (v : Word) : Nat := v.toNat % 32

/-- The word of bytes in memory order: byte `i` contributes bits `8i` to `8i+7` (20_memory.md R69, R72). -/
def littleEndian : List Byte → Word
  | [] => 0
  | b :: bs => b.setWidth 32 ||| (littleEndian bs <<< 8)

/-- The low `n` bytes of a word, least significant first (20_memory.md R70). -/
def lowBytes (v : Word) : Nat → List Byte
  | 0 => []
  | n + 1 => v.setWidth 8 :: lowBytes (v >>> 8) n

end Sys2Proof.Machine
end

