-- ==== Sys2Proof/Machine/Ops.lean ====
section
/-! DEFINITION. The named operations over the state: registers, program counter, memory, console, termination, fetch and launch.
Every meaning is written over these. -/

namespace Sys2Proof.Machine

/-! ### Updates of one field -/

def State.setPc (s : State) (t : Word) : State := { s with pc := t }
def State.setMem (s : State) (m : Memory) : State := { s with mem := m }
def State.setBytesAllocated (s : State) (cs : List Nat) : State := { s with bytesAllocated := cs }
def State.setRunState (s : State) (r : RunState) : State := { s with runState := r }
def State.setPending (s : State) (p : Bool) : State := { s with pendingVirtualLoad := p }
def State.setInput (s : State) (i : List InputValue) : State := { s with input := i }

/-- The default next program counter, `pc + 4` modulo 2^32 (10_state.md R28). -/
def State.advancePc (s : State) : State := s.setPc (s.pc + 4)

/-! ### The register file (10_state.md R20 to R25) -/

/-- `x[r]`: register 0 reads 0 always (R21). -/
def State.x (s : State) (r : RegId) : Word :=
  if h : r.toNat = 0 then 0 else s.gpr[r.toNat - 1]

/-- `x[r] <- v`: a write to register 0 has no effect (R22, D6). -/
def State.writeReg (s : State) (r : RegId) (v : Word) : State :=
  if h : r.toNat = 0 then s else { s with gpr := s.gpr.set (r.toNat - 1) v }

/-- The dump read port: `x[0]` to `x[31]` (R25). -/
def State.dump (s : State) : List Word := (List.range 32).map (fun k => s.x (BitVec.ofNat 5 k))

/-! ### Memory (20_memory.md R63 to R71) -/

/-- Instruction memory's byte view (R30). -/
def State.imem (s : State) (k : Nat) : Byte := Memory.read s.mem k
/-- Data memory (R32). -/
def State.dmem (s : State) (k : Nat) : Byte := Memory.read s.mem (dmemBase + k)
/-- The heap: byte `o` of bank `b` is at address `0xB700 + 64*b + o` (R33). -/
def State.heap (s : State) (b o : Nat) : Byte := Memory.read s.mem (heapBase + Config.bankSize * b + o)

/-- The byte a plain access reads at an address; an unmapped byte reads 0x00, and beyond the heap there is none
(R63, R66, R68, R69). -/
def State.byteAt (s : State) (a : Word) : Option Byte :=
  match route a with
  | .imem k => some (s.imem k)
  | .dmem k => some (s.dmem k)
  | .heap b o => some (s.heap b o)
  | .unmapped => some 0x00
  | .beyond => none

/-- The `n` bytes at consecutive addresses from `a`, modulo 2^32, each routed on its own (R69, D12). -/
def State.readBytes (s : State) (a : Word) : Nat → Option (List Byte)
  | 0 => some []
  | n + 1 =>
    match s.byteAt a, s.readBytes (a + 1) n with
    | some b, some bs => some (b :: bs)
    | _, _ => none

/-- `MemRead(ea, n)`; `none` is `AddressFault(ea)` (R69). -/
def State.memRead (s : State) (ea : Word) (n : Nat) : Option Word := (s.readBytes ea n).map littleEndian

/-- Drive the byte write strobes into data memory and heap (R82). -/
def Memory.writeAll : Memory → List Host.Cell → Memory
  | m, [] => m
  | m, (a, b) :: cs => Memory.writeAll (Memory.write m a b) cs

/-- `MemWrite(ea, n, v)`; `none` is `AddressFault(ea)`, checked on all bytes before any is written (R68, R70). -/
def State.memWrite (s : State) (ea : Word) (n : Nat) (v : Word) : Option State :=
  if touchesBeyond ea n then none else some (s.setMem (Memory.writeAll s.mem (writeStrobes ea (lowBytes v n))))

/-- The effective address `x[rs1] + imm`, modulo 2^32 (R61, D11). -/
def State.effectiveAddress (s : State) (rs1 : RegId) (imm : BitVec 12) : Word := s.x rs1 + sext12 imm

/-! ### The console (44_ports_and_heap.md R260) -/

/-- `HostOut`: append one event to the output trace. -/
def State.emit (s : State) (e : Event) : State := { s with output := s.output ++ [e] }

/-- `HostIn`: the raw value of the next input, when it is of the port's kind, and the state without it. `none` is the wait
(R260, R269, R270, R343; log entry 3). -/
def State.hostIn (s : State) (p : LoadPort) : Option (Word × State) :=
  match p, s.input with
  | .readChar, .char c :: rest => some (c.setWidth 32, s.setInput rest)
  | .readSint, .sint i :: rest => some (i, s.setInput rest)
  | _, _ => none

/-- The host supplies one more value (R260, R343). -/
def State.supply (s : State) (v : InputValue) : State := s.setInput (s.input ++ [v])

/-! ### Termination

The machine has no trap: no vector, no saved pc, no handler, and so no return from one (60_exceptions.md R300). Its exceptional
conditions end the run. -/

/-- `raise <Cause>(info)`: a status-1 cause emits the register dump; the control state machine enters HALTED with the cause;
everything else, `pc` included, stays (R14, R301, R303, R304, R305). -/
def State.raise (s : State) (c : Cause) : State :=
  if c.exitStatus = 1 then (s.emit (.dumpRegs s.pc s.dump)).setRunState (.halted c) else s.setRunState (.halted c)

/-! ### The allocator port (R271) -/

/-- `x[MALLOC_RESULT_REG] <- malloc(u(v))`. -/
def State.mallocRequest (s : State) (v : Word) : State :=
  (s.setBytesAllocated (allocatorNext s.bytesAllocated v)).writeReg Config.mallocResultReg
    (allocatorResponse s.bytesAllocated v).ptr

/-! ### The cycle (70_reset_and_hazards.md R334 to R336) -/

/-- The start of a cycle: the pending-virtual-load flag is clear (10_state.md R34, D28); `x0` is 0 by construction. -/
def State.beginCycle (s : State) : State := s.setPending false

/-- The word view of instruction memory (R30, R80, D10). -/
def State.iword (s : State) (k : Nat) : Word :=
  wordOfBytes (s.imem (4 * k)) (s.imem (4 * k + 1)) (s.imem (4 * k + 2)) (s.imem (4 * k + 3))

/-- The fetch check, in R302's order (R336, D9, D29). -/
def State.fetchCheck (s : State) : Option Cause :=
  if s.pc.toNat > imemLast then some .pcExit
  else if s.pc.toNat % 4 ≠ 0 then some (.misalignedFetch s.pc)
  else none

/-- The word fetched at a valid `pc` (R80). -/
def State.fetchWord (s : State) : Word := s.iword (s.pc.toNat / 4)

/-- Fetch check, fetch and decode: the instruction to execute, or the cause that ends the run (R335). -/
def State.fetchInstr (s : State) : Except Cause Instr :=
  match s.fetchCheck with
  | some c => .error c
  | none =>
    match decodeWord s.fetchWord with
    | .ok i => .ok i
    | .error _ => .error (.invalidInstruction s.fetchWord)

/-! ### Launch (R330 to R333) -/

/-- The state a run starts from: reset, with the image's 2048 bytes in instruction and data memory and the run's input sequence.
Any other length is refused: no launch (R331, R332, 93_implementation_defined.md item 18). -/
def State.launch (image : List Byte) (input : List InputValue) : Option State :=
  if image.length = Config.imageSize then some ((State.reset.setMem (Memory.ofBytes 0 image)).setInput input) else none

/-- The loader's view of instruction memory: put a word's bytes at an address (R80). No instruction does this (R79). -/
def State.placeWord (s : State) (a : Nat) (w : Word) : State :=
  s.setMem (Memory.writeAll s.mem
    [(a, w.extractLsb' 0 8), (a + 1, w.extractLsb' 8 8), (a + 2, w.extractLsb' 16 8), (a + 3, w.extractLsb' 24 8)])

/-- The state made ready to fetch: RUNNING, and `pc` at the reset vector where its own value is no valid one. -/
def State.readyToFetch (s : State) : State :=
  (if s.fetchCheck = none then s else s.setPc 0).setRunState .running

end Sys2Proof.Machine
end

