-- ==== Sys2Proof/Machine/ControlTransfer.lean ====
section
/-! DEFINITION. Branches and jumps (spec/43_control_transfer.md). No target is checked here: the next fetch does that (R239). -/

namespace Sys2Proof.Machine

/-- The common behaviour of branches (R230): a byte offset from the branch itself, or `pc + 4`. -/
def branchOp (cond : Word → Word → Bool) (rs1 rs2 : RegId) (imm : BitVec 13) (s : State) :
    Host.Outcome State Fault Refusal :=
  .next (if cond (s.x rs1) (s.x rs2) then s.setPc (s.pc + sext13 imm) else s.advancePc)

/-- R231 -/
def execBeq (rs1 rs2 : RegId) (imm : BitVec 13) (s : State) : Host.Outcome State Fault Refusal :=
  branchOp condEq rs1 rs2 imm s
/-- R232 -/
def execBne (rs1 rs2 : RegId) (imm : BitVec 13) (s : State) : Host.Outcome State Fault Refusal :=
  branchOp condNe rs1 rs2 imm s
/-- R233 -/
def execBlt (rs1 rs2 : RegId) (imm : BitVec 13) (s : State) : Host.Outcome State Fault Refusal :=
  branchOp condLt rs1 rs2 imm s
/-- R234 -/
def execBge (rs1 rs2 : RegId) (imm : BitVec 13) (s : State) : Host.Outcome State Fault Refusal :=
  branchOp condGe rs1 rs2 imm s
/-- R235 -/
def execBltu (rs1 rs2 : RegId) (imm : BitVec 13) (s : State) : Host.Outcome State Fault Refusal :=
  branchOp condLtu rs1 rs2 imm s
/-- R236 -/
def execBgeu (rs1 rs2 : RegId) (imm : BitVec 13) (s : State) : Host.Outcome State Fault Refusal :=
  branchOp condGeu rs1 rs2 imm s

/-- Link and jump: the target is computed before the link is written (10_state.md R24, D7). -/
def jumpOp (rd : RegId) (target : Word) (s : State) : Host.Outcome State Fault Refusal :=
  .next ((s.writeReg rd (s.pc + 4)).setPc target)

/-- R237 -/
def execJal (rd : RegId) (imm : BitVec 21) (s : State) : Host.Outcome State Fault Refusal :=
  jumpOp rd (s.pc + sext21 imm) s
/-- R238: the target is base plus immediate (90_conflicts.md C8), and its bit 0 is not cleared (D18). -/
def execJalr (rd rs1 : RegId) (imm : BitVec 12) (s : State) : Host.Outcome State Fault Refusal :=
  jumpOp rd (s.x rs1 + sext12 imm) s

end Sys2Proof.Machine
end

