-- ==== Sys2Proof/Machine/ImmediateAlu.lean ====
section
/-! DEFINITION. The I_ARITH instructions and `lui` (spec/41_immediate_alu.md). -/

namespace Sys2Proof.Machine

/-- The common behaviour (R180): the operand is the sign-extended immediate, for the logical and unsigned forms as well. -/
def immediateOp (f : Word → Word → Word) (rd rs1 : RegId) (imm : BitVec 12) (s : State) :
    Host.Outcome State Fault Refusal :=
  .next ((s.writeReg rd (f (s.x rs1) (sext12 imm))).advancePc)

/-- R181 -/
def execAddi (rd rs1 : RegId) (imm : BitVec 12) (s : State) : Host.Outcome State Fault Refusal :=
  immediateOp (fun a b => a + b) rd rs1 imm s
/-- R182 -/
def execSlti (rd rs1 : RegId) (imm : BitVec 12) (s : State) : Host.Outcome State Fault Refusal :=
  immediateOp (fun a b => compareResult (lessSigned a b)) rd rs1 imm s
/-- R183: sign-extended first, then compared as unsigned. -/
def execSltiu (rd rs1 : RegId) (imm : BitVec 12) (s : State) : Host.Outcome State Fault Refusal :=
  immediateOp (fun a b => compareResult (lessUnsigned a b)) rd rs1 imm s
/-- R184 -/
def execXori (rd rs1 : RegId) (imm : BitVec 12) (s : State) : Host.Outcome State Fault Refusal :=
  immediateOp (fun a b => a ^^^ b) rd rs1 imm s
/-- R185 -/
def execOri (rd rs1 : RegId) (imm : BitVec 12) (s : State) : Host.Outcome State Fault Refusal :=
  immediateOp (fun a b => a ||| b) rd rs1 imm s
/-- R186 -/
def execAndi (rd rs1 : RegId) (imm : BitVec 12) (s : State) : Host.Outcome State Fault Refusal :=
  immediateOp (fun a b => a &&& b) rd rs1 imm s
/-- R187: the immediate's twenty bits above twelve zeros; no register is read. -/
def execLui (rd : RegId) (imm20 : BitVec 20) (s : State) : Host.Outcome State Fault Refusal :=
  .next ((s.writeReg rd (luiValue imm20)).advancePc)

end Sys2Proof.Machine
end

