-- ==== Sys2Proof/Machine/LoadStore.lean ====
section
/-! DEFINITION. Loads and stores (spec/42_load_store.md) with the virtual-routine ports and the malloc port they reach
(44_ports_and_heap.md). -/

namespace Sys2Proof.Machine

/-- The console read behind a read port, or blocked (R200, R269, R270, R309). The pending flag is consumed in the cycle (R34). -/
def consoleLoad (p : LoadPort) (ext : Word → Word) (rd : RegId) (s : State) : Host.Outcome State Fault Refusal :=
  match s.hostIn p with
  | some (raw, s') => .next (((s'.setPending false).writeReg rd (ext raw)).advancePc)
  | none => .fault (.consoleInputBlocked p)

/-- The plain load (R200); a byte beyond the heap ends the run (R68). -/
def plainLoad (ea : Word) (w : Width) (ext : Word → Word) (rd : RegId) (s : State) : Host.Outcome State Fault Refusal :=
  match s.memRead ea w.bytes with
  | some v => .next ((s.writeReg rd (ext v)).advancePc)
  | none => .next (s.raise (.addressFault ea))

/-- The common behaviour of loads (R200). Classification marks the pending virtual load (20_memory.md R65 case 2, 10_state.md R34);
the load's own handling then takes its value from the console when the flag is set, and else from memory. -/
def loadOp (w : Width) (ext : Word → Word) (rd rs1 : RegId) (imm : BitVec 12) (s : State) :
    Host.Outcome State Fault Refusal :=
  let ea := s.effectiveAddress rs1 imm
  let s' := s.setPending (accessKind .load ea).isVirtualLoad
  if s'.pendingVirtualLoad then consoleLoad (loadPortAt ea) ext rd s' else plainLoad ea w ext rd s'

/-- R202 -/
def execLb (rd rs1 : RegId) (imm : BitVec 12) (s : State) : Host.Outcome State Fault Refusal :=
  loadOp .byte sext8 rd rs1 imm s
/-- R203 -/
def execLh (rd rs1 : RegId) (imm : BitVec 12) (s : State) : Host.Outcome State Fault Refusal :=
  loadOp .half sext16 rd rs1 imm s
/-- R204 -/
def execLw (rd rs1 : RegId) (imm : BitVec 12) (s : State) : Host.Outcome State Fault Refusal :=
  loadOp .word id rd rs1 imm s
/-- R205 -/
def execLbu (rd rs1 : RegId) (imm : BitVec 12) (s : State) : Host.Outcome State Fault Refusal :=
  loadOp .byte zext8 rd rs1 imm s
/-- R206 -/
def execLhu (rd rs1 : RegId) (imm : BitVec 12) (s : State) : Host.Outcome State Fault Refusal :=
  loadOp .half zext16 rd rs1 imm s

/-- The effect of a store port with the masked value `v` (R201, R262 to R268). The halt port does not advance `pc`; the
dump-memory port reads the byte at address `v`. -/
def storePortEffect (p : StorePort) (v : Word) (s : State) : State :=
  match p with
  | .writeChar => (s.emit (.writeChar v)).advancePc
  | .writeSint => (s.emit (.writeSint v)).advancePc
  | .writeUhex => (s.emit (.writeUhex v)).advancePc
  | .halt => s.raise .halt
  | .dumpPc => (s.emit (.dumpPc s.pc)).advancePc
  | .dumpRegs => (s.emit (.dumpRegs s.pc s.dump)).advancePc
  | .dumpMem =>
    match s.byteAt v with
    | some b => (s.emit (.dumpMem b)).advancePc
    | none => s.raise (.addressFault v)

/-- The plain store (R201); a byte beyond the heap ends the run and nothing is written (R68, R70). -/
def plainStore (ea : Word) (w : Width) (v : Word) (s : State) : State :=
  match s.memWrite ea w.bytes v with
  | some s' => s'.advancePc
  | none => s.raise (.addressFault ea)

/-- The common behaviour of stores (R201). -/
def storeOp (w : Width) (rs1 rs2 : RegId) (imm : BitVec 12) (s : State) : Host.Outcome State Fault Refusal :=
  let ea := s.effectiveAddress rs1 imm
  let v := maskToWidth w (s.x rs2)
  match accessKind .store ea with
  | .vrStore p => .next (storePortEffect p v s)
  | .malloc => .next ((s.mallocRequest v).advancePc)
  | .plain | .vrLoad _ => .next (plainStore ea w (s.x rs2) s)

/-- R207 -/
def execSb (rs1 rs2 : RegId) (imm : BitVec 12) (s : State) : Host.Outcome State Fault Refusal :=
  storeOp .byte rs1 rs2 imm s
/-- R208 -/
def execSh (rs1 rs2 : RegId) (imm : BitVec 12) (s : State) : Host.Outcome State Fault Refusal :=
  storeOp .half rs1 rs2 imm s
/-- R209 -/
def execSw (rs1 rs2 : RegId) (imm : BitVec 12) (s : State) : Host.Outcome State Fault Refusal :=
  storeOp .word rs1 rs2 imm s

end Sys2Proof.Machine
end

