-- ==== Sys2Proof/Machine/RegisterAlu.lean ====
section
/-! DEFINITION. The R-format instructions (spec/40_register_alu.md). -/

namespace Sys2Proof.Machine

/-- The common behaviour (R150): both sources are read, then the result is written and `pc` advances by 4. -/
def registerOp (f : Word → Word → Word) (rd rs1 rs2 : RegId) (s : State) : Host.Outcome State Fault Refusal :=
  .next ((s.writeReg rd (f (s.x rs1) (s.x rs2))).advancePc)

/-- R151 -/
def execAdd (rd rs1 rs2 : RegId) (s : State) : Host.Outcome State Fault Refusal :=
  registerOp (fun a b => a + b) rd rs1 rs2 s
/-- R152 -/
def execSub (rd rs1 rs2 : RegId) (s : State) : Host.Outcome State Fault Refusal :=
  registerOp (fun a b => a - b) rd rs1 rs2 s
/-- R153 -/
def execXor (rd rs1 rs2 : RegId) (s : State) : Host.Outcome State Fault Refusal :=
  registerOp (fun a b => a ^^^ b) rd rs1 rs2 s
/-- R154 -/
def execOr (rd rs1 rs2 : RegId) (s : State) : Host.Outcome State Fault Refusal :=
  registerOp (fun a b => a ||| b) rd rs1 rs2 s
/-- R155 -/
def execAnd (rd rs1 rs2 : RegId) (s : State) : Host.Outcome State Fault Refusal :=
  registerOp (fun a b => a &&& b) rd rs1 rs2 s
/-- R157: logical left shift by `x[rs2][4:0]` (R156). -/
def execSll (rd rs1 rs2 : RegId) (s : State) : Host.Outcome State Fault Refusal :=
  registerOp (fun a b => a <<< shiftAmount b) rd rs1 rs2 s
/-- R158: logical right shift. -/
def execSrl (rd rs1 rs2 : RegId) (s : State) : Host.Outcome State Fault Refusal :=
  registerOp (fun a b => a >>> shiftAmount b) rd rs1 rs2 s
/-- R159: arithmetic right shift; the amount is only a count (90_conflicts.md C7). -/
def execSra (rd rs1 rs2 : RegId) (s : State) : Host.Outcome State Fault Refusal :=
  registerOp (fun a b => a.sshiftRight (shiftAmount b)) rd rs1 rs2 s
/-- R160 -/
def execSlt (rd rs1 rs2 : RegId) (s : State) : Host.Outcome State Fault Refusal :=
  registerOp (fun a b => compareResult (lessSigned a b)) rd rs1 rs2 s
/-- R161 -/
def execSltu (rd rs1 rs2 : RegId) (s : State) : Host.Outcome State Fault Refusal :=
  registerOp (fun a b => compareResult (lessUnsigned a b)) rd rs1 rs2 s

end Sys2Proof.Machine
end

