-- ==== Sys2Proof/Machine/Step.lean ====
section
/-! DEFINITION. One step: one whole cycle of the control state machine (spec/70_reset_and_hazards.md R334, R335). -/

namespace Sys2Proof.Machine

/-- One cycle from RUNNING; HALTED has no successor (10_state.md R36). -/
def step (s : State) : Host.Outcome State Fault Refusal :=
  match s.runState with
  | .halted _ => .fault .halted
  | .running =>
    match s.beginCycle.fetchInstr with
    | .error c => .next (s.beginCycle.raise c)
    | .ok i => exec i s.beginCycle

/-- `s` with the word of `nbits` bits `w` in instruction memory where the next cycle fetches (log entry 4). -/
def State.withFetchWord (s : State) (nbits w : Nat) : State :=
  s.readyToFetch.placeWord s.readyToFetch.pc.toNat (BitVec.ofNat 32 (w % 2 ^ nbits))

end Sys2Proof.Machine
end

