-- ==== Sys2Proof/Machine/Console.lean ====
section
/-! DEFINITION. How the host renders the output trace as bytes on standard output: the format strings of
spec/44_ports_and_heap.md R262 to R268, with what the spec leaves OPEN (separators D24, fatal diagnostic D25) taken from Config's
free values. No instruction reads any of this. -/

namespace Sys2Proof.Machine

/-- The bytes of an ASCII text. -/
def ascii (t : String) : List Byte := t.toList.map (fun c => BitVec.ofNat 8 c.toNat)

/-- The digits of a number, most significant first; `fuel` is the most digits there can be. -/
def digits (base : Nat) : Nat → Nat → List Nat
  | 0, _ => []
  | fuel + 1, n => if n < base then [n] else digits base fuel (n / base) ++ [n % base]

/-- The character of a digit, lowercase for ten to fifteen. -/
def digitChar (d : Nat) : Byte := if d < 10 then BitVec.ofNat 8 (0x30 + d) else BitVec.ofNat 8 (0x57 + d)

/-- A 32-bit unsigned number in decimal, without leading zeros. -/
def decimal (n : Nat) : List Byte := (digits 10 10 n).map digitChar

/-- `%d` of a 32-bit two's-complement integer (R263). -/
def signedDecimal (v : Word) : List Byte :=
  if v.toInt < 0 then ascii "-" ++ decimal (-v.toInt).toNat else decimal v.toNat

/-- `%x`: lowercase hex without leading zeros (R264). -/
def hexLower (v : Word) : List Byte := (digits 16 8 v.toNat).map digitChar

/-- `%04x` and `%08x`: lowercase hex with at least `width` digits (R266 to R268). -/
def hexPadded (width : Nat) (v : Word) : List Byte :=
  List.replicate (width - (hexLower v).length) 0x30 ++ hexLower v

/-- One of the thirty-two lines `R[n] = 0x%08x;` (R267). -/
def registerLine (n : Nat) (v : Word) : List Byte :=
  ascii "R[" ++ decimal n ++ ascii "] = 0x" ++ hexPadded 8 v ++ ascii ";"

/-- Register lines from number `n` on, in increasing order (R267). -/
def registerLines : Nat → List Word → List (List Byte)
  | _, [] => []
  | n, v :: vs => registerLine n v :: registerLines (n + 1) vs

/-- The text of an event by the source's format strings, in pieces: one, but for the register dump's `PC` line and thirty-two
register lines (R262 to R268). A character is `v mod 256` (R262). -/
def Event.pieces : Event → List (List Byte)
  | .writeChar v => [[v.setWidth 8]]
  | .writeSint v => [signedDecimal v]
  | .writeUhex v => [hexLower v]
  | .dumpPc pc => [ascii "0x" ++ hexPadded 4 pc]
  | .dumpRegs pc regs => (ascii "PC = 0x" ++ hexPadded 8 pc ++ ascii ";") :: registerLines 0 regs
  | .dumpMem b => [hexPadded 8 (b.setWidth 32)]

/-- Pieces joined with what the host prints after each (`CONSOLE_FORMAT`, D24); `k` numbers the first piece of the list. -/
def joinPieces (e : Event) : Nat → List (List Byte) → List Byte
  | _, [] => []
  | k, p :: ps => p ++ Config.consoleSeparator e k ++ joinPieces e (k + 1) ps

/-- The bytes of one event. -/
def Event.render (e : Event) : List Byte := joinPieces e 0 e.pieces

/-- The bytes of a trace. -/
def renderTrace (t : List Event) : List Byte := t.flatMap Event.render

/-- Standard output of a run so far. A status-1 termination's register dump, the last event, stands between the two parts of the
fatal diagnostic (`FATAL_DIAGNOSTIC`, R303, D25). -/
def State.stdout (s : State) : List Byte :=
  match s.runState with
  | .running => renderTrace s.output
  | .halted c =>
    if c.exitStatus = 1 then
      renderTrace s.output.dropLast ++ (Config.fatalDiagnostic c).1 ++
        renderTrace (s.output.drop (s.output.length - 1)) ++ (Config.fatalDiagnostic c).2
    else renderTrace s.output

end Sys2Proof.Machine
end

