-- ==== Sys2Proof/Machine/Run.lean ====
section
/-! DEFINITION. Runs of several cycles and the observation of a run that ended (spec/70_reset_and_hazards.md R334, R339). -/

namespace Sys2Proof.Machine

/-- Up to `n` cycles: the run stops early at the first cycle that has no successor. HALTED has none, so a run that ended stays
where it is (60_exceptions.md R305). -/
def runCycles : Nat → State → Host.Outcome State Fault Refusal
  | 0, s => .next s
  | n + 1, s =>
    match step s with
    | .next t => runCycles n t
    | .fault .halted => .next s
    | .fault f => .fault f
    | .refused r => .refused r

/-- What a run that ended shows (R339): exit status and cause, the output trace, and the final state's `pc`, `x[0..31]`, data memory,
heap and allocation counts. -/
structure Observation where
  exitStatus : Nat
  cause : Cause
  output : List Event
  pc : Word
  x : List Word
  dmem : List Byte
  heap : List (List Byte)
  bytesAllocated : List Nat
deriving DecidableEq, Repr

/-- The observation of a state: none while the machine is RUNNING, blocked or not (R339). -/
def State.observation (s : State) : Option Observation :=
  match s.runState with
  | .running => none
  | .halted c =>
    some
      { exitStatus := c.exitStatus
        cause := c
        output := s.output
        pc := s.pc
        x := s.dump
        dmem := (List.range Config.dmemSize).map s.dmem
        heap := (List.range Config.heapBanks).map (fun b => (List.range Config.bankSize).map (s.heap b))
        bytesAllocated := s.bytesAllocated }

end Sys2Proof.Machine
end

