-- ==== Sys2Proof/Safety.lean ====
section
/-! DEFINITION. The terms claims are made in: runs, the invariant of the machine, what an instruction leaves as it was, and two states
that differ in nothing a program can learn. -/

namespace Sys2Proof.Machine

/-! ### Runs -/

/-- `t` is reached from `s` in finitely many cycles. -/
inductive Steps (s : State) : State → Prop
  | refl : Steps s s
  | tail {t u : State} : Steps s t → step t = .next u → Steps s u

/-! ### The invariant -/

/-- `pc` is a valid fetch address: a multiple of 4 in [0x000, 0x3FC] (10_state.md R27). -/
def State.ValidPc (s : State) : Prop := s.pc.toNat ≤ 0x3FF ∧ s.pc.toNat % 4 = 0

/-- What a cause says of the state HALTED is left in (60_exceptions.md R301): its `pc`, the word or the address it names, and the
register dump that ends the trace of a status-1 termination (R303, R304). -/
def Cause.LeftIn : Cause → State → Prop
  | .halt, s => s.ValidPc
  | .pcExit, s => 0x3FF < s.pc.toNat
  | .invalidInstruction w, s =>
    s.ValidPc ∧ w = s.fetchWord ∧ (∃ r, decodeWord w = .error r) ∧ ∃ es, s.output = es ++ [.dumpRegs s.pc s.dump]
  | .misalignedFetch p, s =>
    p = s.pc ∧ s.pc.toNat ≤ 0x3FF ∧ s.pc.toNat % 4 ≠ 0 ∧ ∃ es, s.output = es ++ [.dumpRegs s.pc s.dump]
  | .addressFault ea, s =>
    s.ValidPc ∧ (∃ i, i < 4 ∧ 0xD700 ≤ (ea + BitVec.ofNat 32 i).toNat) ∧ ∃ es, s.output = es ++ [.dumpRegs s.pc s.dump]

/-- The invariant of the machine, in every state between two cycles. -/
structure State.Inv (s : State) : Prop where
  /-- memory is in its canonical form -/
  memoryCanonical : Memory.wf s.mem
  /-- memory lists storage only: instruction memory, data memory and heap (20_memory.md R62) -/
  memoryInStorage : ∀ c ∈ s.mem, c.1 ≤ 0x07FF ∨ (0xB700 ≤ c.1 ∧ c.1 ≤ 0xD6FF)
  /-- there are 128 allocation counts, each in 0 to 64 (10_state.md R35) -/
  countsShape : s.bytesAllocated.length = 128 ∧ ∀ c ∈ s.bytesAllocated, c ≤ 64
  /-- no virtual load is pending between cycles (10_state.md R34) -/
  pendingClear : s.pendingVirtualLoad = false
  /-- HALTED is left as its cause says (60_exceptions.md R301, R303, R304) -/
  haltedConsistent : ∀ c, s.runState = .halted c → c.LeftIn s

/-! ### What an instruction leaves as it was -/

/-- Register `rd` holds `v` and every other register what it held; `x0` reads 0 whatever was written (10_state.md R21, R22). -/
def State.WritesReg (s t : State) (rd : RegId) (v : Word) : Prop :=
  ∀ q, t.x q = if q = rd ∧ q ≠ 0 then v else s.x q

/-- Every register holds what it held. -/
def State.SameRegs (s t : State) : Prop := ∀ q, t.x q = s.x q

/-- Every byte of memory reads as before. -/
def State.SameBytes (s t : State) : Prop := ∀ a, t.byteAt a = s.byteAt a

/-- The allocation counts, the run state, the pending flag and both console streams are as they were. -/
def State.SameRest (s t : State) : Prop :=
  t.bytesAllocated = s.bytesAllocated ∧ t.runState = s.runState ∧ t.pendingVirtualLoad = s.pendingVirtualLoad ∧
    t.output = s.output ∧ t.input = s.input

/-- `i` completes at `s`: its next state has `v` in `rd` and `pc` as given, and nothing else changed. -/
def CompletesWith (i : Instr) (s : State) (rd : RegId) (v pc : Word) : Prop :=
  ∃ t, exec i s = .next t ∧ s.WritesReg t rd v ∧ t.pc = pc ∧ s.SameBytes t ∧ s.SameRest t

/-- `i` completes at `s` with one console event: the event ends the trace, `pc` advances by 4, and nothing else changed. -/
def CompletesEmitting (i : Instr) (s : State) (e : Event) : Prop :=
  ∃ t, exec i s = .next t ∧ t.output = s.output ++ [e] ∧ t.pc = s.pc + 4 ∧ s.SameRegs t ∧ s.SameBytes t ∧
    t.bytesAllocated = s.bytesAllocated ∧ t.runState = s.runState ∧ t.pendingVirtualLoad = s.pendingVirtualLoad ∧
    t.input = s.input

/-- The instruction, or the cycle, ends the run with cause `c`: the exit status is the cause's, a status-1 cause adds the register dump
to the trace, and registers, memory, counts, input and `pc` are as they were (60_exceptions.md R301, R303 to R305). -/
def EndsRun (o : Host.Outcome State Fault Refusal) (s : State) (c : Cause) : Prop :=
  ∃ t, o = .next t ∧ t.runState = .halted c ∧ t.runState.exitStatus = some c.exitStatus ∧
    t.output = s.output ++ (if c.exitStatus = 1 then [.dumpRegs s.pc ((List.range 32).map (fun k => s.x (BitVec.ofNat 5 k)))] else []) ∧
    t.pc = s.pc ∧ s.SameRegs t ∧ s.SameBytes t ∧ t.bytesAllocated = s.bytesAllocated ∧ t.input = s.input

/-- A byte address that stores reach: data memory or heap (20_memory.md R62, R66, R67). -/
def Storable (a : Word) : Prop := (0x0400 ≤ a.toNat ∧ a.toNat ≤ 0x07FF) ∨ (0xB700 ≤ a.toNat ∧ a.toNat ≤ 0xD6FF)

/-- The `n` bytes from `ea` hold the low bytes of `v`, least significant first, wherever an address is storable; every other byte of
memory reads as before (20_memory.md R70, R71). -/
def State.StoresBytes (s t : State) (ea : Word) (n : Nat) (v : Word) : Prop :=
  (∀ i, i < n → Storable (ea + BitVec.ofNat 32 i) →
    t.byteAt (ea + BitVec.ofNat 32 i) = some (v.extractLsb' (8 * i) 8)) ∧
  (∀ a, (∀ i, i < n → a = ea + BitVec.ofNat 32 i → ¬ Storable a) → t.byteAt a = s.byteAt a)

/-! ### The forms of loads and stores -/

/-- The three stores: constructor, and width in bytes (20_memory.md R73). -/
def storeForms : List ((RegId → RegId → BitVec 12 → Instr) × Nat) := [(.sb, 1), (.sh, 2), (.sw, 4)]

/-- The five loads: constructor, width in bytes, and whether the value is sign-extended (20_memory.md R73, 42_load_store.md R200). -/
def loadForms : List ((RegId → RegId → BitVec 12 → Instr) × Nat × Bool) :=
  [(.lb, 1, true), (.lh, 2, true), (.lw, 4, true), (.lbu, 1, false), (.lhu, 2, false)]

/-- The seven addresses at which a store is a virtual routine, and the malloc port's (20_memory.md R62, R65). -/
def interceptedStores : List Word := [0x0800, 0x0804, 0x0808, 0x080C, 0x0820, 0x0824, 0x0828, 0x0830]

/-- The unsigned number of bytes in memory order (20_memory.md R69). -/
def bytesNumber : List Byte → Nat
  | [] => 0
  | b :: bs => b.toNat + 256 * bytesNumber bs

/-- The 32-bit value of an `n`-byte number, read as two's complement or as unsigned (00_scope.md R11). -/
def extendedValue (n : Nat) (signed : Bool) (r : Nat) : Word :=
  if signed ∧ 2 ^ (8 * n - 1) ≤ r then BitVec.ofInt 32 (r - 2 ^ (8 * n)) else BitVec.ofNat 32 r

/-- The register an instruction writes at `s`, if any (10_state.md R23). -/
def State.writtenRegister (s : State) : Instr → Option RegId
  | .add rd _ _ | .sub rd _ _ | .xor rd _ _ | .or rd _ _ | .and rd _ _ => some rd
  | .sll rd _ _ | .srl rd _ _ | .sra rd _ _ | .slt rd _ _ | .sltu rd _ _ => some rd
  | .addi rd _ _ | .slti rd _ _ | .sltiu rd _ _ | .xori rd _ _ | .ori rd _ _ | .andi rd _ _ => some rd
  | .lui rd _ => some rd
  | .lb rd _ _ | .lh rd _ _ | .lw rd _ _ | .lbu rd _ _ | .lhu rd _ _ => some rd
  | .sb rs1 _ imm | .sh rs1 _ imm | .sw rs1 _ imm =>
    if s.effectiveAddress rs1 imm = 0x0830 then some Config.mallocResultReg else none
  | .beq _ _ _ | .bne _ _ _ | .blt _ _ _ | .bge _ _ _ | .bltu _ _ _ | .bgeu _ _ _ => none
  | .jal rd _ => some rd
  | .jalr rd _ _ => some rd

/-- The addresses of the bytes an instruction stores to at `s`: those of a store that no port intercepts (20_memory.md R65, R70). -/
def State.StoresTo (s : State) (i : Instr) (a : Word) : Prop :=
  match i with
  | .sb rs1 _ imm => s.effectiveAddress rs1 imm ∉ interceptedStores ∧ a = s.effectiveAddress rs1 imm
  | .sh rs1 _ imm =>
    s.effectiveAddress rs1 imm ∉ interceptedStores ∧ ∃ k, k < 2 ∧ a = s.effectiveAddress rs1 imm + BitVec.ofNat 32 k
  | .sw rs1 _ imm =>
    s.effectiveAddress rs1 imm ∉ interceptedStores ∧ ∃ k, k < 4 ∧ a = s.effectiveAddress rs1 imm + BitVec.ofNat 32 k
  | .add _ _ _ | .sub _ _ _ | .xor _ _ _ | .or _ _ _ | .and _ _ _ | .sll _ _ _ | .srl _ _ _ | .sra _ _ _
  | .slt _ _ _ | .sltu _ _ _ | .addi _ _ _ | .slti _ _ _ | .sltiu _ _ _ | .xori _ _ _ | .ori _ _ _ | .andi _ _ _
  | .lui _ _ | .lb _ _ _ | .lh _ _ _ | .lw _ _ _ | .lbu _ _ _ | .lhu _ _ _ | .beq _ _ _ | .bne _ _ _ | .blt _ _ _
  | .bge _ _ _ | .bltu _ _ _ | .bgeu _ _ _ | .jal _ _ | .jalr _ _ _ => False

/-- Whether an instruction sets the program counter itself at `s`: a branch whose condition holds, `jal` and `jalr`
(10_state.md R28). -/
def State.setsPc (s : State) : Instr → Bool
  | .beq rs1 rs2 _ => condEq (s.x rs1) (s.x rs2)
  | .bne rs1 rs2 _ => condNe (s.x rs1) (s.x rs2)
  | .blt rs1 rs2 _ => condLt (s.x rs1) (s.x rs2)
  | .bge rs1 rs2 _ => condGe (s.x rs1) (s.x rs2)
  | .bltu rs1 rs2 _ => condLtu (s.x rs1) (s.x rs2)
  | .bgeu rs1 rs2 _ => condGeu (s.x rs1) (s.x rs2)
  | .jal _ _ | .jalr _ _ _ => true
  | .add _ _ _ | .sub _ _ _ | .xor _ _ _ | .or _ _ _ | .and _ _ _ | .sll _ _ _ | .srl _ _ _ | .sra _ _ _
  | .slt _ _ _ | .sltu _ _ _ | .addi _ _ _ | .slti _ _ _ | .sltiu _ _ _ | .xori _ _ _ | .ori _ _ _ | .andi _ _ _
  | .lui _ _ | .lb _ _ _ | .lh _ _ _ | .lw _ _ _ | .lbu _ _ _ | .lhu _ _ _ | .sb _ _ _ | .sh _ _ _ | .sw _ _ _ => false

/-! ### Two states no program can tell apart -/

/-- The states differ at most in how many bytes of an allocated bank are counted: the same banks are free (90_conflicts.md C4). -/
def State.SameButCounts (s t : State) : Prop :=
  t = s.setBytesAllocated t.bytesAllocated ∧
    t.bytesAllocated.length = s.bytesAllocated.length ∧
    ∀ k : Nat, t.bytesAllocated[k]? = some 0 ↔ s.bytesAllocated[k]? = some 0

end Sys2Proof.Machine
end

