-- ==== Sys2Proof/Certificates/Slice0/Obligations.lean ====
section
/-! DEFINITION. The statements for the provers. Each formalises rules of spec/, or a whole-machine property that follows from them;
OBLIGATIONS.json lists them with what each cites. A docstring names the spec's decision D<n> or general-knowledge mark a statement
rests on. -/

section

open Sys2Proof Sys2Proof.Machine

/-! ### Encoding -/

/-- Words the spec writes out, one at least for each format and function-code table, decode to the instruction they stand for: ten of
95_test_vectors.md part 2, the `bgeu` of V83 (and R236's example) and the `jalr` of R238's example. The codes are D3's (general
knowledge). -/
def Obligations.DecodeSpecWords : Prop :=
  decodeWord 0x003100B3 = .ok (.add 1 2 3) ∧
  decodeWord 0x409453B3 = .ok (.sra 7 8 9) ∧
  decodeWord 0xFFF0B193 = .ok (.sltiu 3 1 0xFFF) ∧
  decodeWord 0x00014083 = .ok (.lbu 1 2 0) ∧
  decodeWord 0x003100A3 = .ok (.sb 2 3 1) ∧
  decodeWord 0x00312223 = .ok (.sw 2 3 4) ∧
  decodeWord 0xFE209EE3 = .ok (.bne 1 2 0x1FFC) ∧
  decodeWord 0x0020F463 = .ok (.bgeu 1 2 8) ∧
  decodeWord 0xFFFFF3B7 = .ok (.lui 7 0xFFFFF) ∧
  decodeWord 0x020000EF = .ok (.jal 1 32) ∧
  decodeWord 0x004282E7 = .ok (.jalr 5 5 4) ∧
  decodeWord 0x00000000 = .error (.unknownOpcode 0)

/-- Decoding an encoded well-formed instruction gives it back, as a word, as bytes in memory with anything after them, and in the
opcode table's bit numbering. The byte order of words in memory is D10's (log entry 19). -/
def Obligations.DecodeOfEncode : Prop :=
  ∀ i : Instr, i.WellFormed →
    decodeWord (encode i) = .ok i ∧
    (∀ rest, decodeBytes (encodeBytes i ++ rest) = .ok (i, rest)) ∧
    decodeTableWord 32 (encode i).toNat = some i

/-- A word that decodes is the encoding of what it decodes to: no bit of a valid word is ignored, and what the decoder answers is
well-formed. -/
def Obligations.EncodeOfDecode : Prop :=
  ∀ (w : Word) (i : Instr), decodeWord w = .ok i → i.WellFormed ∧ encode i = w

/-- A word is a valid instruction exactly when it matches one row of the opcode table, and that row is its mnemonic's (R117, marked
derived; the rows are D3's). -/
def Obligations.ValidWordMatchesOneRow : Prop :=
  ∀ w : Word,
    (∀ i, decodeWord w = .ok i → ∀ m : Mnemonic, (m.matchesWord w = true ↔ m = i.mnemonic)) ∧
    (∀ r, decodeWord w = .error r → ∀ m : Mnemonic, m.matchesWord w = false)

/-- The fields of the R, I, S and U layouts, as `extract_bits` slices of the word (R105, R106, R107, R109). -/
def Obligations.FieldsOfLayouts : Prop :=
  ∀ w : Word,
    match decodeFields w with
    | .r word opcode _ rd rs1 rs2 funct3 funct7 =>
      word = w ∧ extractBits w 6 0 = some opcode.toNat ∧ extractBits w 11 7 = some rd.toNat ∧
      extractBits w 14 12 = some funct3.toNat ∧ extractBits w 19 15 = some rs1.toNat ∧
      extractBits w 24 20 = some rs2.toNat ∧ extractBits w 31 25 = some funct7.toNat
    | .iArith word _ _ rd rs1 funct3 immRaw imm | .iLoad word _ _ rd rs1 funct3 immRaw imm
    | .iJump word _ _ rd rs1 funct3 immRaw imm =>
      word = w ∧ extractBits w 11 7 = some rd.toNat ∧ extractBits w 14 12 = some funct3.toNat ∧
      extractBits w 19 15 = some rs1.toNat ∧ extractBits w 31 20 = some immRaw.toNat ∧
      ∀ k, k < 32 → imm.getLsbD k = immRaw.getLsbD (min k 11)
    | .s word _ _ rs1 rs2 funct3 immRaw imm =>
      word = w ∧ extractBits w 14 12 = some funct3.toNat ∧ extractBits w 19 15 = some rs1.toNat ∧
      extractBits w 24 20 = some rs2.toNat ∧
      (∃ hi lo, extractBits w 31 25 = some hi ∧ extractBits w 11 7 = some lo ∧ immRaw.toNat = (hi <<< 5) ||| lo) ∧
      ∀ k, k < 32 → imm.getLsbD k = immRaw.getLsbD (min k 11)
    | .u word _ _ rd immRaw imm =>
      word = w ∧ extractBits w 11 7 = some rd.toNat ∧
      (∃ n, extractBits w 31 12 = some n ∧ immRaw.toNat = n <<< 12) ∧ imm = immRaw
    | .sb _ _ _ _ _ _ _ _ => True
    | .uj _ _ _ _ _ _ => True
    | .invalid _ _ => True

/-- The bit map of the SB and UJ immediates (R108, R110). That their bit 0 is 0 is marked derived in both rules. -/
def Obligations.FieldsOfBranchesAndJumps : Prop :=
  ∀ w : Word,
    match decodeFields w with
    | .sb word _ _ rs1 rs2 funct3 immRaw imm =>
      word = w ∧ extractBits w 14 12 = some funct3.toNat ∧ extractBits w 19 15 = some rs1.toNat ∧
      extractBits w 24 20 = some rs2.toNat ∧
      immRaw.getLsbD 12 = w.getLsbD 31 ∧ immRaw.getLsbD 11 = w.getLsbD 7 ∧
      (∀ k, 5 ≤ k → k ≤ 10 → immRaw.getLsbD k = w.getLsbD (k + 20)) ∧
      (∀ k, 1 ≤ k → k ≤ 4 → immRaw.getLsbD k = w.getLsbD (k + 7)) ∧ immRaw.getLsbD 0 = false ∧
      ∀ k, k < 32 → imm.getLsbD k = immRaw.getLsbD (min k 12)
    | .uj word _ _ rd immRaw imm =>
      word = w ∧ extractBits w 11 7 = some rd.toNat ∧
      immRaw.getLsbD 20 = w.getLsbD 31 ∧ immRaw.getLsbD 11 = w.getLsbD 20 ∧
      (∀ k, 12 ≤ k → k ≤ 19 → immRaw.getLsbD k = w.getLsbD k) ∧
      (∀ k, 1 ≤ k → k ≤ 10 → immRaw.getLsbD k = w.getLsbD (k + 20)) ∧ immRaw.getLsbD 0 = false ∧
      ∀ k, k < 32 → imm.getLsbD k = immRaw.getLsbD (min k 20)
    | .r _ _ _ _ _ _ _ _ => True
    | .iArith _ _ _ _ _ _ _ _ => True
    | .iLoad _ _ _ _ _ _ _ _ => True
    | .iJump _ _ _ _ _ _ _ _ => True
    | .s _ _ _ _ _ _ _ _ => True
    | .u _ _ _ _ _ _ => True
    | .invalid _ _ => True

/-- The decoded immediate is the two's-complement value of the raw field at its format's width; the rule's three 12-bit examples; and
the SB round trip for every multiple of 2 in [-4096, 4094] (R112). -/
def Obligations.ImmediatesExact : Prop :=
  (∀ w : Word,
    match decodeFields w with
    | .iArith _ _ _ _ _ _ immRaw imm | .iLoad _ _ _ _ _ _ immRaw imm | .iJump _ _ _ _ _ _ immRaw imm
    | .s _ _ _ _ _ _ immRaw imm =>
      imm.toInt = if immRaw.toNat < 2 ^ 11 then (immRaw.toNat : Int) else immRaw.toNat - 2 ^ 12
    | .sb _ _ _ _ _ _ immRaw imm => imm.toInt = if immRaw.toNat < 2 ^ 12 then (immRaw.toNat : Int) else immRaw.toNat - 2 ^ 13
    | .u _ _ _ _ immRaw imm => imm.toInt = if immRaw.toNat < 2 ^ 31 then (immRaw.toNat : Int) else immRaw.toNat - 2 ^ 32
    | .uj _ _ _ _ immRaw imm => imm.toInt = if immRaw.toNat < 2 ^ 20 then (immRaw.toNat : Int) else immRaw.toNat - 2 ^ 21
    | .r _ _ _ _ _ _ _ _ => True
    | .invalid _ _ => True) ∧
  (sext12 0xFFF).toInt = -1 ∧ (sext12 0x800).toInt = -2048 ∧ (sext12 0x7FF).toInt = 2047 ∧
  (∀ (funct3 : BitVec 3) (rs1 rs2 : RegId) (offset : Int), -4096 ≤ offset → offset ≤ 4094 → offset % 2 = 0 →
    (sext13 (immRawSB (encodeSB funct3 rs1 rs2 (BitVec.ofInt 13 offset)))).toInt = offset)

/-- Every word the decoder refuses decodes to `INVALID` and to nothing else: an opcode outside the eight (R104), of which there are
120, the all-zero and all-ones words among them; and the function codes R116 lists. The opcode and function codes are D3's, the
treatment of unlisted function codes is D4's. -/
def Obligations.InvalidWords : Prop :=
  (∀ w : Word, (∃ r, decodeWord w = .error r) ↔ decodeFields w = .invalid w (opcodeField w)) ∧
  (∀ w : Word, opcodeField w ∉ [0x33#7, 0x13#7, 0x03#7, 0x67#7, 0x23#7, 0x63#7, 0x37#7, 0x6F#7] →
    decodeWord w = .error (.unknownOpcode (opcodeField w))) ∧
  ((List.range 128).filter (fun n => classify (BitVec.ofNat 7 n) = .invalid)).length = 120 ∧
  decodeWord 0x00000000 = .error (.unknownOpcode 0x00) ∧ decodeWord 0xFFFFFFFF = .error (.unknownOpcode 0x7F) ∧
  (∀ w : Word,
    (opcodeField w = 0x33 ∧ funct7Field w = 0b0000001) ∨
    (opcodeField w = 0x13 ∧ (funct3Field w = 0b001 ∨ funct3Field w = 0b101)) ∨
    (opcodeField w = 0x03 ∧ (funct3Field w = 0b011 ∨ funct3Field w = 0b110 ∨ funct3Field w = 0b111)) ∨
    (opcodeField w = 0x67 ∧ funct3Field w ≠ 0b000) ∨
    (opcodeField w = 0x23 ∧ 0b011 ≤ (funct3Field w).toNat) ∨
    (opcodeField w = 0x63 ∧ (funct3Field w = 0b010 ∨ funct3Field w = 0b011)) →
    decodeWord w = .error (.unresolvedFunction (opcodeField w) (funct3Field w) (funct7Field w)))

/-! ### General registers -/

/-- Register `i` in 1 to 31 reads its 32-bit content, and register 0 reads 0 always (R21). -/
def Obligations.RegisterRead : Prop :=
  ∀ s : State, s.x 0 = 0 ∧ ∀ r : RegId, r ≠ 0 → some (s.x r) = s.gpr[r.toNat - 1]?

/-- A write replaces the one register it names, nothing at all for register 0, and no other state (R22; that a write to `x0` is
discarded at once is D6). -/
def Obligations.RegisterWrite : Prop :=
  ∀ (s : State) (r : RegId) (v : Word),
    s.WritesReg (s.writeReg r v) r v ∧ s.writeReg 0 v = s ∧ (s.writeReg r v).pc = s.pc ∧
    (s.writeReg r v).mem = s.mem ∧ s.SameRest (s.writeReg r v)

/-- A register changes in a cycle only if it is the one register that the cycle's instruction writes: `rd` of the register, immediate,
load and jump forms, the malloc result register for a store to the malloc port; branches, other stores and cycles that decode no
instruction write none (R23, by its table; the malloc result register is D26's). -/
def Obligations.OnlyDestinationChanges : Prop :=
  ∀ (s t : State), step s = .next t → ∀ q : RegId, t.x q ≠ s.x q →
    ∃ i, decodeWord s.fetchWord = .ok i ∧ s.writtenRegister i = some q

/-! ### Register arithmetic (40_register_alu.md) -/

/-- Each R-format instruction reads `x[rs1]` and `x[rs2]`, writes one result that depends on these two values alone to `rd`
(discarded for `x0`), advances `pc` by 4, and does nothing else (R150). -/
def Obligations.RegisterFormCommonBehaviour : Prop :=
  ∀ C ∈ [Instr.add, Instr.sub, Instr.xor, Instr.or, Instr.and, Instr.sll, Instr.srl, Instr.sra, Instr.slt, Instr.sltu],
    ∃ f : Word → Word → Word, ∀ (s : State) (rd rs1 rs2 : RegId),
      CompletesWith (C rd rs1 rs2) s rd (f (s.x rs1) (s.x rs2)) (s.pc + 4)

/-- `add` and `sub`: pattern, and the exact sum or difference modulo 2^32 (R151, R152). -/
def Obligations.AddSub : Prop :=
  ∀ (s : State) (rd rs1 rs2 : RegId),
    (decodeWord (0b0000000#7 ++ rs2 ++ rs1 ++ 0b000#3 ++ rd ++ 0b0110011#7) = .ok (.add rd rs1 rs2) ∧
      CompletesWith (.add rd rs1 rs2) s rd (BitVec.ofInt 32 ((s.x rs1).toInt + (s.x rs2).toInt)) (s.pc + 4)) ∧
    (decodeWord (0b0100000#7 ++ rs2 ++ rs1 ++ 0b000#3 ++ rd ++ 0b0110011#7) = .ok (.sub rd rs1 rs2) ∧
      CompletesWith (.sub rd rs1 rs2) s rd (BitVec.ofInt 32 ((s.x rs1).toInt - (s.x rs2).toInt)) (s.pc + 4))

/-- `xor`, `or` and `and`: function codes, and the result bit by bit (R153, R154, R155). -/
def Obligations.XorOrAnd : Prop :=
  ∀ (s : State) (rd rs1 rs2 : RegId),
    (decodeWord (0b0000000#7 ++ rs2 ++ rs1 ++ 0b100#3 ++ rd ++ 0b0110011#7) = .ok (.xor rd rs1 rs2) ∧
      ∃ v, CompletesWith (.xor rd rs1 rs2) s rd v (s.pc + 4) ∧
        ∀ k, v.getLsbD k = ((s.x rs1).getLsbD k != (s.x rs2).getLsbD k)) ∧
    (decodeWord (0b0000000#7 ++ rs2 ++ rs1 ++ 0b110#3 ++ rd ++ 0b0110011#7) = .ok (.or rd rs1 rs2) ∧
      ∃ v, CompletesWith (.or rd rs1 rs2) s rd v (s.pc + 4) ∧
        ∀ k, v.getLsbD k = ((s.x rs1).getLsbD k || (s.x rs2).getLsbD k)) ∧
    (decodeWord (0b0000000#7 ++ rs2 ++ rs1 ++ 0b111#3 ++ rd ++ 0b0110011#7) = .ok (.and rd rs1 rs2) ∧
      ∃ v, CompletesWith (.and rd rs1 rs2) s rd v (s.pc + 4) ∧
        ∀ k, v.getLsbD k = ((s.x rs1).getLsbD k && (s.x rs2).getLsbD k))

/-- `sll`, `srl` and `sra` shift by the low five bits of `x[rs2]`; zeros fill, and the sign bit for `sra` (R157 to R159). The five
bits are D16's. -/
def Obligations.Shifts : Prop :=
  ∀ (s : State) (rd rs1 rs2 : RegId),
    (∃ v, CompletesWith (.sll rd rs1 rs2) s rd v (s.pc + 4) ∧
      ∀ k, k < 32 → v.getLsbD k =
        if (s.x rs2).toNat % 32 ≤ k then (s.x rs1).getLsbD (k - (s.x rs2).toNat % 32) else false) ∧
    (∃ v, CompletesWith (.srl rd rs1 rs2) s rd v (s.pc + 4) ∧
      ∀ k, k < 32 → v.getLsbD k =
        if k + (s.x rs2).toNat % 32 < 32 then (s.x rs1).getLsbD (k + (s.x rs2).toNat % 32) else false) ∧
    (∃ v, CompletesWith (.sra rd rs1 rs2) s rd v (s.pc + 4) ∧
      ∀ k, k < 32 → v.getLsbD k =
        if k + (s.x rs2).toNat % 32 < 32 then (s.x rs1).getLsbD (k + (s.x rs2).toNat % 32) else (s.x rs1).getLsbD 31)

/-- `slt` and `sltu` write 1 or 0 by the signed or the unsigned comparison (R160, R161). -/
def Obligations.SetLessThan : Prop :=
  ∀ (s : State) (rd rs1 rs2 : RegId),
    (decodeWord (0b0000000#7 ++ rs2 ++ rs1 ++ 0b010#3 ++ rd ++ 0b0110011#7) = .ok (.slt rd rs1 rs2) ∧
      CompletesWith (.slt rd rs1 rs2) s rd (if (s.x rs1).toInt < (s.x rs2).toInt then 1 else 0) (s.pc + 4)) ∧
    (decodeWord (0b0000000#7 ++ rs2 ++ rs1 ++ 0b011#3 ++ rd ++ 0b0110011#7) = .ok (.sltu rd rs1 rs2) ∧
      CompletesWith (.sltu rd rs1 rs2) s rd (if (s.x rs1).toNat < (s.x rs2).toNat then 1 else 0) (s.pc + 4))

/-! ### Immediate arithmetic (41_immediate_alu.md) -/

/-- `addi`: pattern, and the exact sum with the signed immediate modulo 2^32 (R181); `slti` and `sltiu`: function codes, and 1 or 0
by comparison with the sign-extended immediate, read as signed or as unsigned (R182, R183). -/
def Obligations.AddAndCompareImmediate : Prop :=
  ∀ (s : State) (rd rs1 : RegId) (imm : BitVec 12),
    (decodeWord (imm ++ rs1 ++ 0b000#3 ++ rd ++ 0b0010011#7) = .ok (.addi rd rs1 imm) ∧
      CompletesWith (.addi rd rs1 imm) s rd (BitVec.ofInt 32 ((s.x rs1).toInt + imm.toInt)) (s.pc + 4)) ∧
    (decodeWord (imm ++ rs1 ++ 0b010#3 ++ rd ++ 0b0010011#7) = .ok (.slti rd rs1 imm) ∧
      CompletesWith (.slti rd rs1 imm) s rd (if (s.x rs1).toInt < imm.toInt then 1 else 0) (s.pc + 4)) ∧
    (decodeWord (imm ++ rs1 ++ 0b011#3 ++ rd ++ 0b0010011#7) = .ok (.sltiu rd rs1 imm) ∧
      CompletesWith (.sltiu rd rs1 imm) s rd
        (if (s.x rs1).toNat < (if imm.toNat < 2 ^ 11 then imm.toNat else imm.toNat + (2 ^ 32 - 2 ^ 12)) then 1 else 0) (s.pc + 4))

/-- `xori`, `ori` and `andi`: function codes, and the result bit by bit against the sign-extended immediate (R184, R185, R186). -/
def Obligations.LogicImmediate : Prop :=
  ∀ (s : State) (rd rs1 : RegId) (imm : BitVec 12),
    (decodeWord (imm ++ rs1 ++ 0b100#3 ++ rd ++ 0b0010011#7) = .ok (.xori rd rs1 imm) ∧
      ∃ v, CompletesWith (.xori rd rs1 imm) s rd v (s.pc + 4) ∧
        ∀ k, k < 32 → v.getLsbD k = ((s.x rs1).getLsbD k != imm.getLsbD (min k 11))) ∧
    (decodeWord (imm ++ rs1 ++ 0b110#3 ++ rd ++ 0b0010011#7) = .ok (.ori rd rs1 imm) ∧
      ∃ v, CompletesWith (.ori rd rs1 imm) s rd v (s.pc + 4) ∧
        ∀ k, k < 32 → v.getLsbD k = ((s.x rs1).getLsbD k || imm.getLsbD (min k 11))) ∧
    (decodeWord (imm ++ rs1 ++ 0b111#3 ++ rd ++ 0b0010011#7) = .ok (.andi rd rs1 imm) ∧
      ∃ v, CompletesWith (.andi rd rs1 imm) s rd v (s.pc + 4) ∧
        ∀ k, k < 32 → v.getLsbD k = ((s.x rs1).getLsbD k && imm.getLsbD (min k 11)))

/-- `lui`: pattern, and the twenty immediate bits above twelve zeros; no register is read and the prior value is discarded (R187). -/
def Obligations.LoadUpperImmediate : Prop :=
  ∀ (s : State) (rd : RegId) (imm20 : BitVec 20),
    decodeWord (imm20 ++ rd ++ 0b0110111#7) = .ok (.lui rd imm20) ∧
    CompletesWith (.lui rd imm20) s rd (BitVec.ofNat 32 (imm20.toNat * 4096)) (s.pc + 4)

/-! ### Branches and jumps (43_control_transfer.md) -/

/-- The six branches: `pc` moves by the signed byte offset when the condition holds and by 4 when it does not; no register, memory or
other state changes (R230 to R236). The conditions and the fall-through are D17's (general knowledge). -/
def Obligations.Branches : Prop :=
  ∀ (s : State) (rs1 rs2 : RegId) (imm : BitVec 13),
    let target : Word := BitVec.ofInt 32 (s.pc.toInt + imm.toInt)
    CompletesWith (.beq rs1 rs2 imm) s 0 0 (if s.x rs1 = s.x rs2 then target else s.pc + 4) ∧
    CompletesWith (.bne rs1 rs2 imm) s 0 0 (if s.x rs1 ≠ s.x rs2 then target else s.pc + 4) ∧
    CompletesWith (.blt rs1 rs2 imm) s 0 0 (if (s.x rs1).toInt < (s.x rs2).toInt then target else s.pc + 4) ∧
    CompletesWith (.bge rs1 rs2 imm) s 0 0 (if (s.x rs1).toInt ≥ (s.x rs2).toInt then target else s.pc + 4) ∧
    CompletesWith (.bltu rs1 rs2 imm) s 0 0 (if (s.x rs1).toNat < (s.x rs2).toNat then target else s.pc + 4) ∧
    CompletesWith (.bgeu rs1 rs2 imm) s 0 0 (if (s.x rs1).toNat ≥ (s.x rs2).toNat then target else s.pc + 4)

/-- `jal` and `jalr` link `pc + 4` in `rd` and set `pc` to `pc` plus offset, or to the old base plus immediate with bit 0 kept (R237,
R238). The `jalr` target is 90_conflicts.md C8's reading, and its bit 0 D18's; reading the base first is D7's. -/
def Obligations.Jumps : Prop :=
  ∀ (s : State) (rd rs1 : RegId) (offset : BitVec 21) (imm : BitVec 12),
    CompletesWith (.jal rd offset) s rd (s.pc + 4) (BitVec.ofInt 32 (s.pc.toInt + offset.toInt)) ∧
    CompletesWith (.jalr rd rs1 imm) s rd (s.pc + 4) (BitVec.ofInt 32 ((s.x rs1).toInt + imm.toInt))

/-- In every cycle that goes on, `pc` advances by 4 unless the instruction is a branch whose condition holds, `jal` or `jalr`; a cycle
that ends in HALTED, the halt port's store included, leaves `pc` (R28; the branch conditions are D17's). -/
def Obligations.ProgramCounterUpdate : Prop :=
  ∀ (s t : State), step s = .next t →
    (t.runState = .running → ∃ i, decodeWord s.fetchWord = .ok i ∧ (s.setsPc i = false → t.pc = s.pc + 4)) ∧
    (∀ c, t.runState = .halted c → t.pc = s.pc)

/-! ### Memory and the router (20_memory.md) -/

/-- The effective address is the exact sum modulo 2^32, so -1 from `x0` is 0xFFFFFFFF (R61; the unsigned 32-bit reading is D11's). -/
def Obligations.EffectiveAddress : Prop :=
  (∀ (s : State) (rs1 : RegId) (imm : BitVec 12),
    s.effectiveAddress rs1 imm = BitVec.ofInt 32 ((s.x rs1).toInt + imm.toInt)) ∧
  ∀ s : State, s.effectiveAddress 0 0xFFF = 0xFFFFFFFF

/-- Byte routing, class by class; a port address routes as unmapped; and what the router reads does not depend on the allocation
counts (R63). The heap's end at 0xD6FF and the class beyond it are the spec's own bound (90_conflicts.md C1, C2; log entry 17). -/
def Obligations.ByteRouting : Prop :=
  (∀ a : Word,
    (a.toNat ≤ 0x03FF → route a = .imem a.toNat) ∧
    (0x0400 ≤ a.toNat → a.toNat ≤ 0x07FF → route a = .dmem (a.toNat - 0x0400)) ∧
    (0xB700 ≤ a.toNat → a.toNat ≤ 0xD6FF → route a = .heap ((a.toNat - 0xB700) / 64) ((a.toNat - 0xB700) % 64)) ∧
    (0xD700 ≤ a.toNat → route a = .beyond) ∧
    (0x0800 ≤ a.toNat → a.toNat ≤ 0xB6FF → route a = .unmapped)) ∧
  (∀ p : Port, route (portAddress p) = .unmapped) ∧
  (∀ (s : State) (counts : List Nat) (a : Word), (s.setBytesAllocated counts).byteAt a = s.byteAt a)

/-- The port decoder answers a port exactly at that port's address, the whole 32 bits compared; an access whose effective address is no
port address is not intercepted, `sw` at 0x07FE among them (R64). -/
def Obligations.PortDecode : Prop :=
  (∀ (ea : Word) (p : Port), portOf ea = some p ↔ ea =
    match p with
    | .store .writeChar => 0x0800 | .store .writeSint => 0x0804 | .store .writeUhex => 0x0808 | .store .halt => 0x080C
    | .load .readChar => 0x0812 | .load .readSint => 0x0816 | .store .dumpPc => 0x0820 | .store .dumpRegs => 0x0824
    | .store .dumpMem => 0x0828 | .heapMalloc => 0x0830 | .heapFree => 0x0834) ∧
  (∀ (c : AccessClass) (ea : Word), portOf ea = none → accessKind c ea = .plain) ∧ accessKind .store 0x07FE = .plain

/-- A plain load away from the read ports reads each byte at its own address, little-endian, and extends it by the instruction's width
and signedness into `rd`; `pc` advances by 4 and nothing else changes (R69, R72, R200, R202 to R206; routing each byte on its own is
D12's, the clear pending flag D28's). One clause for each of `lb`, `lh`, `lw`, `lbu` and `lhu`. -/
def Obligations.PlainLoads : Prop :=
  ∀ L ∈ loadForms, ∀ (s : State) (rd rs1 : RegId) (imm : BitVec 12) (bs : List Byte),
    s.effectiveAddress rs1 imm ≠ 0x0812 → s.effectiveAddress rs1 imm ≠ 0x0816 →
    bs.length = L.2.1 → (∀ k, k < L.2.1 → s.byteAt (s.effectiveAddress rs1 imm + BitVec.ofNat 32 k) = bs[k]?) →
    ∃ t, exec (L.1 rd rs1 imm) s = .next t ∧ s.WritesReg t rd (extendedValue L.2.1 L.2.2 (bytesNumber bs)) ∧
      t.pc = s.pc + 4 ∧ s.SameBytes t ∧ t.bytesAllocated = s.bytesAllocated ∧ t.runState = s.runState ∧
      t.pendingVirtualLoad = false ∧ t.output = s.output ∧ t.input = s.input

/-- A plain store away from the intercepted ports, with no byte beyond the heap, puts the low bytes of `x[rs2]`, least significant
first, at the effective address and up, wherever that is data memory or heap; bytes in instruction memory or in no memory are dropped;
every other byte, every register and everything else but `pc` is as it was (R70, R71, R201, R207 to R209; the dropped stores to
instruction memory are D13's, misaligned and straddling stores D12's). One clause for each of `sb`, `sh` and `sw`. -/
def Obligations.PlainStores : Prop :=
  ∀ S ∈ storeForms, ∀ (s : State) (rs1 rs2 : RegId) (imm : BitVec 12),
    s.effectiveAddress rs1 imm ∉ interceptedStores →
    (∀ k, k < S.2 → (s.effectiveAddress rs1 imm + BitVec.ofNat 32 k).toNat ≤ 0xD6FF) →
    ∃ t, exec (S.1 rs1 rs2 imm) s = .next t ∧ s.StoresBytes t (s.effectiveAddress rs1 imm) S.2 (s.x rs2) ∧
      s.SameRegs t ∧ t.pc = s.pc + 4 ∧ s.SameRest t

/-- A load or store with any byte beyond the heap ends the run with AddressFault and has no effect of its own (R68, R304; all of it is
D14's). -/
def Obligations.AccessBeyondHeapFaults : Prop :=
  (∀ L ∈ loadForms, ∀ (s : State) (rd rs1 : RegId) (imm : BitVec 12),
    (∃ k, k < L.2.1 ∧ 0xD700 ≤ (s.effectiveAddress rs1 imm + BitVec.ofNat 32 k).toNat) →
    EndsRun (exec (L.1 rd rs1 imm) s) s (.addressFault (s.effectiveAddress rs1 imm))) ∧
  (∀ S ∈ storeForms, ∀ (s : State) (rs1 rs2 : RegId) (imm : BitVec 12),
    (∃ k, k < S.2 ∧ 0xD700 ≤ (s.effectiveAddress rs1 imm + BitVec.ofNat 32 k).toNat) →
    EndsRun (exec (S.1 rs1 rs2 imm) s) s (.addressFault (s.effectiveAddress rs1 imm)))

/-- An unmapped byte reads 0x00; a load whose bytes are all unmapped, at no read port, loads 0, and a store whose bytes are all unmapped,
at no port that intercepts it, writes nothing, and the run goes on; the heap-free port is such an address (R66). -/
def Obligations.UnmappedAccess : Prop :=
  (∀ (s : State) (a : Word), route a = .unmapped → s.byteAt a = some 0x00) ∧
  (∀ S ∈ storeForms, ∀ (s : State) (rs1 rs2 : RegId) (imm : BitVec 12),
    s.effectiveAddress rs1 imm ∉ interceptedStores →
    (∀ k, k < S.2 → route (s.effectiveAddress rs1 imm + BitVec.ofNat 32 k) = .unmapped) →
    CompletesWith (S.1 rs1 rs2 imm) s 0 0 (s.pc + 4)) ∧
  (∀ S ∈ storeForms, ∀ (s : State) (rs1 rs2 : RegId) (imm : BitVec 12), s.effectiveAddress rs1 imm = 0x0834 →
    CompletesWith (S.1 rs1 rs2 imm) s 0 0 (s.pc + 4)) ∧
  (∀ L ∈ loadForms, ∀ (s : State) (rd rs1 : RegId) (imm : BitVec 12), s.pendingVirtualLoad = false →
    s.effectiveAddress rs1 imm ≠ 0x0812 → s.effectiveAddress rs1 imm ≠ 0x0816 →
    (∀ k, k < L.2.1 → route (s.effectiveAddress rs1 imm + BitVec.ofNat 32 k) = .unmapped) →
    CompletesWith (L.1 rd rs1 imm) s rd 0 (s.pc + 4)) ∧
  (∀ L ∈ loadForms, ∀ (s : State) (rd rs1 : RegId) (imm : BitVec 12), s.pendingVirtualLoad = false →
    s.effectiveAddress rs1 imm = 0x0834 → CompletesWith (L.1 rd rs1 imm) s rd 0 (s.pc + 4))

/-- What a store wrote, a later load of any width at any of its bytes reads back (R72, R76): after `sw` at a storable address, `lw`
there gives the whole value, and `lhu` and `lbu` inside it the bytes in little-endian order. That misaligned and straddling accesses
are performed byte by byte is D12's (log entry 16). -/
def Obligations.LoadAfterStore : Prop :=
  ∀ (s t : State) (rd rs1 rs2 : RegId) (imm imm' : BitVec 12) (j : Nat),
    (∀ k, k < 4 → Storable (s.effectiveAddress rs1 imm + BitVec.ofNat 32 k)) →
    exec (.sw rs1 rs2 imm) s = .next t →
    t.effectiveAddress rs1 imm' = s.effectiveAddress rs1 imm + BitVec.ofNat 32 j →
    (j = 0 → ∃ u, exec (.lw rd rs1 imm') t = .next u ∧ t.WritesReg u rd (s.x rs2)) ∧
    (j ≤ 2 → ∃ u, exec (.lhu rd rs1 imm') t = .next u ∧
      t.WritesReg u rd (BitVec.ofNat 32 ((s.x rs2).toNat / 2 ^ (8 * j) % 2 ^ 16))) ∧
    (j ≤ 3 → ∃ u, exec (.lbu rd rs1 imm') t = .next u ∧
      t.WritesReg u rd (BitVec.ofNat 32 ((s.x rs2).toNat / 2 ^ (8 * j) % 2 ^ 8)))

/-- A byte of memory changes in a cycle only if it is a storable byte of the store instruction of that cycle (R67, R71, R75, by their
words; the instruction-memory part is D13's, that each byte of a store is routed on its own D12's). -/
def Obligations.OnlyStoresChangeMemory : Prop :=
  ∀ (s t : State), step s = .next t → ∀ a : Word, t.byteAt a ≠ s.byteAt a →
    Storable a ∧ ∃ i, decodeWord s.fetchWord = .ok i ∧ s.StoresTo i a

/-- Instruction memory is the same from reset to HALTED: through any number of cycles, every byte of it and every word fetch reads
(R79, marked derived; D13). -/
def Obligations.InstructionMemoryConstant : Prop :=
  ∀ (s t : State), Steps s t →
    (∀ a : Word, a.toNat ≤ 0x03FF → t.byteAt a = s.byteAt a) ∧ (∀ k, k < 256 → t.iword k = s.iword k)

/-! ### Ports (44_ports_and_heap.md) -/

/-- A store to a write port emits the value masked to the store's width, and changes nothing else but `pc` (R261 to R263, by their
first sentences). -/
def Obligations.WritePorts : Prop :=
  ∀ S ∈ storeForms, ∀ (s : State) (rs1 rs2 : RegId) (imm : BitVec 12),
    let v : Word := BitVec.ofNat 32 ((s.x rs2).toNat % 2 ^ (8 * S.2))
    (s.effectiveAddress rs1 imm = 0x0800 → CompletesEmitting (S.1 rs1 rs2 imm) s (.writeChar v)) ∧
    (s.effectiveAddress rs1 imm = 0x0804 → CompletesEmitting (S.1 rs1 rs2 imm) s (.writeSint v)) ∧
    (s.effectiveAddress rs1 imm = 0x0808 → CompletesEmitting (S.1 rs1 rs2 imm) s (.writeUhex v))

/-- WRITE_UHEX: the store emits the event, and its text is the number in lowercase hex: the digits' value is the number, no digit is
leading zero, 0 prints as `0`, and `sh` of 0xFFFFFFFF prints `ffff` (R264). That digits are ASCII bytes is the model's (log
entry 30). -/
def Obligations.WriteUnsignedHex : Prop :=
  (∀ S ∈ storeForms, ∀ (s : State) (rs1 rs2 : RegId) (imm : BitVec 12), s.effectiveAddress rs1 imm = 0x0808 →
    CompletesEmitting (S.1 rs1 rs2 imm) s (.writeUhex (BitVec.ofNat 32 ((s.x rs2).toNat % 2 ^ (8 * S.2))))) ∧
  (∀ v : Word, (Event.writeUhex v).pieces = [hexLower v] ∧
    (∀ c ∈ hexLower v, (0x30 ≤ c.toNat ∧ c.toNat ≤ 0x39) ∨ (0x61 ≤ c.toNat ∧ c.toNat ≤ 0x66)) ∧
    (hexLower v).foldl (fun n c => 16 * n + (if c.toNat ≤ 0x39 then c.toNat - 0x30 else c.toNat - 0x57)) 0 = v.toNat ∧
    (v ≠ 0 → (hexLower v).head? ≠ some 0x30)) ∧
  hexLower 0 = ascii "0" ∧ hexLower (BitVec.ofNat 32 (0xFFFFFFFF % 2 ^ 16)) = ascii "ffff"

/-- A store to the halt port ends the run with exit status 0, no event, and everything else as it was (R265; that `pc` stays and the
value is ignored is D32's). -/
def Obligations.HaltPort : Prop :=
  ∀ S ∈ storeForms, ∀ (s : State) (rs1 rs2 : RegId) (imm : BitVec 12), s.effectiveAddress rs1 imm = 0x080C →
    EndsRun (exec (S.1 rs1 rs2 imm) s) s .halt ∧ Cause.halt.exitStatus = 0

/-- The dump ports emit the dumping store's own address (D22), the address with the thirty-two registers, and the byte at the address
the masked value names (D21; the masking is D19's), which ends the run with AddressFault beyond the heap (R266, R267, R268, D14). -/
def Obligations.DumpPorts : Prop :=
  ∀ S ∈ storeForms, ∀ (s : State) (rs1 rs2 : RegId) (imm : BitVec 12),
    let v : Word := BitVec.ofNat 32 ((s.x rs2).toNat % 2 ^ (8 * S.2))
    (s.effectiveAddress rs1 imm = 0x0820 → CompletesEmitting (S.1 rs1 rs2 imm) s (.dumpPc s.pc)) ∧
    (s.effectiveAddress rs1 imm = 0x0824 →
      CompletesEmitting (S.1 rs1 rs2 imm) s (.dumpRegs s.pc ((List.range 32).map (fun k => s.x (BitVec.ofNat 5 k))))) ∧
    (s.effectiveAddress rs1 imm = 0x0828 →
      (∀ b, s.byteAt v = some b → CompletesEmitting (S.1 rs1 rs2 imm) s (.dumpMem b)) ∧
      (0xD700 ≤ v.toNat → EndsRun (exec (S.1 rs1 rs2 imm) s) s (.addressFault v)))

/-- A load from a read port takes the next input value of the port's kind, extended by the load's width and signedness, and changes
nothing else but `pc` (R200, R269, R270; the encoding of input values is D23's, the clear pending flag D28's). -/
def Obligations.ReadPorts : Prop :=
  ∀ L ∈ loadForms, ∀ (s : State) (rd rs1 : RegId) (imm : BitVec 12) (rest : List InputValue),
    (∀ c : Byte, s.effectiveAddress rs1 imm = 0x0812 → s.input = .char c :: rest →
      ∃ t, exec (L.1 rd rs1 imm) s = .next t ∧ s.WritesReg t rd (extendedValue L.2.1 L.2.2 c.toNat) ∧ t.input = rest ∧
        t.pc = s.pc + 4 ∧ s.SameBytes t ∧ t.bytesAllocated = s.bytesAllocated ∧ t.runState = s.runState ∧
        t.pendingVirtualLoad = false ∧ t.output = s.output) ∧
    (∀ i : Word, s.effectiveAddress rs1 imm = 0x0816 → s.input = .sint i :: rest →
      ∃ t, exec (L.1 rd rs1 imm) s = .next t ∧ s.WritesReg t rd (extendedValue L.2.1 L.2.2 (i.toNat % 2 ^ (8 * L.2.1))) ∧
        t.input = rest ∧ t.pc = s.pc + 4 ∧ s.SameBytes t ∧ t.bytesAllocated = s.bytesAllocated ∧
        t.runState = s.runState ∧ t.pendingVirtualLoad = false ∧ t.output = s.output)

/-- A load from a read port has no successor while the host has supplied no value of the port's kind (R309; D23). That a value of the
other kind at the head of the queue holds the read is the model's choice (log entry 3). -/
def Obligations.ReadPortsBlock : Prop :=
  ∀ L ∈ loadForms, ∀ (s : State) (rd rs1 : RegId) (imm : BitVec 12),
    (s.effectiveAddress rs1 imm = 0x0812 → (∀ c rest, s.input ≠ .char c :: rest) →
      exec (L.1 rd rs1 imm) s = .fault (.consoleInputBlocked .readChar)) ∧
    (s.effectiveAddress rs1 imm = 0x0816 → (∀ i rest, s.input ≠ .sint i :: rest) →
      exec (L.1 rd rs1 imm) s = .fault (.consoleInputBlocked .readSint))

/-- A cycle blocked with no input left goes on as soon as the host supplies one value of the port's kind, consumes exactly that value
and ends RUNNING (R337, marked derived; R260, where the blocking is D23's, log entry 23). -/
def Obligations.BlockedReadIsAnswered : Prop :=
  ∀ (s : State) (p : LoadPort) (v : InputValue), step s = .fault (.consoleInputBlocked p) → s.input = [] →
    (p = .readChar → ∃ c, v = .char c) → (p = .readSint → ∃ i, v = .sint i) →
    ∃ t, step (s.supply v) = .next t ∧ t.input = [] ∧ t.output = s.output ∧ t.runState = .running ∧ t.pc = s.pc + 4 ∧
      s.SameBytes t ∧ t.bytesAllocated = s.bytesAllocated

/-! ### The heap allocator (44_ports_and_heap.md) -/

/-- The allocator's properties: first fit over runs of free banks; the pointer is `0xB700 + 64*s`, and 0 means failure; a success
changes exactly the counts of its run, from 0 to non-zero; `malloc(100)` on an empty heap; and a failure is a zero in the result
register, with which execution continues (R275, R272). The number of banks, `n / 64 + 1` for every size, is 90_conflicts.md C3's
reading, and the unsigned 32-bit size is D27's (log entry 25). -/
def Obligations.AllocatorProperties : Prop :=
  (∀ (counts : List Nat) (size : Word), counts.length = 128 →
    let nb := size.toNat / 64 + 1
    (∀ start counts', malloc counts size.toNat = some (start, counts') →
      start + nb ≤ 128 ∧ (∀ k, k < nb → counts[start + k]? = some 0) ∧
      (∀ start', start' < start → ∃ k, k < nb ∧ counts[start' + k]? ≠ some 0) ∧
      (allocatorResponse counts size).ptr.toNat = 0xB700 + 64 * start ∧
      (∀ k : Nat, k < 128 → ((counts'[k]? ≠ counts[k]? ↔ start ≤ k ∧ k < start + nb) ∧
        (start ≤ k → k < start + nb → ∃ n, counts'[k]? = some n ∧ 0 < n)))) ∧
    (malloc counts size.toNat = none → ∀ start, start + nb ≤ 128 → ∃ k, k < nb ∧ counts[start + k]? ≠ some 0) ∧
    ((allocatorResponse counts size).ptr = 0 ↔ malloc counts size.toNat = none)) ∧
  malloc (List.replicate 128 0) 100 = some (0, 64 :: 36 :: List.replicate 126 0) ∧
  (∀ (s : State) (rs1 rs2 : RegId) (imm : BitVec 12), s.effectiveAddress rs1 imm = 0x0830 →
    malloc s.bytesAllocated (s.x rs2).toNat = none →
    CompletesWith (.sw rs1 rs2 imm) s Config.mallocResultReg 0 (s.pc + 4))

/-- A store to the malloc port: on no viable run the result register gets 0 and nothing else changes; else it gets the pointer to the
first viable run, whose banks are counted 64 each, but for `n mod 64` in the last when that is not 0; memory keeps its contents (R271,
R272). The result register `x28` is D26's, the masked and unsigned size D19's and D27's. -/
def Obligations.MallocPort : Prop :=
  ∀ S ∈ storeForms, ∀ (s : State) (rs1 rs2 : RegId) (imm : BitVec 12),
    s.bytesAllocated.length = 128 → s.effectiveAddress rs1 imm = 0x0830 →
    let n := (s.x rs2).toNat % 2 ^ (8 * S.2)
    let nb := n / 64 + 1
    ((∀ start, start + nb ≤ 128 → ∃ k, k < nb ∧ s.bytesAllocated[start + k]? ≠ some 0) →
      CompletesWith (S.1 rs1 rs2 imm) s 28 0 (s.pc + 4)) ∧
    (∀ start, start + nb ≤ 128 → (∀ k, k < nb → s.bytesAllocated[start + k]? = some 0) →
      (∀ start', start' < start → ∃ k, k < nb ∧ s.bytesAllocated[start' + k]? ≠ some 0) →
      ∃ t, exec (S.1 rs1 rs2 imm) s = .next t ∧ s.WritesReg t 28 (BitVec.ofNat 32 (0xB700 + 64 * start)) ∧
        t.pc = s.pc + 4 ∧ s.SameBytes t ∧ t.runState = s.runState ∧ t.pendingVirtualLoad = s.pendingVirtualLoad ∧
        t.output = s.output ∧ t.input = s.input ∧ t.bytesAllocated.length = 128 ∧
        ∀ k, k < 128 → t.bytesAllocated[k]? =
          if start ≤ k ∧ k < start + nb then
            some (if k + 1 = start + nb ∧ n % 64 ≠ 0 then n % 64 else 64)
          else s.bytesAllocated[k]?)

/-- A bank once allocated stays allocated with its count through any number of cycles: nothing frees (R273, its last sentence, marked
derived). -/
def Obligations.BanksStayAllocated : Prop :=
  ∀ (s t : State), Steps s t → ∀ (k c : Nat), s.bytesAllocated[k]? = some c → c ≠ 0 → t.bytesAllocated[k]? = some c

/-- How many bytes of an allocated bank are counted cannot change any run: from two states that agree on everything but the positive
counts, a cycle ends alike, and in states that agree again (90_conflicts.md C4). -/
def Obligations.PositiveCountsUnobservable : Prop :=
  ∀ (s t : State), s.SameButCounts t →
    (∀ s', step s = .next s' → ∃ t', step t = .next t' ∧ s'.SameButCounts t') ∧
    (∀ f, step s = .fault f → step t = .fault f)

/-! ### The cycle and the end of a run (60_exceptions.md, 70_reset_and_hazards.md) -/

/-- A cycle at a valid `pc` runs the instruction that its four bytes decode to (R335; the byte order of fetch is D10's, log entry 19);
all a cycle adds is a clear pending flag at its start (R34, which is D28's, log entry 28). -/
def Obligations.StepRunsDecoded : Prop :=
  (∀ (s : State) (i : Instr) (b0 b1 b2 b3 : Byte), s.runState = .running → s.pc.toNat ≤ 0x3FF → s.pc.toNat % 4 = 0 →
    s.byteAt s.pc = some b0 → s.byteAt (s.pc + 1) = some b1 → s.byteAt (s.pc + 2) = some b2 → s.byteAt (s.pc + 3) = some b3 →
    decodeBytes [b0, b1, b2, b3] = .ok (i, []) → step s = exec i s.beginCycle) ∧
  (∀ s : State, s.beginCycle = { s with pendingVirtualLoad := false })

/-- A cycle whose `pc` is above 0x3FF ends the run normally, before any fetch: exit status 0, no dump (R336; the whole 32 bits are
compared by D8, and exit status 0 is 90_conflicts.md C11's). -/
def Obligations.PcExit : Prop :=
  ∀ s : State, s.runState = .running → 0x3FF < s.pc.toNat → EndsRun (step s) s .pcExit ∧ Cause.pcExit.exitStatus = 0

/-- A cycle at an in-range `pc` that is no multiple of 4 ends the run with exit status 1 and the register dump (R336; D9). -/
def Obligations.MisalignedFetch : Prop :=
  ∀ s : State, s.runState = .running → s.pc.toNat ≤ 0x3FF → s.pc.toNat % 4 ≠ 0 →
    EndsRun (step s) s (.misalignedFetch s.pc) ∧ (Cause.misalignedFetch s.pc).exitStatus = 1

/-- A fetched word that decodes to no instruction ends the run: no effect of the word, the register dump of the cycle's start, and
HALTED with the word in the cause and exit status 1 (R303). -/
def Obligations.FatalDecodeError : Prop :=
  ∀ (s : State) (r : Reject), s.runState = .running → s.pc.toNat ≤ 0x3FF → s.pc.toNat % 4 = 0 →
    decodeWord s.fetchWord = .error r →
    EndsRun (step s) s (.invalidInstruction s.fetchWord) ∧ (Cause.invalidInstruction s.fetchWord).exitStatus = 1

/-- No transition leaves HALTED (10_state.md R36, its third sentence from the end of the states' list; R305). -/
def Obligations.HaltedIsTerminal : Prop :=
  ∀ (s : State) (c : Cause), s.runState = .halted c → step s = .fault .halted ∧ ∀ t, Steps s t → t = s

/-- A cycle that ends the run applies no effect of its own but the dump event of a status-1 cause, whichever instruction it ran (R305,
R337, both marked derived). The causes `MisalignedFetch` and `AddressFault` with their dumps are D9's and D14's (log entries 14 and 17),
and the unmoved `pc` of `Halt` is D32's (log entry 26). -/
def Obligations.EndingCycleChangesNothing : Prop :=
  ∀ (s t : State) (c : Cause), step s = .next t → t.runState = .halted c → EndsRun (step s) s c

/-- The effects a completing cycle can have: at most one console event at the end of the trace, at most one input value consumed from
the front, at most one register write, and at most one allocator request, which only a store to the malloc port makes (R337, marked
derived; R35). That the request's size is the value masked to the store's width is D19's (R261, R271; log entry 21). -/
def Obligations.EffectsOfACycle : Prop :=
  ∀ (s t : State), step s = .next t →
    (∃ es, es.length ≤ 1 ∧ t.output = s.output ++ es) ∧
    (∃ vs, vs.length ≤ 1 ∧ s.input = vs ++ t.input) ∧
    (∃ rd v, s.WritesReg t rd v) ∧
    (t.bytesAllocated ≠ s.bytesAllocated →
      ∃ (rs1 rs2 : RegId) (imm : BitVec 12) (S : (RegId → RegId → BitVec 12 → Instr) × Nat), S ∈ storeForms ∧
        decodeWord s.fetchWord = .ok (S.1 rs1 rs2 imm) ∧ s.effectiveAddress rs1 imm = 0x0830 ∧
        t.bytesAllocated = allocatorNext s.bytesAllocated (BitVec.ofNat 32 ((s.x rs2).toNat % 2 ^ (8 * S.2))))

/-- Every cycle from a state that meets the invariant ends in a state that meets it: canonical memory that lists storage only, 128
counts in 0 to 64, no virtual load pending, and in HALTED the `pc`, word, address and dump its cause says. The pending flag's lifetime
is D28's (log entry 28), `MisalignedFetch` with its dump D9's (log entry 14), `AddressFault` with its dump D14's (log entry 17), the
full `pc` of `PcExit` D8's (log entry 13), and the unmoved `pc` of `Halt` D32's (log entry 26). -/
def Obligations.InvariantKept : Prop := ∀ (s t : State), s.Inv → step s = .next t → t.Inv

/-- The invariant holds at reset (R331). The zero counts are D15's (log entry 8), the clear pending flag is D28's (log entry 28), and the
empty memory is the model's choice (log entry 2). -/
def Obligations.InvariantAtReset : Prop := State.reset.Inv

/-! ### Reset and launch (70_reset_and_hazards.md) -/

/-- Right after reset `pc` is 0 and the machine is RUNNING with no exit status; every register, every heap byte and every count is
0, the pending flag is clear and the trace empty (R331). The zero registers are D5's, the zero heap and counts D15's, the clear
flag D28's; with no image and no input supplied, all other memory reads 0 and the input is empty (log entries 2 and 3). -/
def Obligations.ResetState : Prop :=
  State.reset.pc = 0 ∧ State.reset.runState = .running ∧ State.reset.runState.exitStatus = none ∧
  (∀ q, State.reset.x q = 0) ∧ State.reset.bytesAllocated = List.replicate 128 0 ∧
  State.reset.pendingVirtualLoad = false ∧ State.reset.output = [] ∧ State.reset.input = [] ∧ State.reset.mem = [] ∧
  (∀ a : Word, a.toNat ≤ 0xD6FF → State.reset.byteAt a = some 0)

/-- A launch takes exactly 2048 image bytes, which become instruction memory and data memory in order, and the input sequence; all the
rest is as after reset (D5, D15, D28), and the invariant holds. Any other length is no launch (R331, R332; refusing it is
93_implementation_defined.md item 18's). -/
def Obligations.LaunchState : Prop :=
  ∀ (image : List Byte) (input : List InputValue),
    (image.length ≠ 2048 → State.launch image input = none) ∧
    (image.length = 2048 → ∃ s, State.launch image input = some s ∧ s.Inv ∧
      (∀ a : Word, a.toNat < 2048 → s.byteAt a = image[a.toNat]?) ∧
      (∀ a : Word, 2048 ≤ a.toNat → a.toNat ≤ 0xD6FF → s.byteAt a = some 0) ∧
      s.input = input ∧ s.pc = 0 ∧ s.runState = .running ∧ (∀ q, s.x q = 0) ∧
      s.bytesAllocated = List.replicate 128 0 ∧ s.pendingVirtualLoad = false ∧ s.output = [])

end
end

