-- ==== Sys2Proof/Laws/Memory.lean ====
section
/-! SUPPORT. The laws of the memory list: read after write, and the canonical form that every operation keeps. -/

namespace Sys2Proof.Machine

/-! ### Read after write -/

theorem Memory.read_clear (m : Memory) (a b : Nat) :
    Memory.read (Memory.clear m a) b = if b = a then Memory.unlisted else Memory.read m b := by
  induction m with
  | nil => simp [Memory.clear, Memory.read]
  | cons c m ih =>
    obtain ⟨k, v⟩ := c
    by_cases hk : a = k
    · subst hk
      by_cases hb : b = a <;> simp_all [Memory.clear, Memory.read]
    · by_cases hb : b = a
      · subst hb; simp_all [Memory.clear, Memory.read]
      · by_cases hbk : b = k <;> simp_all [Memory.clear, Memory.read]

theorem Memory.mem_clear {m : Memory} {a : Nat} {c : Host.Cell} :
    c ∈ Memory.clear m a ↔ c ∈ m ∧ c.1 ≠ a := by
  induction m with
  | nil => simp [Memory.clear]
  | cons d m ih =>
    obtain ⟨k, v⟩ := d
    by_cases hk : a = k
    · subst hk
      simp only [Memory.clear, if_true, ih, List.mem_cons]
      constructor
      · rintro ⟨h, n⟩; exact ⟨.inr h, n⟩
      · rintro ⟨rfl | h, n⟩
        · exact absurd rfl n
        · exact ⟨h, n⟩
    · simp only [Memory.clear, hk, if_false, List.mem_cons, ih]
      constructor
      · rintro (rfl | ⟨h, n⟩)
        · exact ⟨.inl rfl, fun e => hk e.symm⟩
        · exact ⟨.inr h, n⟩
      · rintro ⟨rfl | h, n⟩
        · exact .inl rfl
        · exact .inr ⟨h, n⟩

theorem Memory.read_put (m : Memory) (a : Nat) (v : Byte) (b : Nat) (ha : ∀ c ∈ m, c.1 ≠ a) :
    Memory.read (Memory.put m a v) b = if b = a then v else Memory.read m b := by
  induction m with
  | nil => simp [Memory.put, Memory.read]
  | cons c m ih =>
    obtain ⟨k, w⟩ := c
    have hk : k ≠ a := ha (k, w) (by simp)
    have ih := ih (fun c hc => ha c (by simp [hc]))
    unfold Memory.put
    split
    · rfl
    · simp only [Memory.read, ih]
      by_cases hb : b = k
      · subst hb; simp [hk]
      · simp [hb]

/-- A byte read after a write: the byte written at its address, and every other byte as before. -/
theorem Memory.read_write (m : Memory) (a : Nat) (v : Byte) (b : Nat) :
    Memory.read (Memory.write m a v) b = if b = a then v else Memory.read m b := by
  unfold Memory.write
  split
  · next h => subst h; exact Memory.read_clear m a b
  · rw [Memory.read_put _ _ _ _ (fun c hc => (Memory.mem_clear.mp hc).2), Memory.read_clear]
    split <;> rfl

/-! ### The canonical form -/

theorem Memory.mem_put {m : Memory} {a : Nat} {v : Byte} {c : Host.Cell} :
    c ∈ Memory.put m a v ↔ c = (a, v) ∨ c ∈ m := by
  induction m with
  | nil => simp [Memory.put]
  | cons d m ih =>
    obtain ⟨k, w⟩ := d
    unfold Memory.put
    split
    · simp
    · simp only [List.mem_cons, ih]
      constructor
      · rintro (h | h | h)
        · exact .inr (.inl h)
        · exact .inl h
        · exact .inr (.inr h)
      · rintro (h | h | h)
        · exact .inr (.inl h)
        · exact .inl h
        · exact .inr (.inr h)

theorem Memory.clear_wf {m : Memory} (h : Memory.wf m) (a : Nat) : Memory.wf (Memory.clear m a) := by
  refine ⟨?_, fun c hc => h.2 c (Memory.mem_clear.mp hc).1⟩
  have hp := h.1
  clear h
  induction m with
  | nil => simp [Memory.clear]
  | cons d m ih =>
    obtain ⟨k, w⟩ := d
    rw [List.pairwise_cons] at hp
    unfold Memory.clear
    split
    · exact ih hp.2
    · rw [List.pairwise_cons]
      exact ⟨fun c hc => hp.1 c (Memory.mem_clear.mp hc).1, ih hp.2⟩

theorem Memory.put_wf {m : Memory} (h : Memory.wf m) {a : Nat} {v : Byte} (ha : ∀ c ∈ m, c.1 ≠ a)
    (hv : v ≠ Memory.unlisted) : Memory.wf (Memory.put m a v) := by
  refine ⟨?_, fun c hc => ?_⟩
  · have hp := h.1
    clear h hv
    induction m with
    | nil => simp [Memory.put]
    | cons d m ih =>
      obtain ⟨k, w⟩ := d
      have hk : k ≠ a := ha (k, w) (by simp)
      have hp' := List.pairwise_cons.mp hp
      unfold Memory.put
      split
      · next hlt =>
        refine List.pairwise_cons.mpr ⟨fun c hc => ?_, hp⟩
        rcases List.mem_cons.mp hc with rfl | hc
        · exact hlt
        · exact Nat.lt_trans hlt (hp'.1 c hc)
      · next hge =>
        refine List.pairwise_cons.mpr ⟨fun c hc => ?_, ih (fun c hc => ha c (by simp [hc])) hp'.2⟩
        rcases Memory.mem_put.mp hc with rfl | hc
        · show k < a
          omega
        · exact hp'.1 c hc
  · rcases Memory.mem_put.mp hc with rfl | hc
    · exact hv
    · exact h.2 c hc

/-- A write keeps the canonical form. -/
theorem Memory.write_wf {m : Memory} (h : Memory.wf m) (a : Nat) (v : Byte) : Memory.wf (Memory.write m a v) := by
  unfold Memory.write
  split
  · exact Memory.clear_wf h a
  · next hv => exact Memory.put_wf (Memory.clear_wf h a) (fun c hc => (Memory.mem_clear.mp hc).2) hv

/-- A write lists no address but its own that was not listed before. -/
theorem Memory.mem_write {m : Memory} {a : Nat} {v : Byte} {c : Host.Cell} (h : c ∈ Memory.write m a v) :
    c.1 = a ∨ c ∈ m := by
  unfold Memory.write at h
  split at h
  · exact .inr (Memory.mem_clear.mp h).1
  · rcases Memory.mem_put.mp h with rfl | h
    · exact .inl rfl
    · exact .inr (Memory.mem_clear.mp h).1

theorem Memory.writeAll_wf {m : Memory} (h : Memory.wf m) (cs : List Host.Cell) : Memory.wf (Memory.writeAll m cs) := by
  induction cs generalizing m with
  | nil => exact h
  | cons c cs ih => exact ih (Memory.write_wf h c.1 c.2)

theorem Memory.mem_writeAll {m : Memory} {cs : List Host.Cell} {c : Host.Cell} (h : c ∈ Memory.writeAll m cs) :
    (∃ d ∈ cs, c.1 = d.1) ∨ c ∈ m := by
  induction cs generalizing m with
  | nil => exact .inr h
  | cons d cs ih =>
    obtain ⟨a, v⟩ := d
    rcases ih h with ⟨d, hd, e⟩ | h
    · exact .inl ⟨d, by simp [hd], e⟩
    · rcases Memory.mem_write h with e | h
      · exact .inl ⟨(a, v), by simp, e⟩
      · exact .inr h

/-- An address that no strobe names keeps its byte. -/
theorem Memory.read_writeAll_of_not_mem (m : Memory) (cs : List Host.Cell) (b : Nat) (h : ∀ c ∈ cs, c.1 ≠ b) :
    Memory.read (Memory.writeAll m cs) b = Memory.read m b := by
  induction cs generalizing m with
  | nil => rfl
  | cons c cs ih =>
    obtain ⟨a, v⟩ := c
    rw [Memory.writeAll, ih _ (fun c hc => h c (by simp [hc])), Memory.read_write]
    simp [Ne.symm (h (a, v) (by simp))]

/-! ### An image laid out -/

theorem Memory.mem_ofBytes {a : Nat} {bs : List Byte} {c : Host.Cell} (h : c ∈ Memory.ofBytes a bs) :
    a ≤ c.1 ∧ c.1 < a + bs.length ∧ c.2 ≠ Memory.unlisted := by
  induction bs generalizing a with
  | nil => simp [Memory.ofBytes] at h
  | cons b bs ih =>
    unfold Memory.ofBytes at h
    simp only [List.length_cons]
    split at h
    · obtain ⟨h1, h2, h3⟩ := ih h
      exact ⟨by omega, by omega, h3⟩
    · next hb =>
      rcases List.mem_cons.mp h with rfl | h
      · exact ⟨Nat.le_refl a, by show a < a + (bs.length + 1); omega, hb⟩
      · have := ih h
        exact ⟨by omega, by omega, this.2.2⟩

theorem Memory.ofBytes_wf (a : Nat) (bs : List Byte) : Memory.wf (Memory.ofBytes a bs) := by
  refine ⟨?_, fun c hc => (Memory.mem_ofBytes hc).2.2⟩
  induction bs generalizing a with
  | nil => simp [Memory.ofBytes]
  | cons b bs ih =>
    unfold Memory.ofBytes
    split
    · exact ih (a + 1)
    · refine List.pairwise_cons.mpr ⟨fun c hc => ?_, ih (a + 1)⟩
      have := (Memory.mem_ofBytes hc).1
      show a < c.1
      omega

theorem Memory.read_ofBytes (a : Nat) (bs : List Byte) (k : Nat) :
    Memory.read (Memory.ofBytes a bs) (a + k) = bs.getD k Memory.unlisted := by
  induction bs generalizing a k with
  | nil => simp [Memory.ofBytes, Memory.read]
  | cons b bs ih =>
    have hlow : ∀ (m : Nat), m < a + 1 → Memory.read (Memory.ofBytes (a + 1) bs) m = Memory.unlisted := by
      intro m hm
      have aux : ∀ (l : Memory), (∀ c ∈ l, m < c.1) → Memory.read l m = Memory.unlisted := by
        intro l hl
        induction l with
        | nil => rfl
        | cons c l ihl =>
          obtain ⟨k, v⟩ := c
          have : m < k := hl (k, v) (by simp)
          rw [Memory.read, if_neg (by omega)]
          exact ihl (fun c hc => hl c (by simp [hc]))
      exact aux _ (fun c hc => by have := (Memory.mem_ofBytes hc).1; omega)
    unfold Memory.ofBytes
    cases k with
    | zero =>
      split
      · next h => exact (hlow a (by omega)).trans h.symm
      · simp [Memory.read]
    | succ k =>
      split
      · rw [show a + (k + 1) = a + 1 + k by omega, ih]; rfl
      · rw [Memory.read, if_neg (by omega), show a + (k + 1) = a + 1 + k by omega, ih]; rfl

end Sys2Proof.Machine
end

