-- ==== Sys2Proof/Laws/State.lean ====
section
/-! SUPPORT. One lemma per field of State per named update, and what the reads make of each update; all true by computation. -/

namespace Sys2Proof.Machine

@[simp] theorem State.setPc_gpr (s : State) (t : Word) : (s.setPc t).gpr = s.gpr := rfl
@[simp] theorem State.setPc_pc (s : State) (t : Word) : (s.setPc t).pc = t := rfl
@[simp] theorem State.setPc_mem (s : State) (t : Word) : (s.setPc t).mem = s.mem := rfl
@[simp] theorem State.setPc_bytesAllocated (s : State) (t : Word) : (s.setPc t).bytesAllocated = s.bytesAllocated := rfl
@[simp] theorem State.setPc_runState (s : State) (t : Word) : (s.setPc t).runState = s.runState := rfl
@[simp] theorem State.setPc_pendingVirtualLoad (s : State) (t : Word) : (s.setPc t).pendingVirtualLoad = s.pendingVirtualLoad := rfl
@[simp] theorem State.setPc_output (s : State) (t : Word) : (s.setPc t).output = s.output := rfl
@[simp] theorem State.setPc_input (s : State) (t : Word) : (s.setPc t).input = s.input := rfl
@[simp] theorem State.setPc_x (s : State) (t : Word) (r : RegId) : (s.setPc t).x r = s.x r := rfl
@[simp] theorem State.setPc_dump (s : State) (t : Word) : (s.setPc t).dump = s.dump := rfl
@[simp] theorem State.setPc_byteAt (s : State) (t : Word) (a : Word) : (s.setPc t).byteAt a = s.byteAt a := rfl
@[simp] theorem State.setPc_imem (s : State) (t : Word) (k : Nat) : (s.setPc t).imem k = s.imem k := rfl
@[simp] theorem State.setPc_iword (s : State) (t : Word) (k : Nat) : (s.setPc t).iword k = s.iword k := rfl
@[simp] theorem State.setPc_dmem (s : State) (t : Word) (k : Nat) : (s.setPc t).dmem k = s.dmem k := rfl
@[simp] theorem State.setPc_heap (s : State) (t : Word) (b o : Nat) : (s.setPc t).heap b o = s.heap b o := rfl

@[simp] theorem State.setMem_gpr (s : State) (m : Memory) : (s.setMem m).gpr = s.gpr := rfl
@[simp] theorem State.setMem_pc (s : State) (m : Memory) : (s.setMem m).pc = s.pc := rfl
@[simp] theorem State.setMem_mem (s : State) (m : Memory) : (s.setMem m).mem = m := rfl
@[simp] theorem State.setMem_bytesAllocated (s : State) (m : Memory) : (s.setMem m).bytesAllocated = s.bytesAllocated := rfl
@[simp] theorem State.setMem_runState (s : State) (m : Memory) : (s.setMem m).runState = s.runState := rfl
@[simp] theorem State.setMem_pendingVirtualLoad (s : State) (m : Memory) : (s.setMem m).pendingVirtualLoad = s.pendingVirtualLoad := rfl
@[simp] theorem State.setMem_output (s : State) (m : Memory) : (s.setMem m).output = s.output := rfl
@[simp] theorem State.setMem_input (s : State) (m : Memory) : (s.setMem m).input = s.input := rfl
@[simp] theorem State.setMem_x (s : State) (m : Memory) (r : RegId) : (s.setMem m).x r = s.x r := rfl
@[simp] theorem State.setMem_dump (s : State) (m : Memory) : (s.setMem m).dump = s.dump := rfl

@[simp] theorem State.setBytesAllocated_gpr (s : State) (cs : List Nat) : (s.setBytesAllocated cs).gpr = s.gpr := rfl
@[simp] theorem State.setBytesAllocated_pc (s : State) (cs : List Nat) : (s.setBytesAllocated cs).pc = s.pc := rfl
@[simp] theorem State.setBytesAllocated_mem (s : State) (cs : List Nat) : (s.setBytesAllocated cs).mem = s.mem := rfl
@[simp] theorem State.setBytesAllocated_bytesAllocated (s : State) (cs : List Nat) : (s.setBytesAllocated cs).bytesAllocated = cs := rfl
@[simp] theorem State.setBytesAllocated_runState (s : State) (cs : List Nat) : (s.setBytesAllocated cs).runState = s.runState := rfl
@[simp] theorem State.setBytesAllocated_pendingVirtualLoad (s : State) (cs : List Nat) : (s.setBytesAllocated cs).pendingVirtualLoad = s.pendingVirtualLoad := rfl
@[simp] theorem State.setBytesAllocated_output (s : State) (cs : List Nat) : (s.setBytesAllocated cs).output = s.output := rfl
@[simp] theorem State.setBytesAllocated_input (s : State) (cs : List Nat) : (s.setBytesAllocated cs).input = s.input := rfl
@[simp] theorem State.setBytesAllocated_x (s : State) (cs : List Nat) (r : RegId) : (s.setBytesAllocated cs).x r = s.x r := rfl
@[simp] theorem State.setBytesAllocated_dump (s : State) (cs : List Nat) : (s.setBytesAllocated cs).dump = s.dump := rfl
@[simp] theorem State.setBytesAllocated_byteAt (s : State) (cs : List Nat) (a : Word) : (s.setBytesAllocated cs).byteAt a = s.byteAt a := rfl
@[simp] theorem State.setBytesAllocated_imem (s : State) (cs : List Nat) (k : Nat) : (s.setBytesAllocated cs).imem k = s.imem k := rfl
@[simp] theorem State.setBytesAllocated_iword (s : State) (cs : List Nat) (k : Nat) : (s.setBytesAllocated cs).iword k = s.iword k := rfl
@[simp] theorem State.setBytesAllocated_dmem (s : State) (cs : List Nat) (k : Nat) : (s.setBytesAllocated cs).dmem k = s.dmem k := rfl
@[simp] theorem State.setBytesAllocated_heap (s : State) (cs : List Nat) (b o : Nat) : (s.setBytesAllocated cs).heap b o = s.heap b o := rfl

@[simp] theorem State.setRunState_gpr (s : State) (r : RunState) : (s.setRunState r).gpr = s.gpr := rfl
@[simp] theorem State.setRunState_pc (s : State) (r : RunState) : (s.setRunState r).pc = s.pc := rfl
@[simp] theorem State.setRunState_mem (s : State) (r : RunState) : (s.setRunState r).mem = s.mem := rfl
@[simp] theorem State.setRunState_bytesAllocated (s : State) (r : RunState) : (s.setRunState r).bytesAllocated = s.bytesAllocated := rfl
@[simp] theorem State.setRunState_runState (s : State) (r : RunState) : (s.setRunState r).runState = r := rfl
@[simp] theorem State.setRunState_pendingVirtualLoad (s : State) (r : RunState) : (s.setRunState r).pendingVirtualLoad = s.pendingVirtualLoad := rfl
@[simp] theorem State.setRunState_output (s : State) (r : RunState) : (s.setRunState r).output = s.output := rfl
@[simp] theorem State.setRunState_input (s : State) (r : RunState) : (s.setRunState r).input = s.input := rfl
@[simp] theorem State.setRunState_x (s : State) (r : RunState) (q : RegId) : (s.setRunState r).x q = s.x q := rfl
@[simp] theorem State.setRunState_dump (s : State) (r : RunState) : (s.setRunState r).dump = s.dump := rfl
@[simp] theorem State.setRunState_byteAt (s : State) (r : RunState) (a : Word) : (s.setRunState r).byteAt a = s.byteAt a := rfl
@[simp] theorem State.setRunState_imem (s : State) (r : RunState) (k : Nat) : (s.setRunState r).imem k = s.imem k := rfl
@[simp] theorem State.setRunState_iword (s : State) (r : RunState) (k : Nat) : (s.setRunState r).iword k = s.iword k := rfl
@[simp] theorem State.setRunState_dmem (s : State) (r : RunState) (k : Nat) : (s.setRunState r).dmem k = s.dmem k := rfl
@[simp] theorem State.setRunState_heap (s : State) (r : RunState) (b o : Nat) : (s.setRunState r).heap b o = s.heap b o := rfl

@[simp] theorem State.setPending_gpr (s : State) (p : Bool) : (s.setPending p).gpr = s.gpr := rfl
@[simp] theorem State.setPending_pc (s : State) (p : Bool) : (s.setPending p).pc = s.pc := rfl
@[simp] theorem State.setPending_mem (s : State) (p : Bool) : (s.setPending p).mem = s.mem := rfl
@[simp] theorem State.setPending_bytesAllocated (s : State) (p : Bool) : (s.setPending p).bytesAllocated = s.bytesAllocated := rfl
@[simp] theorem State.setPending_runState (s : State) (p : Bool) : (s.setPending p).runState = s.runState := rfl
@[simp] theorem State.setPending_pendingVirtualLoad (s : State) (p : Bool) : (s.setPending p).pendingVirtualLoad = p := rfl
@[simp] theorem State.setPending_output (s : State) (p : Bool) : (s.setPending p).output = s.output := rfl
@[simp] theorem State.setPending_input (s : State) (p : Bool) : (s.setPending p).input = s.input := rfl
@[simp] theorem State.setPending_x (s : State) (p : Bool) (r : RegId) : (s.setPending p).x r = s.x r := rfl
@[simp] theorem State.setPending_dump (s : State) (p : Bool) : (s.setPending p).dump = s.dump := rfl
@[simp] theorem State.setPending_byteAt (s : State) (p : Bool) (a : Word) : (s.setPending p).byteAt a = s.byteAt a := rfl
@[simp] theorem State.setPending_imem (s : State) (p : Bool) (k : Nat) : (s.setPending p).imem k = s.imem k := rfl
@[simp] theorem State.setPending_iword (s : State) (p : Bool) (k : Nat) : (s.setPending p).iword k = s.iword k := rfl
@[simp] theorem State.setPending_dmem (s : State) (p : Bool) (k : Nat) : (s.setPending p).dmem k = s.dmem k := rfl
@[simp] theorem State.setPending_heap (s : State) (p : Bool) (b o : Nat) : (s.setPending p).heap b o = s.heap b o := rfl

@[simp] theorem State.setInput_gpr (s : State) (i : List InputValue) : (s.setInput i).gpr = s.gpr := rfl
@[simp] theorem State.setInput_pc (s : State) (i : List InputValue) : (s.setInput i).pc = s.pc := rfl
@[simp] theorem State.setInput_mem (s : State) (i : List InputValue) : (s.setInput i).mem = s.mem := rfl
@[simp] theorem State.setInput_bytesAllocated (s : State) (i : List InputValue) : (s.setInput i).bytesAllocated = s.bytesAllocated := rfl
@[simp] theorem State.setInput_runState (s : State) (i : List InputValue) : (s.setInput i).runState = s.runState := rfl
@[simp] theorem State.setInput_pendingVirtualLoad (s : State) (i : List InputValue) : (s.setInput i).pendingVirtualLoad = s.pendingVirtualLoad := rfl
@[simp] theorem State.setInput_output (s : State) (i : List InputValue) : (s.setInput i).output = s.output := rfl
@[simp] theorem State.setInput_input (s : State) (i : List InputValue) : (s.setInput i).input = i := rfl
@[simp] theorem State.setInput_x (s : State) (i : List InputValue) (r : RegId) : (s.setInput i).x r = s.x r := rfl
@[simp] theorem State.setInput_dump (s : State) (i : List InputValue) : (s.setInput i).dump = s.dump := rfl
@[simp] theorem State.setInput_byteAt (s : State) (i : List InputValue) (a : Word) : (s.setInput i).byteAt a = s.byteAt a := rfl
@[simp] theorem State.setInput_imem (s : State) (i : List InputValue) (k : Nat) : (s.setInput i).imem k = s.imem k := rfl
@[simp] theorem State.setInput_iword (s : State) (i : List InputValue) (k : Nat) : (s.setInput i).iword k = s.iword k := rfl
@[simp] theorem State.setInput_dmem (s : State) (i : List InputValue) (k : Nat) : (s.setInput i).dmem k = s.dmem k := rfl
@[simp] theorem State.setInput_heap (s : State) (i : List InputValue) (b o : Nat) : (s.setInput i).heap b o = s.heap b o := rfl

@[simp] theorem State.emit_gpr (s : State) (e : Event) : (s.emit e).gpr = s.gpr := rfl
@[simp] theorem State.emit_pc (s : State) (e : Event) : (s.emit e).pc = s.pc := rfl
@[simp] theorem State.emit_mem (s : State) (e : Event) : (s.emit e).mem = s.mem := rfl
@[simp] theorem State.emit_bytesAllocated (s : State) (e : Event) : (s.emit e).bytesAllocated = s.bytesAllocated := rfl
@[simp] theorem State.emit_runState (s : State) (e : Event) : (s.emit e).runState = s.runState := rfl
@[simp] theorem State.emit_pendingVirtualLoad (s : State) (e : Event) : (s.emit e).pendingVirtualLoad = s.pendingVirtualLoad := rfl
@[simp] theorem State.emit_output (s : State) (e : Event) : (s.emit e).output = s.output ++ [e] := rfl
@[simp] theorem State.emit_input (s : State) (e : Event) : (s.emit e).input = s.input := rfl
@[simp] theorem State.emit_x (s : State) (e : Event) (r : RegId) : (s.emit e).x r = s.x r := rfl
@[simp] theorem State.emit_dump (s : State) (e : Event) : (s.emit e).dump = s.dump := rfl
@[simp] theorem State.emit_byteAt (s : State) (e : Event) (a : Word) : (s.emit e).byteAt a = s.byteAt a := rfl
@[simp] theorem State.emit_imem (s : State) (e : Event) (k : Nat) : (s.emit e).imem k = s.imem k := rfl
@[simp] theorem State.emit_iword (s : State) (e : Event) (k : Nat) : (s.emit e).iword k = s.iword k := rfl
@[simp] theorem State.emit_dmem (s : State) (e : Event) (k : Nat) : (s.emit e).dmem k = s.dmem k := rfl
@[simp] theorem State.emit_heap (s : State) (e : Event) (b o : Nat) : (s.emit e).heap b o = s.heap b o := rfl

@[simp] theorem State.advancePc_gpr (s : State) : s.advancePc.gpr = s.gpr := rfl
@[simp] theorem State.advancePc_pc (s : State) : s.advancePc.pc = s.pc + 4 := rfl
@[simp] theorem State.advancePc_mem (s : State) : s.advancePc.mem = s.mem := rfl
@[simp] theorem State.advancePc_bytesAllocated (s : State) : s.advancePc.bytesAllocated = s.bytesAllocated := rfl
@[simp] theorem State.advancePc_runState (s : State) : s.advancePc.runState = s.runState := rfl
@[simp] theorem State.advancePc_pendingVirtualLoad (s : State) : s.advancePc.pendingVirtualLoad = s.pendingVirtualLoad := rfl
@[simp] theorem State.advancePc_output (s : State) : s.advancePc.output = s.output := rfl
@[simp] theorem State.advancePc_input (s : State) : s.advancePc.input = s.input := rfl
@[simp] theorem State.advancePc_x (s : State) (r : RegId) : s.advancePc.x r = s.x r := rfl
@[simp] theorem State.advancePc_dump (s : State) : s.advancePc.dump = s.dump := rfl
@[simp] theorem State.advancePc_byteAt (s : State) (a : Word) : s.advancePc.byteAt a = s.byteAt a := rfl
@[simp] theorem State.advancePc_imem (s : State) (k : Nat) : s.advancePc.imem k = s.imem k := rfl
@[simp] theorem State.advancePc_iword (s : State) (k : Nat) : s.advancePc.iword k = s.iword k := rfl

@[simp] theorem State.beginCycle_gpr (s : State) : s.beginCycle.gpr = s.gpr := rfl
@[simp] theorem State.beginCycle_pc (s : State) : s.beginCycle.pc = s.pc := rfl
@[simp] theorem State.beginCycle_mem (s : State) : s.beginCycle.mem = s.mem := rfl
@[simp] theorem State.beginCycle_bytesAllocated (s : State) : s.beginCycle.bytesAllocated = s.bytesAllocated := rfl
@[simp] theorem State.beginCycle_runState (s : State) : s.beginCycle.runState = s.runState := rfl
@[simp] theorem State.beginCycle_pendingVirtualLoad (s : State) : s.beginCycle.pendingVirtualLoad = false := rfl
@[simp] theorem State.beginCycle_output (s : State) : s.beginCycle.output = s.output := rfl
@[simp] theorem State.beginCycle_input (s : State) : s.beginCycle.input = s.input := rfl
@[simp] theorem State.beginCycle_x (s : State) (r : RegId) : s.beginCycle.x r = s.x r := rfl
@[simp] theorem State.beginCycle_dump (s : State) : s.beginCycle.dump = s.dump := rfl
@[simp] theorem State.beginCycle_byteAt (s : State) (a : Word) : s.beginCycle.byteAt a = s.byteAt a := rfl
@[simp] theorem State.beginCycle_imem (s : State) (k : Nat) : s.beginCycle.imem k = s.imem k := rfl
@[simp] theorem State.beginCycle_iword (s : State) (k : Nat) : s.beginCycle.iword k = s.iword k := rfl

/-! ### Register writes (10_state.md R21, R22) -/

@[simp] theorem State.writeReg_pc (s : State) (r : RegId) (v : Word) : (s.writeReg r v).pc = s.pc := by
  unfold State.writeReg; split <;> rfl
@[simp] theorem State.writeReg_mem (s : State) (r : RegId) (v : Word) : (s.writeReg r v).mem = s.mem := by
  unfold State.writeReg; split <;> rfl
@[simp] theorem State.writeReg_bytesAllocated (s : State) (r : RegId) (v : Word) : (s.writeReg r v).bytesAllocated = s.bytesAllocated := by
  unfold State.writeReg; split <;> rfl
@[simp] theorem State.writeReg_runState (s : State) (r : RegId) (v : Word) : (s.writeReg r v).runState = s.runState := by
  unfold State.writeReg; split <;> rfl
@[simp] theorem State.writeReg_pendingVirtualLoad (s : State) (r : RegId) (v : Word) : (s.writeReg r v).pendingVirtualLoad = s.pendingVirtualLoad := by
  unfold State.writeReg; split <;> rfl
@[simp] theorem State.writeReg_output (s : State) (r : RegId) (v : Word) : (s.writeReg r v).output = s.output := by
  unfold State.writeReg; split <;> rfl
@[simp] theorem State.writeReg_input (s : State) (r : RegId) (v : Word) : (s.writeReg r v).input = s.input := by
  unfold State.writeReg; split <;> rfl
@[simp] theorem State.writeReg_byteAt (s : State) (r : RegId) (v : Word) (a : Word) : (s.writeReg r v).byteAt a = s.byteAt a := by
  unfold State.writeReg; split <;> rfl
@[simp] theorem State.writeReg_imem (s : State) (r : RegId) (v : Word) (k : Nat) : (s.writeReg r v).imem k = s.imem k := by
  unfold State.writeReg; split <;> rfl
@[simp] theorem State.writeReg_iword (s : State) (r : RegId) (v : Word) (k : Nat) : (s.writeReg r v).iword k = s.iword k := by
  unfold State.writeReg; split <;> rfl

@[simp] theorem State.x_zero (s : State) : s.x 0 = 0 := rfl

/-- A write to `x0` is discarded (R22). -/
@[simp] theorem State.writeReg_zero (s : State) (v : Word) : s.writeReg 0 v = s := rfl

/-- The register that is read after a write (R21, R22). -/
theorem State.x_writeReg (s : State) (r : RegId) (v : Word) (q : RegId) :
    (s.writeReg r v).x q = if q = r ∧ q ≠ 0 then v else s.x q := by
  unfold State.x State.writeReg
  by_cases hq : q.toNat = 0
  · have : q = 0 := BitVec.eq_of_toNat_eq hq
    simp [this]
  · have hq0 : q ≠ 0 := fun h => hq (by simp [h])
    by_cases hr : r.toNat = 0
    · have : q ≠ r := fun h => hq (by rw [h]; exact hr)
      simp [hq, hr, this]
    · by_cases h : q = r
      · subst h
        simp only [hq, hq0, ne_eq, not_false_eq_true, and_self, if_true, dite_false]
        simp
      · have hne : r.toNat ≠ q.toNat := fun e => h (BitVec.eq_of_toNat_eq e.symm)
        simp only [hq, hr, h, dite_false, false_and, if_false]
        rw [Vector.getElem_set_ne]
        omega

/-! ### Termination -/

@[simp] theorem State.raise_gpr (s : State) (c : Cause) : (s.raise c).gpr = s.gpr := by
  unfold State.raise; split <;> rfl
@[simp] theorem State.raise_pc (s : State) (c : Cause) : (s.raise c).pc = s.pc := by
  unfold State.raise; split <;> rfl
@[simp] theorem State.raise_mem (s : State) (c : Cause) : (s.raise c).mem = s.mem := by
  unfold State.raise; split <;> rfl
@[simp] theorem State.raise_bytesAllocated (s : State) (c : Cause) : (s.raise c).bytesAllocated = s.bytesAllocated := by
  unfold State.raise; split <;> rfl
@[simp] theorem State.raise_pendingVirtualLoad (s : State) (c : Cause) : (s.raise c).pendingVirtualLoad = s.pendingVirtualLoad := by
  unfold State.raise; split <;> rfl
@[simp] theorem State.raise_input (s : State) (c : Cause) : (s.raise c).input = s.input := by
  unfold State.raise; split <;> rfl
@[simp] theorem State.raise_runState (s : State) (c : Cause) : (s.raise c).runState = .halted c := by
  unfold State.raise; split <;> rfl
/-- A status-1 termination emits the register dump, and a status-0 one nothing (R303, R304). -/
theorem State.raise_output (s : State) (c : Cause) :
    (s.raise c).output = if c.exitStatus = 1 then s.output ++ [.dumpRegs s.pc s.dump] else s.output := by
  unfold State.raise; split <;> rfl
@[simp] theorem State.raise_x (s : State) (c : Cause) (r : RegId) : (s.raise c).x r = s.x r := by
  unfold State.raise; split <;> rfl
@[simp] theorem State.raise_dump (s : State) (c : Cause) : (s.raise c).dump = s.dump := by
  unfold State.raise; split <;> rfl
@[simp] theorem State.raise_byteAt (s : State) (c : Cause) (a : Word) : (s.raise c).byteAt a = s.byteAt a := by
  unfold State.raise; split <;> rfl
@[simp] theorem State.raise_imem (s : State) (c : Cause) (k : Nat) : (s.raise c).imem k = s.imem k := by
  unfold State.raise; split <;> rfl
@[simp] theorem State.raise_iword (s : State) (c : Cause) (k : Nat) : (s.raise c).iword k = s.iword k := by
  unfold State.raise; split <;> rfl

/-! ### The malloc request (44_ports_and_heap.md R271) -/

@[simp] theorem State.mallocRequest_pc (s : State) (v : Word) : (s.mallocRequest v).pc = s.pc := by
  simp [State.mallocRequest]
@[simp] theorem State.mallocRequest_mem (s : State) (v : Word) : (s.mallocRequest v).mem = s.mem := by
  simp [State.mallocRequest]
@[simp] theorem State.mallocRequest_bytesAllocated (s : State) (v : Word) : (s.mallocRequest v).bytesAllocated = allocatorNext s.bytesAllocated v := by
  simp [State.mallocRequest]
@[simp] theorem State.mallocRequest_runState (s : State) (v : Word) : (s.mallocRequest v).runState = s.runState := by
  simp [State.mallocRequest]
@[simp] theorem State.mallocRequest_pendingVirtualLoad (s : State) (v : Word) : (s.mallocRequest v).pendingVirtualLoad = s.pendingVirtualLoad := by
  simp [State.mallocRequest]
@[simp] theorem State.mallocRequest_output (s : State) (v : Word) : (s.mallocRequest v).output = s.output := by
  simp [State.mallocRequest]
@[simp] theorem State.mallocRequest_input (s : State) (v : Word) : (s.mallocRequest v).input = s.input := by
  simp [State.mallocRequest]
theorem State.mallocRequest_x (s : State) (v : Word) (q : RegId) :
    (s.mallocRequest v).x q = if q = Config.mallocResultReg ∧ q ≠ 0 then (allocatorResponse s.bytesAllocated v).ptr else s.x q := by
  simp [State.mallocRequest, State.x_writeReg]
@[simp] theorem State.mallocRequest_byteAt (s : State) (v : Word) (a : Word) : (s.mallocRequest v).byteAt a = s.byteAt a := by
  simp [State.mallocRequest]
@[simp] theorem State.mallocRequest_imem (s : State) (v : Word) (k : Nat) : (s.mallocRequest v).imem k = s.imem k := by
  simp [State.mallocRequest]

/-! ### Console input (44_ports_and_heap.md R260) -/

/-- Everything `HostIn` can do: it takes the next value, of the port's kind, and changes nothing else. -/
theorem State.hostIn_some {s t : State} {p : LoadPort} {raw : Word} (h : s.hostIn p = some (raw, t)) :
    (∃ c rest, p = .readChar ∧ s.input = .char c :: rest ∧ raw = c.setWidth 32 ∧ t = s.setInput rest) ∨
    (∃ i rest, p = .readSint ∧ s.input = .sint i :: rest ∧ raw = i ∧ t = s.setInput rest) := by
  unfold State.hostIn at h
  split at h
  · next c rest e =>
    simp only [Option.some.injEq, Prod.mk.injEq] at h
    exact .inl ⟨c, rest, rfl, e, h.1.symm, h.2.symm⟩
  · next i rest e =>
    simp only [Option.some.injEq, Prod.mk.injEq] at h
    exact .inr ⟨i, rest, rfl, e, h.1.symm, h.2.symm⟩
  · simp at h

/-- `HostIn` waits exactly when the next value is missing or of the other kind. -/
theorem State.hostIn_none_iff (s : State) (p : LoadPort) :
    s.hostIn p = none ↔ (p = .readChar → ∀ c rest, s.input ≠ .char c :: rest) ∧
      (p = .readSint → ∀ i rest, s.input ≠ .sint i :: rest) := by
  unfold State.hostIn
  cases p <;> rcases s.input with _ | ⟨_ | _, _⟩ <;> simp

end Sys2Proof.Machine
end

