-- ==== Sys2Proof/Laws/Access.lean ====
section
/-! SUPPORT. What routing, plain reads and plain writes do (spec/20_memory.md R62 to R71), each said once. -/

namespace Sys2Proof.Machine

/-! ### Routing -/

/-- The five classes of a byte address, by the ranges of the map (R62, R63). -/
theorem route_cases (a : Word) :
    (a.toNat ≤ 0x03FF ∧ route a = .imem a.toNat) ∨
    ((0x0400 ≤ a.toNat ∧ a.toNat ≤ 0x07FF) ∧ route a = .dmem (a.toNat - 0x0400)) ∨
    ((0xB700 ≤ a.toNat ∧ a.toNat ≤ 0xD6FF) ∧ route a = .heap ((a.toNat - 0xB700) / 64) ((a.toNat - 0xB700) % 64)) ∨
    (0xD700 ≤ a.toNat ∧ route a = .beyond) ∨
    ((0x0800 ≤ a.toNat ∧ a.toNat ≤ 0xB6FF) ∧ route a = .unmapped) := by
  have e : route a =
      if a.toNat ≤ 0x03FF then .imem a.toNat
      else if a.toNat ≤ 0x07FF then .dmem (a.toNat - 0x0400)
      else if 0xB700 ≤ a.toNat ∧ a.toNat ≤ 0xD6FF then .heap ((a.toNat - 0xB700) / 64) ((a.toNat - 0xB700) % 64)
      else if a.toNat > 0xD6FF then .beyond else .unmapped := rfl
  rw [e]
  by_cases h1 : a.toNat ≤ 0x03FF
  · exact .inl ⟨h1, by rw [if_pos h1]⟩
  · by_cases h2 : a.toNat ≤ 0x07FF
    · exact .inr (.inl ⟨by omega, by rw [if_neg h1, if_pos h2]⟩)
    · by_cases h3 : 0xB700 ≤ a.toNat ∧ a.toNat ≤ 0xD6FF
      · exact .inr (.inr (.inl ⟨h3, by rw [if_neg h1, if_neg h2, if_pos h3]⟩))
      · by_cases h4 : a.toNat > 0xD6FF
        · exact .inr (.inr (.inr (.inl ⟨by omega, by rw [if_neg h1, if_neg h2, if_neg h3, if_pos h4]⟩)))
        · exact .inr (.inr (.inr (.inr ⟨by omega, by rw [if_neg h1, if_neg h2, if_neg h3, if_neg h4]⟩)))

@[simp] theorem Region.storeCell_imem (k : Nat) : (Region.imem k).storeCell = none := rfl
@[simp] theorem Region.storeCell_dmem (k : Nat) : (Region.dmem k).storeCell = some (0x0400 + k) := rfl
@[simp] theorem Region.storeCell_heap (b o : Nat) : (Region.heap b o).storeCell = some (0xB700 + 64 * b + o) := rfl
@[simp] theorem Region.storeCell_unmapped : Region.unmapped.storeCell = none := rfl
@[simp] theorem Region.storeCell_beyond : Region.beyond.storeCell = none := rfl

/-- Stores reach data memory and the heap (R62, R67), each byte at its own address. -/
theorem route_storeCell_eq (a : Word) :
    (route a).storeCell =
      if (0x0400 ≤ a.toNat ∧ a.toNat ≤ 0x07FF) ∨ (0xB700 ≤ a.toNat ∧ a.toNat ≤ 0xD6FF) then some a.toNat else none := by
  rcases route_cases a with ⟨h, e⟩ | ⟨h, e⟩ | ⟨h, e⟩ | ⟨h, e⟩ | ⟨h, e⟩ <;> rw [e]
  · rw [if_neg (by omega)]; rfl
  · rw [if_pos (by omega), Region.storeCell_dmem]; exact congrArg some (by omega)
  · rw [if_pos (by omega), Region.storeCell_heap]; exact congrArg some (by omega)
  · rw [if_neg (by omega)]; rfl
  · rw [if_neg (by omega)]; rfl

/-- A storage cell that stores reach is the cell of its own address. -/
theorem route_storeCell {a : Word} {c : Nat} (h : (route a).storeCell = some c) :
    c = a.toNat ∧ ((0x0400 ≤ a.toNat ∧ a.toNat ≤ 0x07FF) ∨ (0xB700 ≤ a.toNat ∧ a.toNat ≤ 0xD6FF)) := by
  rw [route_storeCell_eq] at h
  split at h
  · next hr => exact ⟨(Option.some.inj h).symm, hr⟩
  · simp at h

/-- The bytes beyond the heap (R62). -/
theorem route_beyond_iff (a : Word) : route a = .beyond ↔ 0xD700 ≤ a.toNat := by
  rcases route_cases a with ⟨h, e⟩ | ⟨h, e⟩ | ⟨h, e⟩ | ⟨h, e⟩ | ⟨h, e⟩ <;> rw [e] <;>
    simp only [reduceCtorEq, false_iff, true_iff] <;> omega

/-- The byte at every address, by the ranges of the map (R62, R66). -/
theorem State.byteAt_eq (s : State) (a : Word) :
    s.byteAt a =
      if a.toNat ≤ 0x07FF ∨ (0xB700 ≤ a.toNat ∧ a.toNat ≤ 0xD6FF) then some (Memory.read s.mem a.toNat)
      else if 0xD700 ≤ a.toNat then none else some 0x00 := by
  unfold State.byteAt
  rcases route_cases a with ⟨h, e⟩ | ⟨h, e⟩ | ⟨h, e⟩ | ⟨h, e⟩ | ⟨h, e⟩ <;> rw [e]
  · rw [if_pos (by omega)]; rfl
  · rw [if_pos (by omega)]
    have : 0x0400 + (a.toNat - 0x0400) = a.toNat := by omega
    show some (Memory.read s.mem (0x0400 + (a.toNat - 0x0400))) = _
    rw [this]
  · rw [if_pos (by omega)]
    have : 0xB700 + 64 * ((a.toNat - 0xB700) / 64) + (a.toNat - 0xB700) % 64 = a.toNat := by omega
    show some (Memory.read s.mem (0xB700 + 64 * ((a.toNat - 0xB700) / 64) + (a.toNat - 0xB700) % 64)) = _
    rw [this]
  · rw [if_neg (by omega), if_pos h]
  · rw [if_neg (by omega), if_neg (by omega)]

theorem State.byteAt_eq_none_iff (s : State) (a : Word) : s.byteAt a = none ↔ 0xD700 ≤ a.toNat := by
  rw [State.byteAt_eq]
  split
  · simp only [reduceCtorEq, false_iff]; omega
  · split
    · simp only [true_iff]; omega
    · simp only [reduceCtorEq, false_iff]; omega

/-- Two states whose storage agrees at an address have the same byte there. -/
theorem State.byteAt_congr {s t : State} {a : Word} (h : Memory.read t.mem a.toNat = Memory.read s.mem a.toNat) :
    t.byteAt a = s.byteAt a := by
  rw [State.byteAt_eq, State.byteAt_eq, h]

/-! ### Plain reads -/

theorem word_add_succ (a : Word) (i : Nat) : a + 1 + BitVec.ofNat 32 i = a + BitVec.ofNat 32 (i + 1) := by
  apply BitVec.eq_of_toNat_eq
  simp only [BitVec.toNat_add, BitVec.toNat_ofNat, BitVec.ofNat_eq_ofNat]
  omega

theorem touchesBeyond_iff (ea : Word) (n : Nat) :
    touchesBeyond ea n = true ↔ ∃ i, i < n ∧ 0xD700 ≤ (ea + BitVec.ofNat 32 i).toNat := by
  induction n generalizing ea with
  | zero => simp [touchesBeyond]
  | succ n ih =>
    simp only [touchesBeyond, Bool.or_eq_true, beq_iff_eq, route_beyond_iff, ih]
    constructor
    · rintro (h | ⟨i, hi, h⟩)
      · exact ⟨0, by omega, by simpa using h⟩
      · exact ⟨i + 1, by omega, by rwa [← word_add_succ]⟩
    · rintro ⟨i, hi, h⟩
      cases i with
      | zero => exact .inl (by simpa using h)
      | succ i => exact .inr ⟨i, by omega, by rwa [word_add_succ]⟩

/-- A plain read has every byte, or one of them is beyond the heap (R68, R69). -/
theorem State.readBytes_eq_none_iff (s : State) (a : Word) (n : Nat) :
    s.readBytes a n = none ↔ touchesBeyond a n = true := by
  induction n generalizing a with
  | zero => simp [State.readBytes, touchesBeyond]
  | succ n ih =>
    have hb := s.byteAt_eq_none_iff a
    simp only [touchesBeyond, Bool.or_eq_true, beq_iff_eq, route_beyond_iff, ← hb, ← ih]
    rw [State.readBytes]
    cases s.byteAt a <;> cases s.readBytes (a + 1) n <;> simp

theorem State.memRead_eq_none_iff (s : State) (ea : Word) (n : Nat) :
    s.memRead ea n = none ↔ touchesBeyond ea n = true := by
  unfold State.memRead
  rw [Option.map_eq_none_iff, State.readBytes_eq_none_iff]

theorem State.readBytes_length {s : State} {a : Word} {n : Nat} {bs : List Byte} (h : s.readBytes a n = some bs) :
    bs.length = n := by
  induction n generalizing a bs with
  | zero => simp [State.readBytes] at h; simp [h]
  | succ n ih =>
    unfold State.readBytes at h
    split at h
    · next hbs =>
      simp only [Option.some.injEq] at h
      subst h
      simp [ih hbs]
    · simp at h

/-- The bytes of a plain read are those at the consecutive addresses (R69). -/
theorem State.readBytes_getElem? {s : State} {a : Word} {n : Nat} {bs : List Byte} (h : s.readBytes a n = some bs)
    {i : Nat} (hi : i < n) : bs[i]? = s.byteAt (a + BitVec.ofNat 32 i) := by
  induction n generalizing a bs i with
  | zero => omega
  | succ n ih =>
    unfold State.readBytes at h
    split at h
    · next hb hbs =>
      simp only [Option.some.injEq] at h
      subst h
      cases i with
      | zero => simp [hb]
      | succ i =>
        rw [← word_add_succ, ← ih hbs (by omega : i < n)]
        rfl
    · simp at h

/-- A read depends only on the bytes at its addresses. -/
theorem State.readBytes_congr {s t : State} {a : Word} {n : Nat}
    (h : ∀ i, i < n → t.byteAt (a + BitVec.ofNat 32 i) = s.byteAt (a + BitVec.ofNat 32 i)) :
    t.readBytes a n = s.readBytes a n := by
  induction n generalizing a with
  | zero => rfl
  | succ n ih =>
    have h0 := h 0 (by omega)
    simp only [BitVec.add_zero] at h0
    unfold State.readBytes
    rw [h0, ih fun i hi => by rw [word_add_succ]; exact h (i + 1) (by omega)]

/-! ### Byte order -/

theorem littleEndian_lowBytes_four (v : Word) : littleEndian (lowBytes v 4) = v := by
  simp only [lowBytes, littleEndian]
  apply BitVec.eq_of_getLsbD_eq
  intro i hi
  simp only [BitVec.getLsbD_or, BitVec.getLsbD_shiftLeft, BitVec.getLsbD_setWidth, BitVec.getLsbD_ushiftRight,
    BitVec.ofNat_eq_ofNat, BitVec.getLsbD_zero, hi, decide_true, Bool.true_and]
  by_cases h1 : i < 8
  · simp [h1]
  · by_cases h2 : i < 16
    · have e : 8 + (i - 8) = i := by omega
      simp [h1, e, show i - 8 < 8 by omega, show i - 8 < 32 by omega]
    · by_cases h3 : i < 24
      · have e : 8 + (8 + (i - 8 - 8)) = i := by omega
        simp [h1, e, show ¬(i - 8 < 8) by omega, show i - 8 - 8 < 8 by omega, show i - 8 < 32 by omega,
          show i - 8 - 8 < 32 by omega]
      · have e : 8 + (8 + (8 + (i - 8 - 8 - 8))) = i := by omega
        simp [h1, e, show ¬(i - 8 < 8) by omega, show ¬(i - 8 - 8 < 8) by omega, show i - 8 - 8 - 8 < 8 by omega,
          show i - 8 < 32 by omega, show i - 8 - 8 < 32 by omega, show i - 8 - 8 - 8 < 32 by omega]

theorem lowBytes_length (v : Word) (n : Nat) : (lowBytes v n).length = n := by
  induction n generalizing v with
  | zero => rfl
  | succ n ih => simp [lowBytes, ih]

/-- Byte `i` of a store holds bits `8i` to `8i+7` of the value (R72). -/
theorem lowBytes_getElem? (v : Word) {n i : Nat} (hi : i < n) :
    (lowBytes v n)[i]? = some ((v >>> (8 * i)).setWidth 8) := by
  induction n generalizing v i with
  | zero => omega
  | succ n ih =>
    cases i with
    | zero => simp [lowBytes]
    | succ i =>
      simp only [lowBytes, List.getElem?_cons_succ]
      rw [ih _ (by omega : i < n), ← BitVec.shiftRight_add, Nat.mul_add, Nat.add_comm 8]

/-! ### Plain writes -/

/-- Each strobe is one of the store's bytes, at its own address, where stores reach storage (R70). -/
theorem mem_writeStrobes {ea : Word} {bs : List Byte} {c : Host.Cell} (h : c ∈ writeStrobes ea bs) :
    ∃ i, i < bs.length ∧ c.1 = (ea + BitVec.ofNat 32 i).toNat ∧
      (route (ea + BitVec.ofNat 32 i)).storeCell = some c.1 ∧ bs[i]? = some c.2 := by
  induction bs generalizing ea with
  | nil => simp [writeStrobes] at h
  | cons b bs ih =>
    unfold writeStrobes at h
    have lift (h : c ∈ writeStrobes (ea + 1) bs) : ∃ i, i < (b :: bs).length ∧
        c.1 = (ea + BitVec.ofNat 32 i).toNat ∧ (route (ea + BitVec.ofNat 32 i)).storeCell = some c.1 ∧
        (b :: bs)[i]? = some c.2 := by
      obtain ⟨i, hi, h1, h2, h3⟩ := ih h
      rw [word_add_succ] at h1 h2
      exact ⟨i + 1, by simp; omega, h1, h2, by simpa using h3⟩
    split at h
    · next a ha =>
      rcases List.mem_cons.mp h with rfl | h
      · exact ⟨0, by simp, by simpa using (route_storeCell ha).1, by simpa using ha, by simp⟩
      · exact lift h
    · exact lift h

theorem word_add_ne (a : Word) {i : Nat} (h : i + 1 < 2 ^ 32) : a ≠ a + BitVec.ofNat 32 (i + 1) := by
  intro e
  have := congrArg BitVec.toNat e
  simp only [BitVec.toNat_add, BitVec.toNat_ofNat] at this
  have := a.isLt
  omega

/-- Storage after the strobes of a store: a byte that stores reach holds its byte of the value. -/
theorem read_writeAll_strobe (m : Memory) (ea : Word) (bs : List Byte) (hlen : bs.length < 2 ^ 32) {i : Nat} {b : Byte}
    (hb : bs[i]? = some b) (hs : (route (ea + BitVec.ofNat 32 i)).storeCell ≠ none) :
    Memory.read (Memory.writeAll m (writeStrobes ea bs)) (ea + BitVec.ofNat 32 i).toNat = b := by
  induction bs generalizing m ea i with
  | nil => simp at hb
  | cons b' bs ih =>
    simp only [List.length_cons] at hlen
    cases i with
    | zero =>
      simp only [BitVec.add_zero] at hs ⊢
      simp only [List.getElem?_cons_zero, Option.some.injEq] at hb
      subst hb
      unfold writeStrobes
      split
      · next a ha =>
        have := (route_storeCell ha).1
        subst this
        rw [Memory.writeAll, Memory.read_writeAll_of_not_mem, Memory.read_write, if_pos rfl]
        intro c hc e
        obtain ⟨i, hi, h1, -, -⟩ := mem_writeStrobes hc
        rw [word_add_succ] at h1
        exact word_add_ne ea (i := i) (by omega) (BitVec.eq_of_toNat_eq (e.symm.trans h1))
      · next ha => exact absurd ha hs
    | succ i =>
      rw [← word_add_succ] at hs ⊢
      simp only [List.getElem?_cons_succ] at hb
      unfold writeStrobes
      split
      · exact ih _ (ea + 1) (by omega) hb hs
      · exact ih _ (ea + 1) (by omega) hb hs

/-- Everything a plain write can do: it answers unless a byte is beyond the heap, and then only storage has changed, by the
strobes (R68, R70). -/
theorem State.memWrite_eq_some {s t : State} {ea v : Word} {n : Nat} (h : s.memWrite ea n v = some t) :
    touchesBeyond ea n = false ∧ t = s.setMem (Memory.writeAll s.mem (writeStrobes ea (lowBytes v n))) := by
  unfold State.memWrite at h
  split at h
  · simp at h
  · next hb => exact ⟨by simpa using hb, by simpa using h.symm⟩

/-- A byte outside the store's addresses, or where stores reach no storage, keeps its value (R66, R67, R71). -/
theorem State.byteAt_writeStrobes_of_not_stored (s : State) (ea : Word) (bs : List Byte) (a : Word)
    (h : ∀ i, i < bs.length → a = ea + BitVec.ofNat 32 i → (route a).storeCell = none) :
    (s.setMem (Memory.writeAll s.mem (writeStrobes ea bs))).byteAt a = s.byteAt a := by
  apply State.byteAt_congr
  refine Memory.read_writeAll_of_not_mem _ _ _ fun c hc e => ?_
  obtain ⟨i, hi, h1, h2, -⟩ := mem_writeStrobes hc
  have ha : a = ea + BitVec.ofNat 32 i := BitVec.eq_of_toNat_eq (e.symm.trans h1)
  rw [← ha, h i hi ha] at h2
  simp at h2

/-- A byte of the store where stores reach storage holds its byte of the value (R70, R71). -/
theorem State.byteAt_writeStrobes_of_stored (s : State) (ea : Word) (bs : List Byte) (hlen : bs.length < 2 ^ 32) {i : Nat}
    {b : Byte} (hb : bs[i]? = some b) (hs : (route (ea + BitVec.ofNat 32 i)).storeCell ≠ none) :
    (s.setMem (Memory.writeAll s.mem (writeStrobes ea bs))).byteAt (ea + BitVec.ofNat 32 i) = some b := by
  have hr := read_writeAll_strobe s.mem ea bs hlen hb hs
  obtain ⟨c, hc⟩ := Option.ne_none_iff_exists'.mp hs
  have hcell := (route_storeCell hc).2
  rw [State.byteAt_eq, if_pos (by omega), State.setMem_mem, hr]

end Sys2Proof.Machine
end

