-- ==== Sys2Proof/Laws/Allocator.lean ====
section
/-! SUPPORT. What the allocator's scan and marking do (spec/44_ports_and_heap.md R272), each said once. -/

namespace Sys2Proof.Machine

theorem runFree_iff (counts : List Nat) (start nb : Nat) :
    runFree counts start nb = true ↔ ∀ k, k < nb → counts[start + k]? = some 0 := by
  induction nb generalizing start with
  | zero => simp [runFree]
  | succ nb ih =>
    simp only [runFree, Bool.and_eq_true, beq_iff_eq, ih]
    constructor
    · rintro ⟨h0, h⟩ k hk
      cases k with
      | zero => exact h0
      | succ k =>
        have := h k (by omega)
        rwa [show start + 1 + k = start + (k + 1) by omega] at this
    · intro h
      refine ⟨h 0 (by omega), fun k hk => ?_⟩
      rw [show start + 1 + k = start + (k + 1) by omega]
      exact h (k + 1) (by omega)

/-- The scan's answer is the first viable start within the 128 banks. -/
theorem firstFit_eq_some_iff (counts : List Nat) (nb start : Nat) :
    firstFit counts nb = some start ↔
      start + nb ≤ 128 ∧ runFree counts start nb = true ∧ ∀ s', s' < start → runFree counts s' nb = false := by
  unfold firstFit
  rw [List.find?_range_eq_some]
  simp only [Config.heapBanks, List.mem_range]
  constructor
  · rintro ⟨h1, h2, h3⟩
    exact ⟨by omega, h1, fun s' hs => by simpa using h3 s' hs⟩
  · rintro ⟨h1, h2, h3⟩
    exact ⟨h2, by omega, fun s' hs => by simpa using h3 s' hs⟩

/-- No space: no start within the 128 banks is viable. -/
theorem firstFit_eq_none_iff (counts : List Nat) (nb : Nat) :
    firstFit counts nb = none ↔ ∀ start, start + nb ≤ 128 → runFree counts start nb = false := by
  unfold firstFit
  simp only [List.find?_eq_none, Config.heapBanks, List.mem_range, Bool.not_eq_true]
  constructor
  · intro h start hs; exact h start (by omega)
  · intro h start hs; exact h start (by omega)

theorem banksNeeded_pos (n : Nat) : 0 < banksNeeded n := by simp [banksNeeded]

@[simp] theorem markRun_length (n start bank : Nat) (cs : List Nat) : (markRun n start bank cs).length = cs.length := by
  induction cs generalizing bank with
  | nil => rfl
  | cons c cs ih => simp [markRun, ih]

/-- Each count after the marking: the run's banks are marked, and every other bank keeps its count. -/
theorem markRun_getElem? (n start bank k : Nat) (cs : List Nat) :
    (markRun n start bank cs)[k]? =
      if start ≤ bank + k ∧ bank + k < start + banksNeeded n then cs[k]?.map (fun _ => markedCount n start (bank + k))
      else cs[k]? := by
  induction cs generalizing bank k with
  | nil => simp [markRun]
  | cons c cs ih =>
    cases k with
    | zero => simp only [markRun, Nat.add_zero, List.getElem?_cons_zero]; split <;> simp
    | succ k =>
      simp only [markRun, List.getElem?_cons_succ, ih, show bank + 1 + k = bank + (k + 1) by omega]

/-- A marked bank holds 1 to 64 bytes. -/
theorem markedCount_range (n start bank : Nat) : 0 < markedCount n start bank ∧ markedCount n start bank ≤ 64 := by
  have e : markedCount n start bank = if bank + 1 = start + banksNeeded n ∧ n % 64 ≠ 0 then n % 64 else 64 := rfl
  rw [e]
  split <;> omega

/-- Everything a request can do to the counts: nothing, or the marking of the first viable run. -/
theorem allocatorNext_cases (counts : List Nat) (size : Word) :
    (firstFit counts (banksNeeded size.toNat) = none ∧ allocatorNext counts size = counts ∧
      allocatorResponse counts size = ⟨false, 0⟩) ∨
    (∃ start, firstFit counts (banksNeeded size.toNat) = some start ∧
      allocatorNext counts size = markRun size.toNat start 0 counts ∧
      allocatorResponse counts size = ⟨true, bankPointer start⟩) := by
  unfold allocatorNext allocatorResponse malloc
  cases h : firstFit counts (banksNeeded size.toNat) with
  | none => exact .inl ⟨rfl, rfl, rfl⟩
  | some start => exact .inr ⟨start, rfl, rfl, rfl⟩

@[simp] theorem allocatorNext_length (counts : List Nat) (size : Word) :
    (allocatorNext counts size).length = counts.length := by
  rcases allocatorNext_cases counts size with ⟨-, e, -⟩ | ⟨start, -, e, -⟩ <;> simp [e]

/-- A bank's pointer, as a number (44_ports_and_heap.md R272). -/
theorem bankPointer_toNat {start : Nat} (h : start ≤ 127) : (bankPointer start).toNat = 0xB700 + 64 * start := by
  simp only [bankPointer, heapBase, Config.bankSize, BitVec.toNat_ofNat]
  omega

/-- Counts stay within 64 (10_state.md R35). -/
theorem allocatorNext_le {counts : List Nat} (h : ∀ c ∈ counts, c ≤ 64) (size : Word) :
    ∀ c ∈ allocatorNext counts size, c ≤ 64 := by
  rcases allocatorNext_cases counts size with ⟨-, e, -⟩ | ⟨start, -, e, -⟩
  · rwa [e]
  · intro c hc
    rw [e] at hc
    obtain ⟨k, hk⟩ := List.mem_iff_getElem?.mp hc
    rw [markRun_getElem?] at hk
    split at hk
    · rw [Option.map_eq_some_iff] at hk
      obtain ⟨-, -, rfl⟩ := hk
      exact (markedCount_range _ _ _).2
    · exact h c (List.mem_iff_getElem?.mpr ⟨k, hk⟩)

/-- An allocated bank keeps its count (R273). -/
theorem allocatorNext_of_ne_zero {counts : List Nat} {size : Word} {k c : Nat} (h : counts[k]? = some c) (hc : c ≠ 0) :
    (allocatorNext counts size)[k]? = some c := by
  rcases allocatorNext_cases counts size with ⟨-, e, -⟩ | ⟨start, hf, e, -⟩
  · rwa [e]
  · rw [e, markRun_getElem?]
    split
    · next hr =>
      have hfree := (runFree_iff _ _ _).mp ((firstFit_eq_some_iff _ _ _).mp hf).2.1 (k - start) (by omega)
      rw [show start + (k - start) = k by omega, h] at hfree
      exact absurd (Option.some.inj hfree) hc
    · exact h

end Sys2Proof.Machine
end

