-- ==== Sys2Proof/Laws/Decode.lean ====
section
/-! SUPPORT. The bits of every layout, written and read, and what each field of an encoded word is (spec/30_encoding.md R105 to
R110). -/

namespace Sys2Proof

/-- One layer of a chain of cases on a bit number. -/
theorem ite_layer {p q : Prop} [Decidable p] [Decidable q] {a b c d : Bool} (h : p ↔ q) (ht : q → a = c) (he : ¬q → b = d) :
    (if p then a else b) = if q then c else d := by
  by_cases hq : q
  · rw [if_pos hq, if_pos (h.mpr hq), ht hq]
  · rw [if_neg hq, if_neg (fun hp => hq (h.mp hp)), he hq]

/-! ### Bits of the layouts the encoder writes -/

theorem getLsbD_encodeR (f7 : BitVec 7) (f3 : BitVec 3) (rd rs1 rs2 : RegId) (i : Nat) :
    (encodeR f7 f3 rd rs1 rs2).getLsbD i =
      if i < 7 then (0b0110011#7).getLsbD i else if i < 12 then rd.getLsbD (i - 7) else if i < 15 then f3.getLsbD (i - 12)
      else if i < 20 then rs1.getLsbD (i - 15) else if i < 25 then rs2.getLsbD (i - 20) else f7.getLsbD (i - 25) := by
  show ((f7 ++ rs2 ++ rs1 ++ f3 ++ rd ++ 0b0110011#7 : BitVec (7 + 5 + 5 + 3 + 5 + 7))).getLsbD i = _
  rw [BitVec.getLsbD_append, BitVec.getLsbD_append, BitVec.getLsbD_append, BitVec.getLsbD_append, BitVec.getLsbD_append]
  simp only [Nat.sub_sub, Nat.reduceAdd]
  exact ite_layer .rfl (fun _ => rfl) fun _ => ite_layer (by omega) (fun _ => rfl) fun _ => ite_layer (by omega) (fun _ => rfl)
    fun _ => ite_layer (by omega) (fun _ => rfl) fun _ => ite_layer (by omega) (fun _ => rfl) fun _ => rfl

theorem getLsbD_encodeI (op : BitVec 7) (f3 : BitVec 3) (rd rs1 : RegId) (imm : BitVec 12) (i : Nat) :
    (encodeI op f3 rd rs1 imm).getLsbD i =
      if i < 7 then op.getLsbD i else if i < 12 then rd.getLsbD (i - 7) else if i < 15 then f3.getLsbD (i - 12)
      else if i < 20 then rs1.getLsbD (i - 15) else imm.getLsbD (i - 20) := by
  show ((imm ++ rs1 ++ f3 ++ rd ++ op : BitVec (12 + 5 + 3 + 5 + 7))).getLsbD i = _
  rw [BitVec.getLsbD_append, BitVec.getLsbD_append, BitVec.getLsbD_append, BitVec.getLsbD_append]
  simp only [Nat.sub_sub, Nat.reduceAdd]
  exact ite_layer .rfl (fun _ => rfl) fun _ => ite_layer (by omega) (fun _ => rfl) fun _ => ite_layer (by omega) (fun _ => rfl)
    fun _ => ite_layer (by omega) (fun _ => rfl) fun _ => rfl

/-- A bit of a slice, where the slice reaches it. -/
theorem getLsbD_slice {n : Nat} (v : BitVec n) {lo len i j : Nat} (hi : i < len) (hj : lo + i = j) :
    (v.extractLsb' lo len).getLsbD i = v.getLsbD j := by
  rw [BitVec.getLsbD_extractLsb', decide_eq_true hi, Bool.true_and, hj]

/-- A bit past a slice's end is clear. -/
theorem getLsbD_slice_ge {n : Nat} (v : BitVec n) {lo len i : Nat} (hi : len ≤ i) :
    (v.extractLsb' lo len).getLsbD i = false := by
  rw [BitVec.getLsbD_extractLsb', decide_eq_false (by omega), Bool.false_and]

/-- A slice that reaches the top of a vector has its bits, and none past it. -/
theorem getLsbD_slice_top {n : Nat} (v : BitVec n) {lo len i j : Nat} (hn : n ≤ lo + len) (hj : lo + i = j) :
    (v.extractLsb' lo len).getLsbD i = v.getLsbD j := by
  by_cases h : i < len
  · exact getLsbD_slice v h hj
  · rw [getLsbD_slice_ge v (by omega), BitVec.getLsbD_of_ge v j (by omega)]

theorem getLsbD_encodeS (f3 : BitVec 3) (rs1 rs2 : RegId) (imm : BitVec 12) (i : Nat) :
    (encodeS f3 rs1 rs2 imm).getLsbD i =
      if i < 7 then (0b0100011#7).getLsbD i else if i < 12 then imm.getLsbD (i - 7) else if i < 15 then f3.getLsbD (i - 12)
      else if i < 20 then rs1.getLsbD (i - 15) else if i < 25 then rs2.getLsbD (i - 20) else imm.getLsbD (i - 20) := by
  show ((imm.extractLsb' 5 7 ++ rs2 ++ rs1 ++ f3 ++ imm.extractLsb' 0 5 ++ 0b0100011#7 :
    BitVec (7 + 5 + 5 + 3 + 5 + 7))).getLsbD i = _
  rw [BitVec.getLsbD_append, BitVec.getLsbD_append, BitVec.getLsbD_append, BitVec.getLsbD_append, BitVec.getLsbD_append]
  simp only [Nat.sub_sub, Nat.reduceAdd]
  exact ite_layer .rfl (fun _ => rfl) fun _ => ite_layer (by omega) (fun _ => getLsbD_slice _ (by omega) (by omega)) fun _ =>
    ite_layer (by omega) (fun _ => rfl) fun _ => ite_layer (by omega) (fun _ => rfl) fun _ =>
    ite_layer (by omega) (fun _ => rfl) fun _ => getLsbD_slice_top _ (by omega) (by omega)

theorem getLsbD_encodeSB (f3 : BitVec 3) (rs1 rs2 : RegId) (imm : BitVec 13) (i : Nat) :
    (encodeSB f3 rs1 rs2 imm).getLsbD i =
      if i < 7 then (0b1100011#7).getLsbD i else if i = 7 then imm.getLsbD 11 else if i < 12 then imm.getLsbD (i - 7)
      else if i < 15 then f3.getLsbD (i - 12) else if i < 20 then rs1.getLsbD (i - 15) else if i < 25 then rs2.getLsbD (i - 20)
      else if i < 31 then imm.getLsbD (i - 20) else if i = 31 then imm.getLsbD 12 else false := by
  show ((imm.extractLsb' 12 1 ++ imm.extractLsb' 5 6 ++ rs2 ++ rs1 ++ f3 ++ imm.extractLsb' 1 4 ++ imm.extractLsb' 11 1
    ++ 0b1100011#7 : BitVec (1 + 6 + 5 + 5 + 3 + 4 + 1 + 7))).getLsbD i = _
  rw [BitVec.getLsbD_append, BitVec.getLsbD_append, BitVec.getLsbD_append, BitVec.getLsbD_append, BitVec.getLsbD_append,
    BitVec.getLsbD_append, BitVec.getLsbD_append]
  simp only [Nat.sub_sub, Nat.reduceAdd]
  refine ite_layer .rfl (fun _ => rfl) fun _ => ite_layer (by omega) (fun _ => getLsbD_slice _ (by omega) (by omega)) fun _ =>
    ite_layer (by omega) (fun _ => getLsbD_slice _ (by omega) (by omega)) fun _ =>
    ite_layer (by omega) (fun _ => rfl) fun _ => ite_layer (by omega) (fun _ => rfl) fun _ =>
    ite_layer (by omega) (fun _ => rfl) fun _ => ite_layer (by omega) (fun _ => getLsbD_slice _ (by omega) (by omega)) fun _ => ?_
  split
  · exact getLsbD_slice _ (by omega) (by omega)
  · exact getLsbD_slice_ge _ (by omega)

theorem getLsbD_encodeU (rd : RegId) (imm20 : BitVec 20) (i : Nat) :
    (encodeU rd imm20).getLsbD i =
      if i < 7 then (0b0110111#7).getLsbD i else if i < 12 then rd.getLsbD (i - 7) else imm20.getLsbD (i - 12) := by
  show ((imm20 ++ rd ++ 0b0110111#7 : BitVec (20 + 5 + 7))).getLsbD i = _
  rw [BitVec.getLsbD_append, BitVec.getLsbD_append]
  simp only [Nat.sub_sub, Nat.reduceAdd]
  exact ite_layer .rfl (fun _ => rfl) fun _ => ite_layer (by omega) (fun _ => rfl) fun _ => rfl

theorem getLsbD_encodeUJ (rd : RegId) (imm : BitVec 21) (i : Nat) :
    (encodeUJ rd imm).getLsbD i =
      if i < 7 then (0b1101111#7).getLsbD i else if i < 12 then rd.getLsbD (i - 7) else if i < 20 then imm.getLsbD i
      else if i = 20 then imm.getLsbD 11 else if i < 31 then imm.getLsbD (i - 20) else if i = 31 then imm.getLsbD 20
      else false := by
  show ((imm.extractLsb' 20 1 ++ imm.extractLsb' 1 10 ++ imm.extractLsb' 11 1 ++ imm.extractLsb' 12 8 ++ rd ++ 0b1101111#7 :
    BitVec (1 + 10 + 1 + 8 + 5 + 7))).getLsbD i = _
  rw [BitVec.getLsbD_append, BitVec.getLsbD_append, BitVec.getLsbD_append, BitVec.getLsbD_append, BitVec.getLsbD_append]
  simp only [Nat.sub_sub, Nat.reduceAdd]
  refine ite_layer .rfl (fun _ => rfl) fun _ => ite_layer (by omega) (fun _ => rfl) fun _ =>
    ite_layer (by omega) (fun _ => getLsbD_slice _ (by omega) (by omega)) fun _ =>
    ite_layer (by omega) (fun _ => getLsbD_slice _ (by omega) (by omega)) fun _ =>
    ite_layer (by omega) (fun _ => getLsbD_slice _ (by omega) (by omega)) fun _ => ?_
  split
  · exact getLsbD_slice _ (by omega) (by omega)
  · exact getLsbD_slice_ge _ (by omega)

/-! ### Bits of the immediates the decoder reads -/

theorem getLsbD_immRawS (w : Word) (i : Nat) :
    (immRawS w).getLsbD i = if i < 5 then w.getLsbD (7 + i) else if i < 12 then w.getLsbD (20 + i) else false := by
  show ((w.extractLsb' 25 7 ++ w.extractLsb' 7 5 : BitVec (7 + 5))).getLsbD i = _
  rw [BitVec.getLsbD_append]
  refine ite_layer .rfl (fun _ => getLsbD_slice _ (by omega) rfl) fun _ => ?_
  split
  · exact getLsbD_slice _ (by omega) (by omega)
  · exact getLsbD_slice_ge _ (by omega)

theorem getLsbD_immRawSB (w : Word) (i : Nat) :
    (immRawSB w).getLsbD i =
      if i = 0 then false else if i < 5 then w.getLsbD (7 + i) else if i < 11 then w.getLsbD (20 + i)
      else if i = 11 then w.getLsbD 7 else if i = 12 then w.getLsbD 31 else false := by
  show ((w.extractLsb' 31 1 ++ w.extractLsb' 7 1 ++ w.extractLsb' 25 6 ++ w.extractLsb' 8 4 ++ 0#1 :
    BitVec (1 + 1 + 6 + 4 + 1))).getLsbD i = _
  rw [BitVec.getLsbD_append, BitVec.getLsbD_append, BitVec.getLsbD_append, BitVec.getLsbD_append]
  simp only [Nat.sub_sub, Nat.reduceAdd]
  refine ite_layer (by omega) (fun _ => by simp) fun _ =>
    ite_layer (by omega) (fun _ => getLsbD_slice _ (by omega) (by omega)) fun _ =>
    ite_layer (by omega) (fun _ => getLsbD_slice _ (by omega) (by omega)) fun _ =>
    ite_layer (by omega) (fun _ => getLsbD_slice _ (by omega) (by omega)) fun _ => ?_
  split
  · exact getLsbD_slice _ (by omega) (by omega)
  · exact getLsbD_slice_ge _ (by omega)

theorem getLsbD_immRawUJ (w : Word) (i : Nat) :
    (immRawUJ w).getLsbD i =
      if i = 0 then false else if i < 11 then w.getLsbD (20 + i) else if i = 11 then w.getLsbD 20
      else if i < 20 then w.getLsbD i else if i = 20 then w.getLsbD 31 else false := by
  show ((w.extractLsb' 31 1 ++ w.extractLsb' 12 8 ++ w.extractLsb' 20 1 ++ w.extractLsb' 21 10 ++ 0#1 :
    BitVec (1 + 8 + 1 + 10 + 1))).getLsbD i = _
  rw [BitVec.getLsbD_append, BitVec.getLsbD_append, BitVec.getLsbD_append, BitVec.getLsbD_append]
  simp only [Nat.sub_sub, Nat.reduceAdd]
  refine ite_layer (by omega) (fun _ => by simp) fun _ =>
    ite_layer (by omega) (fun _ => getLsbD_slice _ (by omega) (by omega)) fun _ =>
    ite_layer (by omega) (fun _ => getLsbD_slice _ (by omega) (by omega)) fun _ =>
    ite_layer (by omega) (fun _ => getLsbD_slice _ (by omega) (by omega)) fun _ => ?_
  split
  · exact getLsbD_slice _ (by omega) (by omega)
  · exact getLsbD_slice_ge _ (by omega)

theorem getLsbD_immRawU (w : Word) (i : Nat) :
    (immRawU w).getLsbD i = if i < 12 then false else w.getLsbD i := by
  show ((w.extractLsb' 12 20 ++ 0#12 : BitVec (20 + 12))).getLsbD i = _
  rw [BitVec.getLsbD_append]
  exact ite_layer .rfl (fun _ => by simp) fun _ => getLsbD_slice_top _ (by omega) (by omega)

/-! ### The fields of an encoded word

Each is read off the layout: the field's bits are one case of the chain. -/

@[simp] theorem opcodeField_encodeR (f7 : BitVec 7) (f3 : BitVec 3) (rd rs1 rs2 : RegId) : opcodeField (encodeR f7 f3 rd rs1 rs2) = 0b0110011#7 := by
  apply BitVec.eq_of_getLsbD_eq; intro i hi
  rw [opcodeField, getLsbD_slice _ hi rfl, getLsbD_encodeR, if_pos (by omega), Nat.zero_add]
@[simp] theorem rdField_encodeR (f7 : BitVec 7) (f3 : BitVec 3) (rd rs1 rs2 : RegId) : rdField (encodeR f7 f3 rd rs1 rs2) = rd := by
  apply BitVec.eq_of_getLsbD_eq; intro i hi
  rw [rdField, getLsbD_slice _ hi rfl, getLsbD_encodeR, if_neg (by omega), if_pos (by omega), Nat.add_sub_cancel_left]
@[simp] theorem funct3Field_encodeR (f7 : BitVec 7) (f3 : BitVec 3) (rd rs1 rs2 : RegId) : funct3Field (encodeR f7 f3 rd rs1 rs2) = f3 := by
  apply BitVec.eq_of_getLsbD_eq; intro i hi
  rw [funct3Field, getLsbD_slice _ hi rfl, getLsbD_encodeR, if_neg (by omega), if_neg (by omega), if_pos (by omega), Nat.add_sub_cancel_left]
@[simp] theorem rs1Field_encodeR (f7 : BitVec 7) (f3 : BitVec 3) (rd rs1 rs2 : RegId) : rs1Field (encodeR f7 f3 rd rs1 rs2) = rs1 := by
  apply BitVec.eq_of_getLsbD_eq; intro i hi
  rw [rs1Field, getLsbD_slice _ hi rfl, getLsbD_encodeR, if_neg (by omega), if_neg (by omega), if_neg (by omega), if_pos (by omega), Nat.add_sub_cancel_left]
@[simp] theorem rs2Field_encodeR (f7 : BitVec 7) (f3 : BitVec 3) (rd rs1 rs2 : RegId) : rs2Field (encodeR f7 f3 rd rs1 rs2) = rs2 := by
  apply BitVec.eq_of_getLsbD_eq; intro i hi
  rw [rs2Field, getLsbD_slice _ hi rfl, getLsbD_encodeR, if_neg (by omega), if_neg (by omega), if_neg (by omega), if_neg (by omega), if_pos (by omega), Nat.add_sub_cancel_left]
@[simp] theorem funct7Field_encodeR (f7 : BitVec 7) (f3 : BitVec 3) (rd rs1 rs2 : RegId) : funct7Field (encodeR f7 f3 rd rs1 rs2) = f7 := by
  apply BitVec.eq_of_getLsbD_eq; intro i hi
  rw [funct7Field, getLsbD_slice _ hi rfl, getLsbD_encodeR, if_neg (by omega), if_neg (by omega), if_neg (by omega), if_neg (by omega), if_neg (by omega), Nat.add_sub_cancel_left]

@[simp] theorem opcodeField_encodeI (op : BitVec 7) (f3 : BitVec 3) (rd rs1 : RegId) (imm : BitVec 12) : opcodeField (encodeI op f3 rd rs1 imm) = op := by
  apply BitVec.eq_of_getLsbD_eq; intro i hi
  rw [opcodeField, getLsbD_slice _ hi rfl, getLsbD_encodeI, if_pos (by omega), Nat.zero_add]
@[simp] theorem rdField_encodeI (op : BitVec 7) (f3 : BitVec 3) (rd rs1 : RegId) (imm : BitVec 12) : rdField (encodeI op f3 rd rs1 imm) = rd := by
  apply BitVec.eq_of_getLsbD_eq; intro i hi
  rw [rdField, getLsbD_slice _ hi rfl, getLsbD_encodeI, if_neg (by omega), if_pos (by omega), Nat.add_sub_cancel_left]
@[simp] theorem funct3Field_encodeI (op : BitVec 7) (f3 : BitVec 3) (rd rs1 : RegId) (imm : BitVec 12) : funct3Field (encodeI op f3 rd rs1 imm) = f3 := by
  apply BitVec.eq_of_getLsbD_eq; intro i hi
  rw [funct3Field, getLsbD_slice _ hi rfl, getLsbD_encodeI, if_neg (by omega), if_neg (by omega), if_pos (by omega), Nat.add_sub_cancel_left]
@[simp] theorem rs1Field_encodeI (op : BitVec 7) (f3 : BitVec 3) (rd rs1 : RegId) (imm : BitVec 12) : rs1Field (encodeI op f3 rd rs1 imm) = rs1 := by
  apply BitVec.eq_of_getLsbD_eq; intro i hi
  rw [rs1Field, getLsbD_slice _ hi rfl, getLsbD_encodeI, if_neg (by omega), if_neg (by omega), if_neg (by omega), if_pos (by omega), Nat.add_sub_cancel_left]
@[simp] theorem immRawI_encodeI (op : BitVec 7) (f3 : BitVec 3) (rd rs1 : RegId) (imm : BitVec 12) : immRawI (encodeI op f3 rd rs1 imm) = imm := by
  apply BitVec.eq_of_getLsbD_eq; intro i hi
  rw [immRawI, getLsbD_slice _ hi rfl, getLsbD_encodeI, if_neg (by omega), if_neg (by omega), if_neg (by omega), if_neg (by omega), Nat.add_sub_cancel_left]

@[simp] theorem opcodeField_encodeS (f3 : BitVec 3) (rs1 rs2 : RegId) (imm : BitVec 12) : opcodeField (encodeS f3 rs1 rs2 imm) = 0b0100011#7 := by
  apply BitVec.eq_of_getLsbD_eq; intro i hi
  rw [opcodeField, getLsbD_slice _ hi rfl, getLsbD_encodeS, if_pos (by omega), Nat.zero_add]
@[simp] theorem funct3Field_encodeS (f3 : BitVec 3) (rs1 rs2 : RegId) (imm : BitVec 12) : funct3Field (encodeS f3 rs1 rs2 imm) = f3 := by
  apply BitVec.eq_of_getLsbD_eq; intro i hi
  rw [funct3Field, getLsbD_slice _ hi rfl, getLsbD_encodeS, if_neg (by omega), if_neg (by omega), if_pos (by omega), Nat.add_sub_cancel_left]
@[simp] theorem rs1Field_encodeS (f3 : BitVec 3) (rs1 rs2 : RegId) (imm : BitVec 12) : rs1Field (encodeS f3 rs1 rs2 imm) = rs1 := by
  apply BitVec.eq_of_getLsbD_eq; intro i hi
  rw [rs1Field, getLsbD_slice _ hi rfl, getLsbD_encodeS, if_neg (by omega), if_neg (by omega), if_neg (by omega), if_pos (by omega), Nat.add_sub_cancel_left]
@[simp] theorem rs2Field_encodeS (f3 : BitVec 3) (rs1 rs2 : RegId) (imm : BitVec 12) : rs2Field (encodeS f3 rs1 rs2 imm) = rs2 := by
  apply BitVec.eq_of_getLsbD_eq; intro i hi
  rw [rs2Field, getLsbD_slice _ hi rfl, getLsbD_encodeS, if_neg (by omega), if_neg (by omega), if_neg (by omega), if_neg (by omega), if_pos (by omega), Nat.add_sub_cancel_left]

@[simp] theorem opcodeField_encodeSB (f3 : BitVec 3) (rs1 rs2 : RegId) (imm : BitVec 13) : opcodeField (encodeSB f3 rs1 rs2 imm) = 0b1100011#7 := by
  apply BitVec.eq_of_getLsbD_eq; intro i hi
  rw [opcodeField, getLsbD_slice _ hi rfl, getLsbD_encodeSB, if_pos (by omega), Nat.zero_add]
@[simp] theorem funct3Field_encodeSB (f3 : BitVec 3) (rs1 rs2 : RegId) (imm : BitVec 13) : funct3Field (encodeSB f3 rs1 rs2 imm) = f3 := by
  apply BitVec.eq_of_getLsbD_eq; intro i hi
  rw [funct3Field, getLsbD_slice _ hi rfl, getLsbD_encodeSB, if_neg (by omega), if_neg (by omega), if_neg (by omega), if_pos (by omega), Nat.add_sub_cancel_left]
@[simp] theorem rs1Field_encodeSB (f3 : BitVec 3) (rs1 rs2 : RegId) (imm : BitVec 13) : rs1Field (encodeSB f3 rs1 rs2 imm) = rs1 := by
  apply BitVec.eq_of_getLsbD_eq; intro i hi
  rw [rs1Field, getLsbD_slice _ hi rfl, getLsbD_encodeSB, if_neg (by omega), if_neg (by omega), if_neg (by omega), if_neg (by omega), if_pos (by omega), Nat.add_sub_cancel_left]
@[simp] theorem rs2Field_encodeSB (f3 : BitVec 3) (rs1 rs2 : RegId) (imm : BitVec 13) : rs2Field (encodeSB f3 rs1 rs2 imm) = rs2 := by
  apply BitVec.eq_of_getLsbD_eq; intro i hi
  rw [rs2Field, getLsbD_slice _ hi rfl, getLsbD_encodeSB, if_neg (by omega), if_neg (by omega), if_neg (by omega), if_neg (by omega), if_neg (by omega), if_pos (by omega), Nat.add_sub_cancel_left]

@[simp] theorem opcodeField_encodeU (rd : RegId) (imm20 : BitVec 20) : opcodeField (encodeU rd imm20) = 0b0110111#7 := by
  apply BitVec.eq_of_getLsbD_eq; intro i hi
  rw [opcodeField, getLsbD_slice _ hi rfl, getLsbD_encodeU, if_pos (by omega), Nat.zero_add]
@[simp] theorem rdField_encodeU (rd : RegId) (imm20 : BitVec 20) : rdField (encodeU rd imm20) = rd := by
  apply BitVec.eq_of_getLsbD_eq; intro i hi
  rw [rdField, getLsbD_slice _ hi rfl, getLsbD_encodeU, if_neg (by omega), if_pos (by omega), Nat.add_sub_cancel_left]

@[simp] theorem opcodeField_encodeUJ (rd : RegId) (imm : BitVec 21) : opcodeField (encodeUJ rd imm) = 0b1101111#7 := by
  apply BitVec.eq_of_getLsbD_eq; intro i hi
  rw [opcodeField, getLsbD_slice _ hi rfl, getLsbD_encodeUJ, if_pos (by omega), Nat.zero_add]
@[simp] theorem rdField_encodeUJ (rd : RegId) (imm : BitVec 21) : rdField (encodeUJ rd imm) = rd := by
  apply BitVec.eq_of_getLsbD_eq; intro i hi
  rw [rdField, getLsbD_slice _ hi rfl, getLsbD_encodeUJ, if_neg (by omega), if_pos (by omega), Nat.add_sub_cancel_left]

@[simp] theorem immRawS_encodeS (f3 : BitVec 3) (rs1 rs2 : RegId) (imm : BitVec 12) : immRawS (encodeS f3 rs1 rs2 imm) = imm := by
  apply BitVec.eq_of_getLsbD_eq; intro i hi
  rw [getLsbD_immRawS]
  split
  · rw [getLsbD_encodeS, if_neg (by omega), if_pos (by omega), Nat.add_sub_cancel_left]
  · rw [getLsbD_encodeS, if_neg (by omega), if_neg (by omega), if_neg (by omega), if_neg (by omega), if_neg (by omega),
      Nat.add_sub_cancel_left]

/-- An even branch offset (R108: no instruction bit maps to its bit 0). -/
theorem immRawSB_encodeSB (f3 : BitVec 3) (rs1 rs2 : RegId) {imm : BitVec 13} (h0 : imm.getLsbD 0 = false) :
    immRawSB (encodeSB f3 rs1 rs2 imm) = imm := by
  apply BitVec.eq_of_getLsbD_eq; intro i hi
  rw [getLsbD_immRawSB]
  split
  · next h => rw [h, h0]
  · split
    · rw [getLsbD_encodeSB, if_neg (by omega), if_neg (by omega), if_pos (by omega), Nat.add_sub_cancel_left]
    · split
      · rw [getLsbD_encodeSB, if_neg (by omega), if_neg (by omega), if_neg (by omega), if_neg (by omega), if_neg (by omega),
          if_neg (by omega), if_pos (by omega), Nat.add_sub_cancel_left]
      · split
        · next h => rw [h, getLsbD_encodeSB, if_neg (by omega), if_pos rfl]
        · rw [if_pos (by omega), show i = 12 by omega, getLsbD_encodeSB]; rfl

/-- An even jump offset (R110). -/
theorem immRawUJ_encodeUJ (rd : RegId) {imm : BitVec 21} (h0 : imm.getLsbD 0 = false) : immRawUJ (encodeUJ rd imm) = imm := by
  apply BitVec.eq_of_getLsbD_eq; intro i hi
  rw [getLsbD_immRawUJ]
  split
  · next h => rw [h, h0]
  · split
    · rw [getLsbD_encodeUJ, if_neg (by omega), if_neg (by omega), if_neg (by omega), if_neg (by omega), if_pos (by omega),
        Nat.add_sub_cancel_left]
    · split
      · next h => rw [h, getLsbD_encodeUJ, if_neg (by omega), if_neg (by omega), if_neg (by omega), if_pos rfl]
      · split
        · rw [getLsbD_encodeUJ, if_neg (by omega), if_neg (by omega), if_pos (by omega)]
        · rw [if_pos (by omega), show i = 20 by omega, getLsbD_encodeUJ]; rfl

@[simp] theorem immRawU_encodeU (rd : RegId) (imm20 : BitVec 20) : immRawU (encodeU rd imm20) = luiValue imm20 := by
  apply BitVec.eq_of_getLsbD_eq; intro i hi
  rw [getLsbD_immRawU]
  show _ = (imm20 ++ 0#12).getLsbD i
  rw [BitVec.getLsbD_append]
  refine ite_layer .rfl (fun _ => by simp) fun _ => ?_
  rw [getLsbD_encodeU, if_neg (by omega), if_neg (by omega)]

/-- `lui`'s operand is the part of its immediate above the twelve zeros (R109, R187). -/
@[simp] theorem extractLsb'_luiValue (imm20 : BitVec 20) : (luiValue imm20).extractLsb' 12 20 = imm20 := by
  apply BitVec.eq_of_getLsbD_eq; intro i hi
  rw [getLsbD_slice _ hi rfl]
  show (imm20 ++ 0#12).getLsbD (12 + i) = _
  rw [BitVec.getLsbD_append, if_neg (by omega), Nat.add_sub_cancel_left]

/-! ### Decoding an encoded word: the case and the mnemonic its codes select -/

theorem decodeFields_encodeR {f7 : BitVec 7} {f3 : BitVec 3} {m : Mnemonic} (h : resolve .r f3 f7 = some m) (rd rs1 rs2 : RegId) :
    decodeFields (encodeR f7 f3 rd rs1 rs2) = fieldsOf .r m (encodeR f7 f3 rd rs1 rs2) := by
  have hc : classify (opcodeField (encodeR f7 f3 rd rs1 rs2)) = .r := by rw [opcodeField_encodeR]; rfl
  unfold decodeFields
  rw [hc, funct3Field_encodeR, funct7Field_encodeR, h]

theorem decodeFields_encodeI {op : BitVec 7} {f : Format} {f3 : BitVec 3} {m : Mnemonic} (hc : classify op = f)
    (h : ∀ f7, resolve f f3 f7 = some m) (rd rs1 : RegId) (imm : BitVec 12) :
    decodeFields (encodeI op f3 rd rs1 imm) = fieldsOf f m (encodeI op f3 rd rs1 imm) := by
  unfold decodeFields
  rw [opcodeField_encodeI, hc, funct3Field_encodeI, h]

theorem decodeFields_encodeS {f3 : BitVec 3} {m : Mnemonic} (h : ∀ f7, resolve .s f3 f7 = some m) (rs1 rs2 : RegId)
    (imm : BitVec 12) : decodeFields (encodeS f3 rs1 rs2 imm) = fieldsOf .s m (encodeS f3 rs1 rs2 imm) := by
  have hc : classify (opcodeField (encodeS f3 rs1 rs2 imm)) = .s := by rw [opcodeField_encodeS]; rfl
  unfold decodeFields
  rw [hc, funct3Field_encodeS, h]

theorem decodeFields_encodeSB {f3 : BitVec 3} {m : Mnemonic} (h : ∀ f7, resolve .sb f3 f7 = some m) (rs1 rs2 : RegId)
    (imm : BitVec 13) : decodeFields (encodeSB f3 rs1 rs2 imm) = fieldsOf .sb m (encodeSB f3 rs1 rs2 imm) := by
  have hc : classify (opcodeField (encodeSB f3 rs1 rs2 imm)) = .sb := by rw [opcodeField_encodeSB]; rfl
  unfold decodeFields
  rw [hc, funct3Field_encodeSB, h]

theorem decodeFields_encodeU (rd : RegId) (imm20 : BitVec 20) :
    decodeFields (encodeU rd imm20) = fieldsOf .u .lui (encodeU rd imm20) := by
  have hc : classify (opcodeField (encodeU rd imm20)) = .u := by rw [opcodeField_encodeU]; rfl
  unfold decodeFields
  rw [hc]; rfl

theorem decodeFields_encodeUJ (rd : RegId) (imm : BitVec 21) :
    decodeFields (encodeUJ rd imm) = fieldsOf .uj .jal (encodeUJ rd imm) := by
  have hc : classify (opcodeField (encodeUJ rd imm)) = .uj := by rw [opcodeField_encodeUJ]; rfl
  unfold decodeFields
  rw [hc]; rfl

/-! ### Encoding the fields of a word -/

theorem encodeR_fields {w : Word} (h : opcodeField w = 0b0110011#7) :
    encodeR (funct7Field w) (funct3Field w) (rdField w) (rs1Field w) (rs2Field w) = w := by
  apply BitVec.eq_of_getLsbD_eq; intro i hi
  rw [getLsbD_encodeR]
  repeat' split
  · rw [← h]; exact getLsbD_slice _ (by omega) (by omega)
  all_goals exact getLsbD_slice _ (by omega) (by omega)

theorem encodeI_fields (w : Word) : encodeI (opcodeField w) (funct3Field w) (rdField w) (rs1Field w) (immRawI w) = w := by
  apply BitVec.eq_of_getLsbD_eq; intro i hi
  rw [getLsbD_encodeI]
  repeat' split
  all_goals exact getLsbD_slice _ (by omega) (by omega)

theorem encodeS_fields {w : Word} (h : opcodeField w = 0b0100011#7) :
    encodeS (funct3Field w) (rs1Field w) (rs2Field w) (immRawS w) = w := by
  apply BitVec.eq_of_getLsbD_eq; intro i hi
  rw [getLsbD_encodeS]
  repeat' split
  · rw [← h]; exact getLsbD_slice _ (by omega) (by omega)
  · rw [getLsbD_immRawS, if_pos (by omega)]; congr 1; omega
  · exact getLsbD_slice _ (by omega) (by omega)
  · exact getLsbD_slice _ (by omega) (by omega)
  · exact getLsbD_slice _ (by omega) (by omega)
  · rw [getLsbD_immRawS, if_neg (by omega), if_pos (by omega)]; congr 1; omega

theorem encodeSB_fields {w : Word} (h : opcodeField w = 0b1100011#7) :
    encodeSB (funct3Field w) (rs1Field w) (rs2Field w) (immRawSB w) = w := by
  apply BitVec.eq_of_getLsbD_eq; intro i hi
  rw [getLsbD_encodeSB]
  repeat' split
  · rw [← h]; exact getLsbD_slice _ (by omega) (by omega)
  · next h7 => rw [getLsbD_immRawSB, h7]; rfl
  · rw [getLsbD_immRawSB, if_neg (by omega), if_pos (by omega)]; congr 1; omega
  · exact getLsbD_slice _ (by omega) (by omega)
  · exact getLsbD_slice _ (by omega) (by omega)
  · exact getLsbD_slice _ (by omega) (by omega)
  · rw [getLsbD_immRawSB, if_neg (by omega), if_neg (by omega), if_pos (by omega)]; congr 1; omega
  · next h31 => rw [getLsbD_immRawSB, h31]; rfl
  · omega

theorem encodeU_fields {w : Word} (h : opcodeField w = 0b0110111#7) :
    encodeU (rdField w) ((immRawU w).extractLsb' 12 20) = w := by
  apply BitVec.eq_of_getLsbD_eq; intro i hi
  rw [getLsbD_encodeU]
  repeat' split
  · rw [← h]; exact getLsbD_slice _ (by omega) (by omega)
  · exact getLsbD_slice _ (by omega) (by omega)
  · rw [getLsbD_slice (j := i) _ (by omega) (by omega), getLsbD_immRawU, if_neg (by omega)]

theorem encodeUJ_fields {w : Word} (h : opcodeField w = 0b1101111#7) : encodeUJ (rdField w) (immRawUJ w) = w := by
  apply BitVec.eq_of_getLsbD_eq; intro i hi
  rw [getLsbD_encodeUJ]
  repeat' split
  · rw [← h]; exact getLsbD_slice _ (by omega) (by omega)
  · exact getLsbD_slice _ (by omega) (by omega)
  · rw [getLsbD_immRawUJ, if_neg (by omega), if_neg (by omega), if_neg (by omega), if_pos (by omega)]
  · next h20 => rw [getLsbD_immRawUJ, h20]; rfl
  · rw [getLsbD_immRawUJ, if_neg (by omega), if_pos (by omega)]; congr 1; omega
  · next h31 => rw [getLsbD_immRawUJ, h31]; rfl
  · omega

/-- The assembled branch and jump immediates are even (R108, R110). -/
theorem getLsbD_zero_immRawSB (w : Word) : (immRawSB w).getLsbD 0 = false := by rw [getLsbD_immRawSB]; rfl
theorem getLsbD_zero_immRawUJ (w : Word) : (immRawUJ w).getLsbD 0 = false := by rw [getLsbD_immRawUJ]; rfl

/-! ### Everything the decoder can answer -/

/-- The format classifier, opcode by opcode (R103, R104). -/
theorem classify_cases (op : BitVec 7) :
    (op = 0b0110011#7 ∧ classify op = .r) ∨ (op = 0b0010011#7 ∧ classify op = .iArith) ∨
    (op = 0b0000011#7 ∧ classify op = .iLoad) ∨ (op = 0b1100111#7 ∧ classify op = .iJump) ∨
    (op = 0b0100011#7 ∧ classify op = .s) ∨ (op = 0b1100011#7 ∧ classify op = .sb) ∨
    (op = 0b0110111#7 ∧ classify op = .u) ∨ (op = 0b1101111#7 ∧ classify op = .uj) ∨ classify op = .invalid := by
  revert op; decide

/-- The signal `fmt` is a function of the opcode alone (R103, R119). -/
theorem decoderOutputs_fmt (w : Word) : (decoderOutputs w).fmt = classify (opcodeField w) := by
  unfold decoderOutputs decodeFields
  cases resolve (classify (opcodeField w)) (funct3Field w) (funct7Field w) with
  | none => rfl
  | some m => cases hc : classify (opcodeField w) <;> simp [fieldsOf, Decoded.outputs, hc]

/-- The signal `mnem` is R115's, and INVALID where R104 or R116 applies (R119). -/
theorem decoderOutputs_mnem (w : Word) :
    (decoderOutputs w).mnem = resolve (classify (opcodeField w)) (funct3Field w) (funct7Field w) := by
  unfold decoderOutputs decodeFields
  cases hr : resolve (classify (opcodeField w)) (funct3Field w) (funct7Field w) with
  | none => rfl
  | some m => cases hc : classify (opcodeField w) <;> simp_all [fieldsOf, Decoded.outputs, resolve]

/-- The signal `invalid` is set exactly for the words that decode to `INVALID` (R118, R119). -/
theorem decoderOutputs_invalid_iff (w : Word) :
    (decoderOutputs w).invalid = true ↔ resolve (classify (opcodeField w)) (funct3Field w) (funct7Field w) = none := by
  simp only [DecoderOutputs.invalid, decoderOutputs_fmt, decoderOutputs_mnem, Bool.or_eq_true, beq_iff_eq, Option.isNone_iff_eq_none,
    or_iff_right_iff_imp]
  intro h
  rw [h]
  rfl

/-- A word decodes to an instruction exactly through a resolved mnemonic and its format's fields. -/
theorem decodeWord_ok {w : Word} {i : Instr} (h : decodeWord w = .ok i) :
    ∃ m, resolve (classify (opcodeField w)) (funct3Field w) (funct7Field w) = some m ∧
      (fieldsOf (classify (opcodeField w)) m w).instr = some i := by
  unfold decodeWord at h
  split at h
  · next j hj =>
    cases h
    unfold decodeFields at hj
    split at hj
    · next m hm => exact ⟨m, hm, hj⟩
    · cases hj
  · split at h <;> cases h

theorem decodeWord_of_instr {w : Word} {i : Instr} (h : (decodeFields w).instr = some i) : decodeWord w = .ok i := by
  simp [decodeWord, h]

end Sys2Proof
end

