-- ==== Sys2Proof/Laws/Ports.lean ====
section
/-! SUPPORT. Port decode and the order of interception (spec/20_memory.md R64, R65), each said once. -/

namespace Sys2Proof.Machine

theorem portOf_portAddress (p : Port) : portOf (portAddress p) = some p := by
  rcases p with p | p | _ | _
  · cases p <;> rfl
  · cases p <;> rfl
  · rfl
  · rfl

/-- Port decode compares the whole address (R64). -/
theorem portOf_eq_some_iff (ea : Word) (p : Port) : portOf ea = some p ↔ ea = portAddress p := by
  constructor
  · intro h
    have := List.find?_some h
    simpa using (beq_iff_eq.mp this).symm
  · rintro rfl
    exact portOf_portAddress p

theorem accessKind_load_vrLoad_iff (ea : Word) (p : LoadPort) :
    accessKind .load ea = .vrLoad p ↔ ea = portAddress (.load p) := by
  rw [← portOf_eq_some_iff]
  unfold accessKind
  rcases portOf ea with _ | ⟨_ | _ | _ | _⟩ <;> simp

/-- A load is a virtual-routine load at the two read ports, and plain at every other address (R65). -/
theorem accessKind_load_cases (ea : Word) :
    (∃ p, ea = portAddress (.load p) ∧ accessKind .load ea = .vrLoad p) ∨
      ((∀ p, ea ≠ portAddress (.load p)) ∧ accessKind .load ea = .plain) := by
  by_cases h : ∃ p, ea = portAddress (.load p)
  · obtain ⟨p, h⟩ := h
    exact .inl ⟨p, h, (accessKind_load_vrLoad_iff ea p).mpr h⟩
  · refine .inr ⟨fun p hp => h ⟨p, hp⟩, ?_⟩
    unfold accessKind
    rcases hq : portOf ea with _ | ⟨p | p | _ | _⟩
    · rfl
    · rfl
    · exact absurd ⟨p, (portOf_eq_some_iff _ _).mp hq⟩ h
    · rfl
    · rfl

/-- A store is a virtual-routine store at the seven store ports, a malloc request at 0x0830, and plain at every other address
(R65). -/
theorem accessKind_store_cases (ea : Word) :
    (∃ p, ea = portAddress (.store p) ∧ accessKind .store ea = .vrStore p) ∨
      (ea = portAddress .heapMalloc ∧ accessKind .store ea = .malloc) ∨
      ((∀ p, ea ≠ portAddress (.store p)) ∧ ea ≠ portAddress .heapMalloc ∧ accessKind .store ea = .plain) := by
  by_cases h : ∃ p, ea = portAddress (.store p)
  · obtain ⟨p, rfl⟩ := h
    exact .inl ⟨p, rfl, by unfold accessKind; rw [portOf_portAddress]⟩
  · by_cases hm : ea = portAddress .heapMalloc
    · exact .inr (.inl ⟨hm, by subst hm; rfl⟩)
    · refine .inr (.inr ⟨fun p hp => h ⟨p, hp⟩, hm, ?_⟩)
      unfold accessKind
      rcases hq : portOf ea with _ | ⟨p | p | _ | _⟩
      · rfl
      · exact absurd ⟨p, (portOf_eq_some_iff _ _).mp hq⟩ h
      · rfl
      · exact absurd ((portOf_eq_some_iff _ _).mp hq) hm
      · rfl

@[simp] theorem loadPortAt_portAddress (p : LoadPort) : loadPortAt (portAddress (.load p)) = p := by
  cases p <;> rfl

/-- A port address is no storage: it routes as unmapped (R63). -/
theorem route_portAddress (p : Port) : route (portAddress p) = .unmapped := by
  rcases p with p | p | _ | _
  · cases p <;> rfl
  · cases p <;> rfl
  · rfl
  · rfl

end Sys2Proof.Machine
end

