-- ==== Sys2Proof/Laws/Exec.lean ====
section
/-! SUPPORT. What the shared operations behind the meanings do, case by case, and the one inversion lemma of `exec` and of `step`:
everything a cycle can do. Later proofs cite these and unfold no meaning. -/

namespace Sys2Proof.Machine

/-! ### Loads (42_load_store.md R200) -/

/-- At a read port with a value supplied, a load takes it. -/
theorem loadOp_console {w : Width} {ext : Word → Word} {rd rs1 : RegId} {imm : BitVec 12} {s t : State} {p : LoadPort}
    {raw : Word} (ha : s.effectiveAddress rs1 imm = portAddress (.load p)) (hi : (s.setPending true).hostIn p = some (raw, t)) :
    loadOp w ext rd rs1 imm s = .next (((t.setPending false).writeReg rd (ext raw)).advancePc) := by
  simp only [loadOp, ha, (accessKind_load_vrLoad_iff _ p).mpr rfl, AccessKind.isVirtualLoad, State.setPending_pendingVirtualLoad,
    if_true, loadPortAt_portAddress, consoleLoad, hi]

/-- At a read port with no value of its kind, a load has no successor (R309). -/
theorem loadOp_blocked {w : Width} {ext : Word → Word} {rd rs1 : RegId} {imm : BitVec 12} {s : State} {p : LoadPort}
    (ha : s.effectiveAddress rs1 imm = portAddress (.load p)) (hi : (s.setPending true).hostIn p = none) :
    loadOp w ext rd rs1 imm s = .fault (.consoleInputBlocked p) := by
  simp only [loadOp, ha, (accessKind_load_vrLoad_iff _ p).mpr rfl, AccessKind.isVirtualLoad, State.setPending_pendingVirtualLoad,
    if_true, loadPortAt_portAddress, consoleLoad, hi]

/-- At any other address a load is plain: it takes the value in memory, or ends the run. -/
theorem loadOp_plain {w : Width} {ext : Word → Word} {rd rs1 : RegId} {imm : BitVec 12} {s : State}
    (ha : ∀ p, s.effectiveAddress rs1 imm ≠ portAddress (.load p)) :
    loadOp w ext rd rs1 imm s = plainLoad (s.effectiveAddress rs1 imm) w ext rd (s.setPending false) := by
  rcases accessKind_load_cases (s.effectiveAddress rs1 imm) with ⟨p, h, -⟩ | ⟨-, h⟩
  · exact absurd h (ha p)
  · simp only [loadOp, h, AccessKind.isVirtualLoad, State.setPending_pendingVirtualLoad, Bool.false_eq_true, if_false]

/-! ### Stores (42_load_store.md R201) -/

theorem storeOp_port {w : Width} {rs1 rs2 : RegId} {imm : BitVec 12} {s : State} {p : StorePort}
    (ha : s.effectiveAddress rs1 imm = portAddress (.store p)) :
    storeOp w rs1 rs2 imm s = .next (storePortEffect p (maskToWidth w (s.x rs2)) s) := by
  have : accessKind .store (portAddress (.store p)) = .vrStore p := by unfold accessKind; rw [portOf_portAddress]
  simp only [storeOp, ha, this]

theorem storeOp_malloc {w : Width} {rs1 rs2 : RegId} {imm : BitVec 12} {s : State}
    (ha : s.effectiveAddress rs1 imm = portAddress .heapMalloc) :
    storeOp w rs1 rs2 imm s = .next ((s.mallocRequest (maskToWidth w (s.x rs2))).advancePc) := by
  have : accessKind .store (portAddress .heapMalloc) = .malloc := rfl
  simp only [storeOp, ha, this]

theorem storeOp_plain {w : Width} {rs1 rs2 : RegId} {imm : BitVec 12} {s : State}
    (hp : ∀ p, s.effectiveAddress rs1 imm ≠ portAddress (.store p)) (hm : s.effectiveAddress rs1 imm ≠ portAddress .heapMalloc) :
    storeOp w rs1 rs2 imm s = .next (plainStore (s.effectiveAddress rs1 imm) w (s.x rs2) s) := by
  rcases accessKind_store_cases (s.effectiveAddress rs1 imm) with ⟨p, h, -⟩ | ⟨h, -⟩ | ⟨-, -, h⟩
  · exact absurd h (hp p)
  · exact absurd h hm
  · simp only [storeOp, h]

/-! ### Everything an instruction can do -/

/-- The effects a cycle's instruction can have (70_reset_and_hazards.md R337). -/
inductive Effect (s : State) : State → Prop
  /-- a register write, discarded for `x0`, and a new `pc`: the register instructions, branches and jumps -/
  | register (r : RegId) (v p : Word) : Effect s ((s.writeReg r v).setPc p)
  /-- a plain load -/
  | load (r : RegId) (v : Word) : Effect s (((s.setPending false).writeReg r v).advancePc)
  /-- a console read: the next input value is consumed -/
  | console (i : InputValue) (rest : List InputValue) (r : RegId) (v : Word) (h : s.input = i :: rest) :
    Effect s ((((s.setInput rest).setPending false).writeReg r v).advancePc)
  /-- a plain store of up to four bytes -/
  | store (ea : Word) (bs : List Byte) (hlen : bs.length ≤ 4) :
    Effect s ((s.setMem (Memory.writeAll s.mem (writeStrobes ea bs))).advancePc)
  /-- a console event -/
  | emit (e : Event) : Effect s ((s.emit e).advancePc)
  /-- a malloc request -/
  | malloc (v : Word) : Effect s ((s.mallocRequest v).advancePc)
  /-- a termination at execute: the halt port, or an access with a byte beyond the heap -/
  | raise (b : Bool) (hb : b = false ∨ b = s.pendingVirtualLoad) (c : Cause)
    (hc : c = .halt ∨ ∃ ea, c = .addressFault ea ∧ ∃ i, i < 4 ∧ 0xD700 ≤ (ea + BitVec.ofNat 32 i).toNat) :
    Effect s ((s.setPending b).raise c)

/-- An access with a byte beyond the heap has one among its first four. -/
theorem beyond_of_touchesBeyond {ea : Word} {w : Width} (h : touchesBeyond ea w.bytes = true) :
    ∃ i, i < 4 ∧ 0xD700 ≤ (ea + BitVec.ofNat 32 i).toNat := by
  obtain ⟨i, hi, hb⟩ := (touchesBeyond_iff _ _).mp h
  exact ⟨i, by cases w <;> simp only [Width.bytes] at hi <;> omega, hb⟩

theorem setPending_self (s : State) : s.setPending s.pendingVirtualLoad = s := rfl

theorem loadOp_effect {w : Width} {ext : Word → Word} {rd rs1 : RegId} {imm : BitVec 12} {s t : State}
    (h : loadOp w ext rd rs1 imm s = .next t) : Effect s t := by
  rcases accessKind_load_cases (s.effectiveAddress rs1 imm) with ⟨p, ha, -⟩ | ⟨ha, -⟩
  · cases hi : (s.setPending true).hostIn p with
    | none => rw [loadOp_blocked ha hi] at h; cases h
    | some rt =>
      obtain ⟨raw, u⟩ := rt
      rw [loadOp_console ha hi] at h
      cases h
      rcases State.hostIn_some hi with ⟨c, rest, -, hs, -, rfl⟩ | ⟨i, rest, -, hs, -, rfl⟩
      · exact .console _ rest rd _ hs
      · exact .console _ rest rd _ hs
  · rw [loadOp_plain ha] at h
    unfold plainLoad at h
    split at h
    · cases h; exact .load rd _
    · next hm =>
      cases h
      exact .raise false (.inl rfl) _ (.inr ⟨_, rfl, beyond_of_touchesBeyond ((State.memRead_eq_none_iff _ _ _).mp hm)⟩)

theorem plainStore_effect (ea : Word) (w : Width) (v : Word) (s : State) : Effect s (plainStore ea w v s) := by
  unfold plainStore
  split
  · next u hu =>
    rw [(State.memWrite_eq_some hu).2]
    exact .store ea _ (by rw [lowBytes_length]; cases w <;> simp [Width.bytes])
  · next hm =>
    have ht : touchesBeyond ea w.bytes = true := by
      unfold State.memWrite at hm
      split at hm
      · assumption
      · cases hm
    have := Effect.raise (s := s) s.pendingVirtualLoad (.inr rfl) (.addressFault ea)
      (.inr ⟨ea, rfl, beyond_of_touchesBeyond ht⟩)
    rwa [setPending_self] at this

theorem storePortEffect_effect (p : StorePort) (v : Word) (s : State) : Effect s (storePortEffect p v s) := by
  cases p with
  | writeChar => exact .emit _
  | writeSint => exact .emit _
  | writeUhex => exact .emit _
  | dumpPc => exact .emit _
  | dumpRegs => exact .emit _
  | halt =>
    have := Effect.raise (s := s) s.pendingVirtualLoad (.inr rfl) .halt (.inl rfl)
    rwa [setPending_self] at this
  | dumpMem =>
    unfold storePortEffect
    dsimp only
    split
    · exact .emit _
    · next hb =>
      have hv := (State.byteAt_eq_none_iff s v).mp hb
      have := Effect.raise (s := s) s.pendingVirtualLoad (.inr rfl) (.addressFault v)
        (.inr ⟨v, rfl, 0, by omega, by simpa using hv⟩)
      rwa [setPending_self] at this

theorem storeOp_effect {w : Width} {rs1 rs2 : RegId} {imm : BitVec 12} {s t : State}
    (h : storeOp w rs1 rs2 imm s = .next t) : Effect s t := by
  rcases accessKind_store_cases (s.effectiveAddress rs1 imm) with ⟨p, ha, -⟩ | ⟨ha, -⟩ | ⟨hp, hm, -⟩
  · rw [storeOp_port ha] at h; cases h; exact storePortEffect_effect _ _ _
  · rw [storeOp_malloc ha] at h; cases h; exact .malloc _
  · rw [storeOp_plain hp hm] at h; cases h; exact plainStore_effect _ _ _ _

theorem branchOp_effect {cond : Word → Word → Bool} {rs1 rs2 : RegId} {imm : BitVec 13} {s t : State}
    (h : branchOp cond rs1 rs2 imm s = .next t) : Effect s t := by
  unfold branchOp at h
  cases h
  split
  · exact Effect.register 0 0 _
  · exact Effect.register 0 0 _

/-- Everything `exec` can do: when it answers a next state, that state is one of `Effect`'s. -/
theorem exec_effect {i : Instr} {s t : State} (h : exec i s = .next t) : Effect s t := by
  cases i with
  | add rd rs1 rs2 => cases h; exact .register rd _ _
  | sub rd rs1 rs2 => cases h; exact .register rd _ _
  | xor rd rs1 rs2 => cases h; exact .register rd _ _
  | or rd rs1 rs2 => cases h; exact .register rd _ _
  | and rd rs1 rs2 => cases h; exact .register rd _ _
  | sll rd rs1 rs2 => cases h; exact .register rd _ _
  | srl rd rs1 rs2 => cases h; exact .register rd _ _
  | sra rd rs1 rs2 => cases h; exact .register rd _ _
  | slt rd rs1 rs2 => cases h; exact .register rd _ _
  | sltu rd rs1 rs2 => cases h; exact .register rd _ _
  | addi rd rs1 imm => cases h; exact .register rd _ _
  | slti rd rs1 imm => cases h; exact .register rd _ _
  | sltiu rd rs1 imm => cases h; exact .register rd _ _
  | xori rd rs1 imm => cases h; exact .register rd _ _
  | ori rd rs1 imm => cases h; exact .register rd _ _
  | andi rd rs1 imm => cases h; exact .register rd _ _
  | lui rd imm20 => cases h; exact .register rd _ _
  | lb rd rs1 imm => exact loadOp_effect h
  | lh rd rs1 imm => exact loadOp_effect h
  | lw rd rs1 imm => exact loadOp_effect h
  | lbu rd rs1 imm => exact loadOp_effect h
  | lhu rd rs1 imm => exact loadOp_effect h
  | sb rs1 rs2 imm => exact storeOp_effect h
  | sh rs1 rs2 imm => exact storeOp_effect h
  | sw rs1 rs2 imm => exact storeOp_effect h
  | beq rs1 rs2 imm => exact branchOp_effect h
  | bne rs1 rs2 imm => exact branchOp_effect h
  | blt rs1 rs2 imm => exact branchOp_effect h
  | bge rs1 rs2 imm => exact branchOp_effect h
  | bltu rs1 rs2 imm => exact branchOp_effect h
  | bgeu rs1 rs2 imm => exact branchOp_effect h
  | jal rd imm => cases h; exact .register rd _ _
  | jalr rd rs1 imm => cases h; exact .register rd _ _

/-! ### Fetch and step -/

/-- Everything fetch can answer (R335, R336). -/
theorem State.fetchInstr_cases (s : State) :
    (0x3FF < s.pc.toNat ∧ s.fetchInstr = .error .pcExit) ∨
    (s.pc.toNat ≤ 0x3FF ∧ s.pc.toNat % 4 ≠ 0 ∧ s.fetchInstr = .error (.misalignedFetch s.pc)) ∨
    ((s.pc.toNat ≤ 0x3FF ∧ s.pc.toNat % 4 = 0) ∧
      ((∃ r, decodeWord s.fetchWord = .error r ∧ s.fetchInstr = .error (.invalidInstruction s.fetchWord)) ∨
       (∃ i, decodeWord s.fetchWord = .ok i ∧ s.fetchInstr = .ok i))) := by
  have e : s.fetchCheck =
      if s.pc.toNat > 0x3FF then some .pcExit
      else if s.pc.toNat % 4 ≠ 0 then some (.misalignedFetch s.pc) else none := rfl
  unfold State.fetchInstr
  by_cases h1 : s.pc.toNat > 0x3FF
  · exact .inl ⟨h1, by rw [e, if_pos h1]⟩
  · by_cases h2 : s.pc.toNat % 4 ≠ 0
    · exact .inr (.inl ⟨by omega, h2, by rw [e, if_neg h1, if_pos h2]⟩)
    · refine .inr (.inr ⟨by omega, ?_⟩)
      rw [e, if_neg h1, if_neg h2]
      cases hd : decodeWord s.fetchWord with
      | error r => exact .inl ⟨r, rfl, rfl⟩
      | ok i => exact .inr ⟨i, rfl, rfl⟩

/-- Everything `step` can do: when it answers a next state, the machine was RUNNING, and the cycle either terminated before execute
(R336, R303) or executed the instruction decoded at a valid `pc`. -/
theorem step_cases {s t : State} (h : step s = .next t) :
    s.runState = .running ∧
    ((0x3FF < s.pc.toNat ∧ t = s.beginCycle.raise .pcExit) ∨
     (s.pc.toNat ≤ 0x3FF ∧ s.pc.toNat % 4 ≠ 0 ∧ t = s.beginCycle.raise (.misalignedFetch s.pc)) ∨
     ((s.pc.toNat ≤ 0x3FF ∧ s.pc.toNat % 4 = 0) ∧
       ((∃ r, decodeWord s.fetchWord = .error r ∧ t = s.beginCycle.raise (.invalidInstruction s.fetchWord)) ∨
        (∃ i, decodeWord s.fetchWord = .ok i ∧ exec i s.beginCycle = .next t)))) := by
  unfold step at h
  split at h
  · cases h
  · next hr =>
    refine ⟨hr, ?_⟩
    rcases s.beginCycle.fetchInstr_cases with ⟨hp, e⟩ | ⟨hp, ha, e⟩ | ⟨hp, ⟨r, hd, e⟩ | ⟨i, hd, e⟩⟩ <;> rw [e] at h
    · cases h; exact .inl ⟨hp, rfl⟩
    · cases h; exact .inr (.inl ⟨hp, ha, rfl⟩)
    · cases h; exact .inr (.inr ⟨hp, .inl ⟨r, hd, rfl⟩⟩)
    · exact .inr (.inr ⟨hp, .inr ⟨i, hd, h⟩⟩)

/-- The same in `Effect`'s terms: every next state of a step is an effect of the cycle's start or a termination before execute. -/
theorem step_effect {s t : State} (h : step s = .next t) :
    s.runState = .running ∧ ((∃ c, t = s.beginCycle.raise c) ∨ Effect s.beginCycle t) := by
  obtain ⟨hr, ⟨-, rfl⟩ | ⟨-, -, rfl⟩ | ⟨-, ⟨r, -, rfl⟩ | ⟨i, -, hx⟩⟩⟩ := step_cases h
  · exact ⟨hr, .inl ⟨_, rfl⟩⟩
  · exact ⟨hr, .inl ⟨_, rfl⟩⟩
  · exact ⟨hr, .inl ⟨_, rfl⟩⟩
  · exact ⟨hr, .inr (exec_effect hx)⟩

end Sys2Proof.Machine
end

