-- ==== Sys2Proof/Machine/Interfaces.lean ====
section
/-! DEFINITION. The hardware interfaces of the register-file controller (spec/10_state.md R25) and of the memory address router
(20_memory.md R82), as functions from input to output signals over the state. The decoder's is `decoderOutputs` (Decode.lean,
R119), and the allocator's are `allocatorOutputs` and `allocatorCounts` (Machine/Allocator.lean, R274). Laws/Interfaces.lean
relates them to the operations the meanings use, and says that a load or store is what the router's outputs drive. -/

namespace Sys2Proof.Machine

/-! ### Register-file controller (R25) -/

structure RegFileInputs where
  ra1 : RegId
  ra2 : RegId
  we : Bool
  wa : RegId
  wd : Word
deriving DecidableEq, Repr

structure RegFileOutputs where
  rd1 : Word
  rd2 : Word
  /-- `dump[0..31]` as seen at the start of the cycle -/
  dump : List Word
deriving DecidableEq, Repr

/-- The two combinational read ports and the dump port. -/
def regFileOutputs (s : State) (i : RegFileInputs) : RegFileOutputs := ⟨s.x i.ra1, s.x i.ra2, s.dump⟩

/-- The write port, at the end of the cycle: suppressed when `wa = 0`. -/
def regFileNext (s : State) (i : RegFileInputs) : State := if i.we then s.writeReg i.wa i.wd else s

/-! ### Memory address router (R82) -/

structure RouterInputs where
  ea : Word
  size : Width
  isLoad : Bool
  isStore : Bool
  unsignedLoad : Bool
  wdata : Word
deriving DecidableEq, Repr

/-- A request to the virtual-routine unit: the port, and for a store the value `v` its routine receives
(44_ports_and_heap.md R261, R269, R270). -/
inductive VirtualRequest where
  | store (p : StorePort) (v : Word)
  | load (p : LoadPort)
deriving DecidableEq, Repr

structure RouterOutputs where
  kind : AccessKind
  fault : Bool
  /-- present for a plain load that does not fault -/
  rdata : Option Word
  /-- byte write strobes into data memory and heap -/
  strobes : List Host.Cell
  /-- the request lines to the virtual-routine unit; none is raised by a plain access or a malloc request -/
  virtual : Option VirtualRequest
  /-- the request lines to the heap allocator (R274) -/
  allocator : AllocatorRequest
deriving DecidableEq, Repr

/-- Extension of a loaded value by width and signedness (42_load_store.md R200). -/
def extendLoad (w : Width) (unsigned : Bool) (v : Word) : Word :=
  match w, unsigned with
  | .byte, false => sext8 v
  | .byte, true => zext8 v
  | .half, false => sext16 v
  | .half, true => zext16 v
  | .word, _ => v

/-- The request an access of kind `k` raises to the virtual-routine unit, `v` being the store-port value (R65, R82). -/
def AccessKind.virtualRequest (k : AccessKind) (v : Word) : Option VirtualRequest :=
  match k with
  | .vrStore p => some (.store p v)
  | .vrLoad p => some (.load p)
  | .plain | .malloc => none

/-- The request it raises to the allocator, in case 3 of R65 only (R274): `size` is the store-port value (R271, D19). -/
def AccessKind.allocatorRequest (k : AccessKind) (v : Word) : AllocatorRequest :=
  match k with
  | .malloc => ⟨some v⟩
  | .plain | .vrStore _ | .vrLoad _ => ⟨none⟩

/-- `kind` depends only on `ea` and the mnemonic class (R65, R82). -/
def routerKind (i : RouterInputs) : AccessKind :=
  if i.isLoad then accessKind .load i.ea else if i.isStore then accessKind .store i.ea else .plain

/-- `fault` (R68): a plain access with a byte beyond the heap. -/
def routerFault (i : RouterInputs) : Bool :=
  (i.isLoad || i.isStore) && routerKind i == .plain && touchesBeyond i.ea i.size.bytes

/-- The router, combinational over the memories it reads. -/
def routerOutputs (s : State) (i : RouterInputs) : RouterOutputs :=
  { kind := routerKind i
    fault := routerFault i
    rdata :=
      if i.isLoad && routerKind i == .plain then
        (s.memRead i.ea i.size.bytes).map (extendLoad i.size i.unsignedLoad)
      else none
    strobes :=
      if i.isStore && !i.isLoad && routerKind i == .plain && !routerFault i then
        writeStrobes i.ea (lowBytes i.wdata i.size.bytes)
      else []
    virtual := (routerKind i).virtualRequest (maskToWidth i.size i.wdata)
    allocator := (routerKind i).allocatorRequest (maskToWidth i.size i.wdata) }

/-! ### The units the router drives -/

/-- The allocator's cycle with the register-file controller's write of its response (44_ports_and_heap.md R274): no request, no
change. -/
def State.allocatorCycle (s : State) (r : AllocatorRequest) : State :=
  match allocatorOutputs s.bytesAllocated r with
  | some response =>
    regFileNext (s.setBytesAllocated (allocatorCounts s.bytesAllocated r)) ⟨0, 0, true, Config.mallocResultReg, response.result⟩
  | none => s

/-- The router's inputs for a store of `w` at `ea`: `wdata` is `x[rs2]` (R82). -/
def storeInputs (w : Width) (ea wdata : Word) : RouterInputs := ⟨ea, w, false, true, false, wdata⟩

/-- The router's inputs for a load of `w` at `ea`. -/
def loadInputs (w : Width) (unsigned : Bool) (ea wdata : Word) : RouterInputs := ⟨ea, w, true, false, unsigned, wdata⟩

end Sys2Proof.Machine
end

