-- ==== Sys2Proof/Laws/Interfaces.lean ====
section
/-! SUPPORT. The hardware interfaces of Machine/Interfaces.lean say what the operations behind the meanings do. -/

namespace Sys2Proof.Machine

/-- The write port writes `wa`, and nothing when `wa` is 0 or `we` is clear (10_state.md R25). -/
theorem regFileNext_x (s : State) (i : RegFileInputs) (q : RegId) :
    (regFileNext s i).x q = if i.we = true ∧ q = i.wa ∧ q ≠ 0 then i.wd else s.x q := by
  unfold regFileNext
  cases i.we
  · simp
  · simp [State.x_writeReg]

/-- The router's kind of a load is the classification the load's meaning uses (20_memory.md R65, R82). -/
theorem routerKind_load {i : RouterInputs} (h : i.isLoad = true) : routerKind i = accessKind .load i.ea := by
  simp [routerKind, h]

theorem routerKind_store {i : RouterInputs} (hl : i.isLoad = false) (hs : i.isStore = true) :
    routerKind i = accessKind .store i.ea := by
  simp [routerKind, hl, hs]

/-- For a plain load, `fault` is set exactly when `MemRead` gives no value (20_memory.md R68, R69). -/
theorem routerFault_load {s : State} {i : RouterInputs} (hl : i.isLoad = true) (hk : routerKind i = .plain) :
    routerFault i = true ↔ s.memRead i.ea i.size.bytes = none := by
  rw [State.memRead_eq_none_iff]
  simp [routerFault, hl, hk]

/-- For a plain store that does not fault, driving the strobes into memory is `MemWrite` (20_memory.md R70, R82). -/
theorem routerStrobes_store {s : State} {i : RouterInputs} (hl : i.isLoad = false) (hs : i.isStore = true)
    (hk : routerKind i = .plain) (hf : routerFault i = false) :
    s.memWrite i.ea i.size.bytes i.wdata = some (s.setMem (Memory.writeAll s.mem (routerOutputs s i).strobes)) := by
  have ht : touchesBeyond i.ea i.size.bytes = false := by simpa [routerFault, hl, hs, hk] using hf
  simp [State.memWrite, routerOutputs, ht, hl, hs, hk, hf]

/-- The plain load's result is the router's `rdata` (42_load_store.md R200, 20_memory.md R82). -/
theorem routerOutputs_rdata {s : State} {i : RouterInputs} (hl : i.isLoad = true) (hk : routerKind i = .plain) :
    (routerOutputs s i).rdata = (s.memRead i.ea i.size.bytes).map (extendLoad i.size i.unsignedLoad) := by
  simp [routerOutputs, hl, hk]

/-- The allocator answers 0 exactly when `ok` is clear: a granted pointer is never 0 (44_ports_and_heap.md R272, R274, R275). -/
theorem allocatorResponse_ptr_eq_zero_iff (counts : List Nat) (size : Word) :
    (allocatorResponse counts size).ptr = 0 ↔ (allocatorResponse counts size).ok = false := by
  rcases allocatorNext_cases counts size with ⟨-, -, e⟩ | ⟨start, hf, -, e⟩
  · simp [e]
  · rw [e]
    have hs := ((firstFit_eq_some_iff _ _ _).mp hf).1
    have hp := banksNeeded_pos size.toNat
    simp only [Bool.true_eq_false, iff_false]
    intro h0
    have := congrArg BitVec.toNat h0
    rw [bankPointer_toNat (by omega), show (0 : Word).toNat = 0 from rfl] at this
    omega

/-- The value written on a response is `ptr` whether or not `ok` is set (R272, R274). -/
@[simp] theorem allocatorResponse_result (counts : List Nat) (size : Word) :
    (allocatorResponse counts size).result = (allocatorResponse counts size).ptr := by
  unfold AllocatorResponse.result
  split
  · rfl
  · next h => exact ((allocatorResponse_ptr_eq_zero_iff counts size).mpr (by simpa using h)).symm

/-- `req` gates the allocator: while it is clear the counts, the registers and everything else are as they were (R274). -/
@[simp] theorem State.allocatorCycle_of_not_req (s : State) {r : AllocatorRequest} (h : r.req = false) :
    s.allocatorCycle r = s := by
  have hn : r.size = none := by simpa [AllocatorRequest.req] using h
  simp [State.allocatorCycle, allocatorOutputs, hn]

/-- A raised request is the malloc operation the meanings use (R271, R274). -/
@[simp] theorem State.allocatorCycle_request (s : State) (size : Word) : s.allocatorCycle ⟨some size⟩ = s.mallocRequest size := by
  simp [State.allocatorCycle, allocatorOutputs, allocatorCounts, regFileNext, State.mallocRequest]

/-- The router raises `req` exactly for a malloc request, and then `size` is `wdata` masked to the store's width (R65, R271, R274). -/
theorem routerOutputs_allocator_eq_some_iff (s : State) (i : RouterInputs) (size : Word) :
    (routerOutputs s i).allocator.size = some size ↔ routerKind i = .malloc ∧ size = maskToWidth i.size i.wdata := by
  simp only [routerOutputs]
  cases routerKind i <;> simp [AccessKind.allocatorRequest, eq_comm]

/-- What an intercepted access leaves of the router's outputs: no fault and no strobe (20_memory.md R65, R68). -/
theorem routerOutputs_of_not_plain (s : State) {i : RouterInputs} (hk : routerKind i ≠ .plain) :
    (routerOutputs s i).fault = false ∧ (routerOutputs s i).strobes = [] := by
  simp [routerOutputs, routerFault, hk]

/-- A store does what the router's outputs drive: the fault, the virtual-routine unit, or the allocator and the write strobes, of which
a store raises one at most (42_load_store.md R201, 20_memory.md R82). -/
theorem storeOp_eq_routerOutputs (w : Width) (rs1 rs2 : RegId) (imm : BitVec 12) (s : State) :
    let ea := s.effectiveAddress rs1 imm
    let o := routerOutputs s (storeInputs w ea (s.x rs2))
    storeOp w rs1 rs2 imm s = .next
      (if o.fault then s.raise (.addressFault ea)
       else match o.virtual with
         | some (.store p v) => storePortEffect p v s
         | some (.load _) | none => ((s.setMem (Memory.writeAll s.mem o.strobes)).allocatorCycle o.allocator).advancePc) := by
  intro ea o
  have hk : routerKind (storeInputs w ea (s.x rs2)) = accessKind .store ea := routerKind_store rfl rfl
  rcases accessKind_store_cases ea with ⟨p, ha, h⟩ | ⟨ha, h⟩ | ⟨hp, hm, h⟩ <;> rw [h] at hk
  · have hv : o.virtual = some (.store p (maskToWidth w (s.x rs2))) := by
      simp only [o, routerOutputs, hk]; rfl
    rw [storeOp_port ha, (routerOutputs_of_not_plain s (by simp [hk])).1, hv]
    rfl
  · have hv : o.virtual = none ∧ o.allocator = ⟨some (maskToWidth w (s.x rs2))⟩ := by
      simp only [o, routerOutputs, hk]; exact ⟨rfl, rfl⟩
    have ho := routerOutputs_of_not_plain s (i := storeInputs w ea (s.x rs2)) (by simp [hk])
    rw [storeOp_malloc ha, ho.1, ho.2, hv.1, hv.2, State.allocatorCycle_request]
    rfl
  · rw [storeOp_plain hp hm, plainStore]
    cases hf : routerFault (storeInputs w ea (s.x rs2))
    · have hw : s.memWrite ea w.bytes (s.x rs2) = some (s.setMem (Memory.writeAll s.mem o.strobes)) :=
        routerStrobes_store rfl rfl hk hf
      have ho : o.fault = false ∧ o.virtual = none ∧ o.allocator = ⟨none⟩ := by
        simp [o, routerOutputs, hf, hk, AccessKind.virtualRequest, AccessKind.allocatorRequest]
      rw [hw, ho.1, ho.2.1, ho.2.2, State.allocatorCycle_of_not_req _ rfl]
      rfl
    · have ht : touchesBeyond ea w.bytes = true := by
        unfold routerFault at hf
        rw [hk] at hf
        exact hf
      have ho : o.fault = true := hf
      simp [State.memWrite, ht, ho, ea]

/-- A load does what the router's outputs drive: the fault, the console read of a read port, or `rdata` into `rd`
(42_load_store.md R200, 20_memory.md R82). -/
theorem loadOp_eq_routerOutputs (w : Width) (unsigned : Bool) (rd rs1 : RegId) (imm : BitVec 12) (s : State) (wdata : Word) :
    let ea := s.effectiveAddress rs1 imm
    let o := routerOutputs s (loadInputs w unsigned ea wdata)
    loadOp w (extendLoad w unsigned) rd rs1 imm s =
      match o.virtual, o.rdata with
      | some (.load p), _ => consoleLoad p (extendLoad w unsigned) rd (s.setPending true)
      | _, some v => .next (((s.setPending false).writeReg rd v).advancePc)
      | _, none => .next ((s.setPending false).raise (.addressFault ea)) := by
  intro ea o
  have hk : routerKind (loadInputs w unsigned ea wdata) = accessKind .load ea := routerKind_load rfl
  rcases accessKind_load_cases ea with ⟨p, ha, h⟩ | ⟨hp, h⟩ <;> rw [h] at hk
  · have hv : o.virtual = some (.load p) := by simp [o, routerOutputs, hk, AccessKind.virtualRequest]
    have ha' : s.effectiveAddress rs1 imm = portAddress (.load p) := ha
    rw [hv]
    simp only [loadOp, ha', (accessKind_load_vrLoad_iff _ p).mpr rfl, AccessKind.isVirtualLoad, State.setPending_pendingVirtualLoad,
      if_true, loadPortAt_portAddress]
  · have hv : o.virtual = none := by simp [o, routerOutputs, hk, AccessKind.virtualRequest]
    have hr : o.rdata = (s.memRead ea w.bytes).map (extendLoad w unsigned) := routerOutputs_rdata rfl hk
    rw [loadOp_plain hp, plainLoad, hv, hr]
    show (match (s.setPending false).memRead ea w.bytes with | some v => _ | none => _) = _
    rw [show (s.setPending false).memRead ea w.bytes = s.memRead ea w.bytes by
      unfold State.memRead; rw [State.readBytes_congr fun _ _ => State.setPending_byteAt s false _]]
    cases s.memRead ea w.bytes <;> rfl

end Sys2Proof.Machine
end

