-- ==== Sys2Proof/Laws/PerInstr.lean ====
section
/-! SUPPORT. A family of statements made per instruction: the word the encoder writes matches the instruction's own row of the opcode
table (spec/30_encoding.md R117, opcode_table.json). -/

namespace Sys2Proof.Laws

/-! ### The fixed bits of every layout -/

theorem encodeR_and_mask (f7 : BitVec 7) (f3 : BitVec 3) (rd rs1 rs2 : RegId) :
    encodeR f7 f3 rd rs1 rs2 &&& 0xFE00707F#32 = encodeR f7 f3 0 0 0 := by
  show (f7 ++ rs2 ++ rs1 ++ f3 ++ rd ++ 0b0110011#7 : BitVec (7 + 5 + 5 + 3 + 5 + 7)) &&&
    (BitVec.allOnes 7 ++ 0#5 ++ 0#5 ++ BitVec.allOnes 3 ++ 0#5 ++ BitVec.allOnes 7) = _
  rw [BitVec.and_append, BitVec.and_append, BitVec.and_append, BitVec.and_append, BitVec.and_append, BitVec.and_allOnes,
    BitVec.and_allOnes, BitVec.and_allOnes, BitVec.and_zero, BitVec.and_zero, BitVec.and_zero]
  rfl

theorem encodeI_and_mask (op : BitVec 7) (f3 : BitVec 3) (rd rs1 : RegId) (imm : BitVec 12) :
    encodeI op f3 rd rs1 imm &&& 0x0000707F#32 = encodeI op f3 0 0 0 := by
  show (imm ++ rs1 ++ f3 ++ rd ++ op : BitVec (12 + 5 + 3 + 5 + 7)) &&&
    (0#12 ++ 0#5 ++ BitVec.allOnes 3 ++ 0#5 ++ BitVec.allOnes 7) = _
  rw [BitVec.and_append, BitVec.and_append, BitVec.and_append, BitVec.and_append, BitVec.and_allOnes, BitVec.and_allOnes,
    BitVec.and_zero, BitVec.and_zero, BitVec.and_zero]
  rfl

theorem encodeS_and_mask (f3 : BitVec 3) (rs1 rs2 : RegId) (imm : BitVec 12) :
    encodeS f3 rs1 rs2 imm &&& 0x0000707F#32 = encodeS f3 0 0 0 := by
  show (imm.extractLsb' 5 7 ++ rs2 ++ rs1 ++ f3 ++ imm.extractLsb' 0 5 ++ 0b0100011#7 : BitVec (7 + 5 + 5 + 3 + 5 + 7)) &&&
    (0#7 ++ 0#5 ++ 0#5 ++ BitVec.allOnes 3 ++ 0#5 ++ BitVec.allOnes 7) = _
  rw [BitVec.and_append, BitVec.and_append, BitVec.and_append, BitVec.and_append, BitVec.and_append, BitVec.and_allOnes,
    BitVec.and_allOnes, BitVec.and_zero, BitVec.and_zero, BitVec.and_zero, BitVec.and_zero]
  rfl

theorem encodeSB_and_mask (f3 : BitVec 3) (rs1 rs2 : RegId) (imm : BitVec 13) :
    encodeSB f3 rs1 rs2 imm &&& 0x0000707F#32 = encodeSB f3 0 0 0 := by
  show (imm.extractLsb' 12 1 ++ imm.extractLsb' 5 6 ++ rs2 ++ rs1 ++ f3 ++ imm.extractLsb' 1 4 ++ imm.extractLsb' 11 1 ++
    0b1100011#7 : BitVec (1 + 6 + 5 + 5 + 3 + 4 + 1 + 7)) &&&
    (0#1 ++ 0#6 ++ 0#5 ++ 0#5 ++ BitVec.allOnes 3 ++ 0#4 ++ 0#1 ++ BitVec.allOnes 7) = _
  rw [BitVec.and_append, BitVec.and_append, BitVec.and_append, BitVec.and_append, BitVec.and_append, BitVec.and_append,
    BitVec.and_append, BitVec.and_allOnes, BitVec.and_allOnes, BitVec.and_zero, BitVec.and_zero, BitVec.and_zero,
    BitVec.and_zero, BitVec.and_zero, BitVec.and_zero]
  rfl

theorem encodeU_and_mask (rd : RegId) (imm20 : BitVec 20) : encodeU rd imm20 &&& 0x0000007F#32 = encodeU 0 0 := by
  show (imm20 ++ rd ++ 0b0110111#7 : BitVec (20 + 5 + 7)) &&& (0#20 ++ 0#5 ++ BitVec.allOnes 7) = _
  rw [BitVec.and_append, BitVec.and_append, BitVec.and_allOnes, BitVec.and_zero, BitVec.and_zero]
  rfl

theorem encodeUJ_and_mask (rd : RegId) (imm : BitVec 21) : encodeUJ rd imm &&& 0x0000007F#32 = encodeUJ 0 0 := by
  show (imm.extractLsb' 20 1 ++ imm.extractLsb' 1 10 ++ imm.extractLsb' 11 1 ++ imm.extractLsb' 12 8 ++ rd ++ 0b1101111#7 :
    BitVec (1 + 10 + 1 + 8 + 5 + 7)) &&& (0#1 ++ 0#10 ++ 0#1 ++ 0#8 ++ 0#5 ++ BitVec.allOnes 7) = _
  rw [BitVec.and_append, BitVec.and_append, BitVec.and_append, BitVec.and_append, BitVec.and_append, BitVec.and_allOnes,
    BitVec.and_zero, BitVec.and_zero, BitVec.and_zero, BitVec.and_zero, BitVec.and_zero]
  rfl

/-! ### The family -/

/-- The encoder's word matches the instruction's row. -/
def EncodeMatchesRow.Statement (i : Instr) : Prop := i.mnemonic.matchesWord (encode i) = true

theorem EncodeMatchesRow.add (rd rs1 rs2 : RegId) : EncodeMatchesRow.Statement (.add rd rs1 rs2) :=
  beq_iff_eq.mpr (encodeR_and_mask _ _ rd rs1 rs2)
theorem EncodeMatchesRow.sub (rd rs1 rs2 : RegId) : EncodeMatchesRow.Statement (.sub rd rs1 rs2) :=
  beq_iff_eq.mpr (encodeR_and_mask _ _ rd rs1 rs2)
theorem EncodeMatchesRow.xor (rd rs1 rs2 : RegId) : EncodeMatchesRow.Statement (.xor rd rs1 rs2) :=
  beq_iff_eq.mpr (encodeR_and_mask _ _ rd rs1 rs2)
theorem EncodeMatchesRow.or (rd rs1 rs2 : RegId) : EncodeMatchesRow.Statement (.or rd rs1 rs2) :=
  beq_iff_eq.mpr (encodeR_and_mask _ _ rd rs1 rs2)
theorem EncodeMatchesRow.and (rd rs1 rs2 : RegId) : EncodeMatchesRow.Statement (.and rd rs1 rs2) :=
  beq_iff_eq.mpr (encodeR_and_mask _ _ rd rs1 rs2)
theorem EncodeMatchesRow.sll (rd rs1 rs2 : RegId) : EncodeMatchesRow.Statement (.sll rd rs1 rs2) :=
  beq_iff_eq.mpr (encodeR_and_mask _ _ rd rs1 rs2)
theorem EncodeMatchesRow.srl (rd rs1 rs2 : RegId) : EncodeMatchesRow.Statement (.srl rd rs1 rs2) :=
  beq_iff_eq.mpr (encodeR_and_mask _ _ rd rs1 rs2)
theorem EncodeMatchesRow.sra (rd rs1 rs2 : RegId) : EncodeMatchesRow.Statement (.sra rd rs1 rs2) :=
  beq_iff_eq.mpr (encodeR_and_mask _ _ rd rs1 rs2)
theorem EncodeMatchesRow.slt (rd rs1 rs2 : RegId) : EncodeMatchesRow.Statement (.slt rd rs1 rs2) :=
  beq_iff_eq.mpr (encodeR_and_mask _ _ rd rs1 rs2)
theorem EncodeMatchesRow.sltu (rd rs1 rs2 : RegId) : EncodeMatchesRow.Statement (.sltu rd rs1 rs2) :=
  beq_iff_eq.mpr (encodeR_and_mask _ _ rd rs1 rs2)
theorem EncodeMatchesRow.addi (rd rs1 : RegId) (imm : BitVec 12) : EncodeMatchesRow.Statement (.addi rd rs1 imm) :=
  beq_iff_eq.mpr (encodeI_and_mask _ _ rd rs1 imm)
theorem EncodeMatchesRow.slti (rd rs1 : RegId) (imm : BitVec 12) : EncodeMatchesRow.Statement (.slti rd rs1 imm) :=
  beq_iff_eq.mpr (encodeI_and_mask _ _ rd rs1 imm)
theorem EncodeMatchesRow.sltiu (rd rs1 : RegId) (imm : BitVec 12) : EncodeMatchesRow.Statement (.sltiu rd rs1 imm) :=
  beq_iff_eq.mpr (encodeI_and_mask _ _ rd rs1 imm)
theorem EncodeMatchesRow.xori (rd rs1 : RegId) (imm : BitVec 12) : EncodeMatchesRow.Statement (.xori rd rs1 imm) :=
  beq_iff_eq.mpr (encodeI_and_mask _ _ rd rs1 imm)
theorem EncodeMatchesRow.ori (rd rs1 : RegId) (imm : BitVec 12) : EncodeMatchesRow.Statement (.ori rd rs1 imm) :=
  beq_iff_eq.mpr (encodeI_and_mask _ _ rd rs1 imm)
theorem EncodeMatchesRow.andi (rd rs1 : RegId) (imm : BitVec 12) : EncodeMatchesRow.Statement (.andi rd rs1 imm) :=
  beq_iff_eq.mpr (encodeI_and_mask _ _ rd rs1 imm)
theorem EncodeMatchesRow.lui (rd : RegId) (imm20 : BitVec 20) : EncodeMatchesRow.Statement (.lui rd imm20) :=
  beq_iff_eq.mpr (encodeU_and_mask rd imm20)
theorem EncodeMatchesRow.lb (rd rs1 : RegId) (imm : BitVec 12) : EncodeMatchesRow.Statement (.lb rd rs1 imm) :=
  beq_iff_eq.mpr (encodeI_and_mask _ _ rd rs1 imm)
theorem EncodeMatchesRow.lh (rd rs1 : RegId) (imm : BitVec 12) : EncodeMatchesRow.Statement (.lh rd rs1 imm) :=
  beq_iff_eq.mpr (encodeI_and_mask _ _ rd rs1 imm)
theorem EncodeMatchesRow.lw (rd rs1 : RegId) (imm : BitVec 12) : EncodeMatchesRow.Statement (.lw rd rs1 imm) :=
  beq_iff_eq.mpr (encodeI_and_mask _ _ rd rs1 imm)
theorem EncodeMatchesRow.lbu (rd rs1 : RegId) (imm : BitVec 12) : EncodeMatchesRow.Statement (.lbu rd rs1 imm) :=
  beq_iff_eq.mpr (encodeI_and_mask _ _ rd rs1 imm)
theorem EncodeMatchesRow.lhu (rd rs1 : RegId) (imm : BitVec 12) : EncodeMatchesRow.Statement (.lhu rd rs1 imm) :=
  beq_iff_eq.mpr (encodeI_and_mask _ _ rd rs1 imm)
theorem EncodeMatchesRow.sb (rs1 rs2 : RegId) (imm : BitVec 12) : EncodeMatchesRow.Statement (.sb rs1 rs2 imm) :=
  beq_iff_eq.mpr (encodeS_and_mask _ rs1 rs2 imm)
theorem EncodeMatchesRow.sh (rs1 rs2 : RegId) (imm : BitVec 12) : EncodeMatchesRow.Statement (.sh rs1 rs2 imm) :=
  beq_iff_eq.mpr (encodeS_and_mask _ rs1 rs2 imm)
theorem EncodeMatchesRow.sw (rs1 rs2 : RegId) (imm : BitVec 12) : EncodeMatchesRow.Statement (.sw rs1 rs2 imm) :=
  beq_iff_eq.mpr (encodeS_and_mask _ rs1 rs2 imm)
theorem EncodeMatchesRow.beq (rs1 rs2 : RegId) (imm : BitVec 13) : EncodeMatchesRow.Statement (.beq rs1 rs2 imm) :=
  beq_iff_eq.mpr (encodeSB_and_mask _ rs1 rs2 imm)
theorem EncodeMatchesRow.bne (rs1 rs2 : RegId) (imm : BitVec 13) : EncodeMatchesRow.Statement (.bne rs1 rs2 imm) :=
  beq_iff_eq.mpr (encodeSB_and_mask _ rs1 rs2 imm)
theorem EncodeMatchesRow.blt (rs1 rs2 : RegId) (imm : BitVec 13) : EncodeMatchesRow.Statement (.blt rs1 rs2 imm) :=
  beq_iff_eq.mpr (encodeSB_and_mask _ rs1 rs2 imm)
theorem EncodeMatchesRow.bge (rs1 rs2 : RegId) (imm : BitVec 13) : EncodeMatchesRow.Statement (.bge rs1 rs2 imm) :=
  beq_iff_eq.mpr (encodeSB_and_mask _ rs1 rs2 imm)
theorem EncodeMatchesRow.bltu (rs1 rs2 : RegId) (imm : BitVec 13) : EncodeMatchesRow.Statement (.bltu rs1 rs2 imm) :=
  beq_iff_eq.mpr (encodeSB_and_mask _ rs1 rs2 imm)
theorem EncodeMatchesRow.bgeu (rs1 rs2 : RegId) (imm : BitVec 13) : EncodeMatchesRow.Statement (.bgeu rs1 rs2 imm) :=
  beq_iff_eq.mpr (encodeSB_and_mask _ rs1 rs2 imm)
theorem EncodeMatchesRow.jal (rd : RegId) (imm : BitVec 21) : EncodeMatchesRow.Statement (.jal rd imm) :=
  beq_iff_eq.mpr (encodeUJ_and_mask rd imm)
theorem EncodeMatchesRow.jalr (rd rs1 : RegId) (imm : BitVec 12) : EncodeMatchesRow.Statement (.jalr rd rs1 imm) :=
  beq_iff_eq.mpr (encodeI_and_mask _ _ rd rs1 imm)

end Sys2Proof.Laws
end

