-- ==== Sys2Proof/Laws/Safety.lean ====
section
/-! SUPPORT. How the terms of Safety.lean follow from the shape of an outcome, and the values of the immediates as numbers. -/

namespace Sys2Proof.Machine

/-! ### Completion and termination -/

/-- A register write and the default advance complete with nothing else changed. -/
theorem completesWith_of_advancePc {i : Instr} {s : State} {rd : RegId} {v : Word}
    (h : exec i s = .next ((s.writeReg rd v).advancePc)) : CompletesWith i s rd v (s.pc + 4) :=
  ⟨_, h, fun q => by rw [State.advancePc_x, State.x_writeReg], by simp, fun a => by simp, by simp [State.SameRest]⟩

/-- A register write and a new `pc` complete with nothing else changed. -/
theorem completesWith_of_setPc {i : Instr} {s : State} {rd : RegId} {v pc : Word}
    (h : exec i s = .next ((s.writeReg rd v).setPc pc)) : CompletesWith i s rd v pc :=
  ⟨_, h, fun q => by rw [State.setPc_x, State.x_writeReg], rfl, fun a => by simp, by simp [State.SameRest]⟩

/-- An emitted event and the default advance complete with nothing else changed. -/
theorem completesEmitting_of_advancePc {i : Instr} {s : State} {e : Event} (h : exec i s = .next ((s.emit e).advancePc)) :
    CompletesEmitting i s e :=
  ⟨_, h, rfl, rfl, fun _ => rfl, fun _ => rfl, rfl, rfl, rfl, rfl⟩

/-- A `raise` ends the run; a pending flag set or cleared before it does not show. -/
theorem endsRun_of_raise {o : Host.Outcome State Fault Refusal} {s : State} {c : Cause} (b : Bool)
    (h : o = .next ((s.setPending b).raise c)) : EndsRun o s c := by
  refine ⟨_, h, by simp, by simp [RunState.exitStatus], ?_, by simp, fun q => by simp, fun a => by simp, by simp, by simp⟩
  rw [State.raise_output]
  split
  · rfl
  · simp

/-! ### Immediates as numbers (30_encoding.md R111, R112) -/

theorem sext12_toInt (v : BitVec 12) : (sext12 v).toInt = v.toInt := BitVec.toInt_signExtend_of_le (by omega)
theorem sext13_toInt (v : BitVec 13) : (sext13 v).toInt = v.toInt := BitVec.toInt_signExtend_of_le (by omega)
theorem sext21_toInt (v : BitVec 21) : (sext21 v).toInt = v.toInt := BitVec.toInt_signExtend_of_le (by omega)

theorem sext12_toNat (v : BitVec 12) :
    (sext12 v).toNat = if v.toNat < 2 ^ 11 then v.toNat else v.toNat + (2 ^ 32 - 2 ^ 12) := by
  unfold sext12
  rw [BitVec.toNat_signExtend]
  have := v.isLt
  simp only [BitVec.msb_eq_decide, BitVec.toNat_setWidth]
  split <;> split <;> simp_all <;> omega

theorem getLsbD_sext12 (v : BitVec 12) {k : Nat} (h : k < 32) : (sext12 v).getLsbD k = v.getLsbD (min k 11) := by
  unfold sext12
  rw [BitVec.getLsbD_signExtend, decide_eq_true h, Bool.true_and]
  split
  · congr 1; omega
  · rw [BitVec.msb_eq_getLsbD_last]; congr 1; omega

/-- Wrapping addition is the exact sum of the operands as integers, reduced (00_scope.md R10). -/
theorem add_eq_ofInt (a b : Word) : a + b = BitVec.ofInt 32 (a.toInt + b.toInt) := by
  rw [← BitVec.toInt_inj, BitVec.toInt_add, BitVec.toInt_ofInt]

theorem sub_eq_ofInt (a b : Word) : a - b = BitVec.ofInt 32 (a.toInt - b.toInt) := by
  rw [← BitVec.toInt_inj, BitVec.toInt_sub, BitVec.toInt_ofInt]

/-! ### Values of several bytes as numbers -/

theorem bytesNumber_lt (bs : List Byte) : bytesNumber bs < 2 ^ (8 * bs.length) := by
  induction bs with
  | nil => decide
  | cons b bs ih =>
    simp only [bytesNumber, List.length_cons, Nat.mul_add, Nat.pow_add]
    have := b.isLt
    omega

/-- The word of up to four bytes in memory order is their number (20_memory.md R69, R72). -/
theorem littleEndian_toNat {bs : List Byte} (h : bs.length ≤ 4) : (littleEndian bs).toNat = bytesNumber bs := by
  induction bs with
  | nil => rfl
  | cons b bs ih =>
    simp only [List.length_cons] at h
    have hb := bytesNumber_lt bs
    have hp : 2 ^ (8 * bs.length) ≤ 2 ^ 24 := Nat.pow_le_pow_right (by omega) (by omega)
    have hbl := b.isLt
    simp only [littleEndian, bytesNumber, BitVec.toNat_or, BitVec.toNat_setWidth, BitVec.toNat_shiftLeft, ih (by omega)]
    rw [Nat.mod_eq_of_lt (by omega : b.toNat < 2 ^ 32), Nat.shiftLeft_eq, Nat.mod_eq_of_lt (by omega), Nat.or_comm,
      Nat.mul_comm, ← Nat.two_pow_add_eq_or_of_lt (by omega)]
    omega

/-- The bytes at consecutive addresses are what a plain read of them gives (R69). -/
theorem State.readBytes_eq_some {s : State} {a : Word} {n : Nat} {bs : List Byte} (hl : bs.length = n)
    (h : ∀ k, k < n → s.byteAt (a + BitVec.ofNat 32 k) = bs[k]?) : s.readBytes a n = some bs := by
  cases hr : s.readBytes a n with
  | none =>
    rw [State.readBytes_eq_none_iff, touchesBeyond_iff] at hr
    obtain ⟨i, hi, hb⟩ := hr
    rw [← State.byteAt_eq_none_iff s, h i hi, List.getElem?_eq_none_iff] at hb
    omega
  | some cs =>
    congr 1
    apply List.ext_getElem?
    intro i
    by_cases hi : i < n
    · rw [State.readBytes_getElem? hr hi, h i hi]
    · rw [List.getElem?_eq_none (by rw [State.readBytes_length hr]; omega), List.getElem?_eq_none (by omega)]

/-! ### The forms of loads and stores -/

theorem sext8_eq (v : Word) : sext8 v = extendedValue 1 true (v.toNat % 2 ^ 8) := by
  unfold sext8 extendedValue
  apply BitVec.eq_of_toInt_eq
  have := v.isLt
  rw [BitVec.toInt_signExtend_of_le (by omega), BitVec.toInt_eq_toNat_cond]
  simp only [BitVec.toNat_setWidth]
  split <;> split <;> simp_all [BitVec.toInt_eq_toNat_cond] <;> omega

theorem sext16_eq (v : Word) : sext16 v = extendedValue 2 true (v.toNat % 2 ^ 16) := by
  unfold sext16 extendedValue
  apply BitVec.eq_of_toInt_eq
  have := v.isLt
  rw [BitVec.toInt_signExtend_of_le (by omega), BitVec.toInt_eq_toNat_cond]
  simp only [BitVec.toNat_setWidth]
  split <;> split <;> simp_all [BitVec.toInt_eq_toNat_cond] <;> omega

theorem word_eq_extendedValue (v : Word) : v = extendedValue 4 true (v.toNat % 2 ^ 32) := by
  unfold extendedValue
  apply BitVec.eq_of_toNat_eq
  have := v.isLt
  split
  · simp only [BitVec.toNat_ofInt]; omega
  · simp only [BitVec.toNat_ofNat]; omega

theorem zext8_eq (v : Word) : zext8 v = extendedValue 1 false (v.toNat % 2 ^ 8) := by
  apply BitVec.eq_of_toNat_eq; simp [zext8, extendedValue]

theorem zext16_eq (v : Word) : zext16 v = extendedValue 2 false (v.toNat % 2 ^ 16) := by
  apply BitVec.eq_of_toNat_eq; simp [zext16, extendedValue]

/-- Every load is the common operation at its width and extension (42_load_store.md R200). -/
theorem exec_loadForms {L : (RegId → RegId → BitVec 12 → Instr) × Nat × Bool} (hL : L ∈ loadForms) :
    ∃ w ext, L.2.1 = Width.bytes w ∧ (∀ rd rs1 imm s, exec (L.1 rd rs1 imm) s = loadOp w ext rd rs1 imm s) ∧
      ∀ v : Word, ext v = extendedValue L.2.1 L.2.2 (v.toNat % 2 ^ (8 * L.2.1)) := by
  simp only [loadForms, List.mem_cons, List.mem_nil_iff, or_false] at hL
  rcases hL with rfl | rfl | rfl | rfl | rfl
  · exact ⟨.byte, sext8, rfl, fun _ _ _ _ => rfl, sext8_eq⟩
  · exact ⟨.half, sext16, rfl, fun _ _ _ _ => rfl, sext16_eq⟩
  · exact ⟨.word, id, rfl, fun _ _ _ _ => rfl, word_eq_extendedValue⟩
  · exact ⟨.byte, zext8, rfl, fun _ _ _ _ => rfl, zext8_eq⟩
  · exact ⟨.half, zext16, rfl, fun _ _ _ _ => rfl, zext16_eq⟩

/-- Every store is the common operation at its width, and hands a port its low bytes (42_load_store.md R201). -/
theorem exec_storeForms {S : (RegId → RegId → BitVec 12 → Instr) × Nat} (hS : S ∈ storeForms) :
    ∃ w, S.2 = Width.bytes w ∧ (∀ rs1 rs2 imm s, exec (S.1 rs1 rs2 imm) s = storeOp w rs1 rs2 imm s) ∧
      ∀ v : Word, maskToWidth w v = BitVec.ofNat 32 (v.toNat % 2 ^ (8 * S.2)) := by
  simp only [storeForms, List.mem_cons, List.mem_nil_iff, or_false] at hS
  rcases hS with rfl | rfl | rfl
  · exact ⟨.byte, rfl, fun _ _ _ _ => rfl, fun v => BitVec.eq_of_toNat_eq (by simp [maskToWidth, zext8])⟩
  · exact ⟨.half, rfl, fun _ _ _ _ => rfl, fun v => BitVec.eq_of_toNat_eq (by simp [maskToWidth, zext16])⟩
  · exact ⟨.word, rfl, fun _ _ _ _ => rfl, fun v => BitVec.eq_of_toNat_eq (by
      have := v.isLt
      simp only [maskToWidth, BitVec.toNat_ofNat]
      omega)⟩

theorem not_port_of_not_mem_interceptedStores {ea : Word} (h : ea ∉ interceptedStores) :
    (∀ p, ea ≠ portAddress (.store p)) ∧ ea ≠ portAddress .heapMalloc := by
  simp only [interceptedStores, List.mem_cons, List.mem_nil_iff, or_false, not_or] at h
  refine ⟨fun p => ?_, h.2.2.2.2.2.2.2⟩
  cases p
  · exact h.1
  · exact h.2.1
  · exact h.2.2.1
  · exact h.2.2.2.1
  · exact h.2.2.2.2.1
  · exact h.2.2.2.2.2.1
  · exact h.2.2.2.2.2.2.1

theorem storable_iff (a : Word) : Storable a ↔ (route a).storeCell ≠ none := by
  rw [route_storeCell_eq]
  unfold Storable
  split <;> simp_all

end Sys2Proof.Machine
end

