-- ==== Sys2Proof/Machine/Assembly.lean ====
section
/-! DEFINITION. Assembler syntax (spec/30_encoding.md R122, R123; 00_scope.md R18): destination first, registers `x0` to `x31`,
offsets in bytes, and no pseudo-instruction. -/

namespace Sys2Proof.Machine

/-- A register's name (R18). -/
def registerName (r : RegId) : List Byte := ascii "x" ++ decimal r.toNat

/-- The register a name stands for: `x<n>`, or the source's `r<n>` (R18, R122). -/
def registerOfName (t : List Byte) : Option RegId :=
  ((List.range 32).map (BitVec.ofNat 5)).find? (fun r =>
    t == registerName r || t == ascii "r" ++ decimal r.toNat)

/-- A mnemonic as it is written (R3). -/
def mnemonicName : Mnemonic → List Byte
  | .add => ascii "add"
  | .sub => ascii "sub"
  | .xor => ascii "xor"
  | .or => ascii "or"
  | .and => ascii "and"
  | .sll => ascii "sll"
  | .srl => ascii "srl"
  | .sra => ascii "sra"
  | .slt => ascii "slt"
  | .sltu => ascii "sltu"
  | .addi => ascii "addi"
  | .slti => ascii "slti"
  | .sltiu => ascii "sltiu"
  | .xori => ascii "xori"
  | .ori => ascii "ori"
  | .andi => ascii "andi"
  | .lui => ascii "lui"
  | .lb => ascii "lb"
  | .lh => ascii "lh"
  | .lw => ascii "lw"
  | .lbu => ascii "lbu"
  | .lhu => ascii "lhu"
  | .sb => ascii "sb"
  | .sh => ascii "sh"
  | .sw => ascii "sw"
  | .beq => ascii "beq"
  | .bne => ascii "bne"
  | .blt => ascii "blt"
  | .bge => ascii "bge"
  | .bltu => ascii "bltu"
  | .bgeu => ascii "bgeu"
  | .jal => ascii "jal"
  | .jalr => ascii "jalr"

/-- `mnem rd, rs1, rs2` -/
def asmR (m : Mnemonic) (rd rs1 rs2 : RegId) : List Byte :=
  mnemonicName m ++ ascii " " ++ registerName rd ++ ascii ", " ++ registerName rs1 ++ ascii ", " ++ registerName rs2
/-- `mnem rd, rs1, imm` -/
def asmI (m : Mnemonic) (rd rs1 : RegId) (imm : BitVec 12) : List Byte :=
  mnemonicName m ++ ascii " " ++ registerName rd ++ ascii ", " ++ registerName rs1 ++ ascii ", " ++ signedDecimal (sext12 imm)
/-- `mnem reg, imm(rs1)`: a load's or `jalr`'s destination, or a store's value register `rs2` -/
def asmMem (m : Mnemonic) (reg rs1 : RegId) (imm : BitVec 12) : List Byte :=
  mnemonicName m ++ ascii " " ++ registerName reg ++ ascii ", " ++ signedDecimal (sext12 imm) ++ ascii "(" ++
    registerName rs1 ++ ascii ")"
/-- `mnem rs1, rs2, offset` -/
def asmSB (m : Mnemonic) (rs1 rs2 : RegId) (imm : BitVec 13) : List Byte :=
  mnemonicName m ++ ascii " " ++ registerName rs1 ++ ascii ", " ++ registerName rs2 ++ ascii ", " ++ signedDecimal (sext13 imm)

/-- The assembly text of an instruction (R122). -/
def assembly : Instr → List Byte
  | .add rd rs1 rs2 => asmR .add rd rs1 rs2
  | .sub rd rs1 rs2 => asmR .sub rd rs1 rs2
  | .xor rd rs1 rs2 => asmR .xor rd rs1 rs2
  | .or rd rs1 rs2 => asmR .or rd rs1 rs2
  | .and rd rs1 rs2 => asmR .and rd rs1 rs2
  | .sll rd rs1 rs2 => asmR .sll rd rs1 rs2
  | .srl rd rs1 rs2 => asmR .srl rd rs1 rs2
  | .sra rd rs1 rs2 => asmR .sra rd rs1 rs2
  | .slt rd rs1 rs2 => asmR .slt rd rs1 rs2
  | .sltu rd rs1 rs2 => asmR .sltu rd rs1 rs2
  | .addi rd rs1 imm => asmI .addi rd rs1 imm
  | .slti rd rs1 imm => asmI .slti rd rs1 imm
  | .sltiu rd rs1 imm => asmI .sltiu rd rs1 imm
  | .xori rd rs1 imm => asmI .xori rd rs1 imm
  | .ori rd rs1 imm => asmI .ori rd rs1 imm
  | .andi rd rs1 imm => asmI .andi rd rs1 imm
  | .lui rd imm20 => mnemonicName .lui ++ ascii " " ++ registerName rd ++ ascii ", 0x" ++ hexLower (imm20.setWidth 32)
  | .lb rd rs1 imm => asmMem .lb rd rs1 imm
  | .lh rd rs1 imm => asmMem .lh rd rs1 imm
  | .lw rd rs1 imm => asmMem .lw rd rs1 imm
  | .lbu rd rs1 imm => asmMem .lbu rd rs1 imm
  | .lhu rd rs1 imm => asmMem .lhu rd rs1 imm
  | .sb rs1 rs2 imm => asmMem .sb rs2 rs1 imm
  | .sh rs1 rs2 imm => asmMem .sh rs2 rs1 imm
  | .sw rs1 rs2 imm => asmMem .sw rs2 rs1 imm
  | .beq rs1 rs2 imm => asmSB .beq rs1 rs2 imm
  | .bne rs1 rs2 imm => asmSB .bne rs1 rs2 imm
  | .blt rs1 rs2 imm => asmSB .blt rs1 rs2 imm
  | .bge rs1 rs2 imm => asmSB .bge rs1 rs2 imm
  | .bltu rs1 rs2 imm => asmSB .bltu rs1 rs2 imm
  | .bgeu rs1 rs2 imm => asmSB .bgeu rs1 rs2 imm
  | .jal rd imm => mnemonicName .jal ++ ascii " " ++ registerName rd ++ ascii ", " ++ signedDecimal (sext21 imm)
  | .jalr rd rs1 imm => asmMem .jalr rd rs1 imm

end Sys2Proof.Machine
end

