-- ==== Sys2Proof/Tests/Slice0.lean ====
section
/-! SUPPORT. Tests of the model. Expected values are spec/95_test_vectors.md's: V<n> is its vector, E<n> its worked example. The last
part shows, for each obligation that has hypotheses, concrete states and operands that meet all of them together. -/

namespace Sys2Proof.Tests

open Sys2Proof.Machine

/-! ### Building small states -/

def setRegs : State → List (RegId × Word) → State
  | s, [] => s
  | s, (r, v) :: l => setRegs (s.writeReg r v) l

/-- The vectors' states: `pc` 0x100, the registers and bytes listed, everything else 0. -/
def registers (regs : List (RegId × Word)) (bytes : List Host.Cell) : State :=
  setRegs ((State.reset.setPc 0x100).setMem (Memory.writeAll [] bytes)) regs

/-- The same with a word at `pc`. -/
def vector (w : Nat) (regs : List (RegId × Word)) (bytes : List Host.Cell) : State :=
  (registers regs bytes).withFetchWord 32 w

def after (o : Host.Outcome State Fault Refusal) : Option State :=
  match o with
  | .next t => some t
  | .fault _ => none
  | .refused _ => none

/-- One register and `pc` after one step. -/
def result (s : State) (r : RegId) : Option (Word × Word) := (after (step s)).map (fun t => (t.x r, t.pc))

/-- The events of one step, and `pc` after it. -/
def events (s : State) : Option (List Event × Word) := (after (step s)).map (fun t => (t.output, t.pc))

/-- The listed memory after one step, from 0x0400 up. -/
def stored (s : State) : Option (List Host.Cell) := (after (step s)).map (fun t => t.mem.filter (fun c => 0x0400 ≤ c.1))

/-- The run state and `pc` after one step. -/
def ending (s : State) : Option (RunState × Word) := (after (step s)).map (fun t => (t.runState, t.pc))

/-- Vectors V44 to V60's data bytes. -/
def dataBytes : List Host.Cell :=
  [(0x400, 0x80), (0x402, 0x34), (0x403, 0x12), (0x404, 0x78), (0x405, 0x56), (0x406, 0x34), (0x407, 0x12)]

/-- Counts `cs`, then free banks. -/
def counts (cs : List Nat) : List Nat := cs ++ List.replicate (128 - cs.length) 0

/-! ### Well-formedness -/

theorem test_wellFormed_refuses_odd_beq : ¬ (Instr.beq 1 2 0x0003).WellFormed := by decide
theorem test_wellFormed_refuses_odd_bne : ¬ (Instr.bne 1 2 0x1FFF).WellFormed := by decide
theorem test_wellFormed_refuses_odd_blt : ¬ (Instr.blt 1 2 0x0001).WellFormed := by decide
theorem test_wellFormed_refuses_odd_bge : ¬ (Instr.bge 1 2 0x0801).WellFormed := by decide
theorem test_wellFormed_refuses_odd_bltu : ¬ (Instr.bltu 1 2 0x0005).WellFormed := by decide
theorem test_wellFormed_refuses_odd_bgeu : ¬ (Instr.bgeu 1 2 0x0FFF).WellFormed := by decide
theorem test_wellFormed_refuses_odd_jal : ¬ (Instr.jal 1 0x00021).WellFormed := by decide
theorem test_wellFormed_accepts : (Instr.beq 0 0 0x1000).WellFormed ∧ (Instr.jal 31 0x1FFFFE).WellFormed ∧
    (Instr.jalr 1 1 0xFFF).WellFormed := by decide

/-! ### Decoding, each word written out from the layout of its format (R105 to R110) and the codes of R115 -/

/-- funct7, rs2, rs1, funct3, rd, opcode (R105). -/
theorem test_decode_register_forms :
    decodeTableWord 32 (0b0000000#7 ++ 0b00011#5 ++ 0b00010#5 ++ 0b000#3 ++ 0b00001#5 ++ 0b0110011#7).toNat = some (.add 1 2 3) ∧
    decodeTableWord 32 (0b0100000#7 ++ 0b00011#5 ++ 0b00010#5 ++ 0b000#3 ++ 0b00001#5 ++ 0b0110011#7).toNat = some (.sub 1 2 3) ∧
    decodeTableWord 32 (0b0000000#7 ++ 0b00011#5 ++ 0b00010#5 ++ 0b100#3 ++ 0b00001#5 ++ 0b0110011#7).toNat = some (.xor 1 2 3) ∧
    decodeTableWord 32 (0b0000000#7 ++ 0b00011#5 ++ 0b00010#5 ++ 0b110#3 ++ 0b00001#5 ++ 0b0110011#7).toNat = some (.or 1 2 3) ∧
    decodeTableWord 32 (0b0000000#7 ++ 0b00011#5 ++ 0b00010#5 ++ 0b111#3 ++ 0b00001#5 ++ 0b0110011#7).toNat = some (.and 1 2 3) ∧
    decodeTableWord 32 (0b0000000#7 ++ 0b00011#5 ++ 0b00010#5 ++ 0b001#3 ++ 0b00001#5 ++ 0b0110011#7).toNat = some (.sll 1 2 3) ∧
    decodeTableWord 32 (0b0000000#7 ++ 0b00011#5 ++ 0b00010#5 ++ 0b101#3 ++ 0b00001#5 ++ 0b0110011#7).toNat = some (.srl 1 2 3) ∧
    decodeTableWord 32 (0b0100000#7 ++ 0b00011#5 ++ 0b00010#5 ++ 0b101#3 ++ 0b00001#5 ++ 0b0110011#7).toNat = some (.sra 1 2 3) ∧
    decodeTableWord 32 (0b0000000#7 ++ 0b00011#5 ++ 0b00010#5 ++ 0b010#3 ++ 0b00001#5 ++ 0b0110011#7).toNat = some (.slt 1 2 3) ∧
    decodeTableWord 32 (0b0000000#7 ++ 0b00011#5 ++ 0b00010#5 ++ 0b011#3 ++ 0b00001#5 ++ 0b0110011#7).toNat = some (.sltu 1 2 3) := by
  decide

/-- imm[11:0], rs1, funct3, rd, opcode (R106). -/
theorem test_decode_immediate_forms :
    decodeTableWord 32 (0b101000000011#12 ++ 0b00010#5 ++ 0b000#3 ++ 0b00001#5 ++ 0b0010011#7).toNat = some (.addi 1 2 0xA03) ∧
    decodeTableWord 32 (0b101000000011#12 ++ 0b00010#5 ++ 0b010#3 ++ 0b00001#5 ++ 0b0010011#7).toNat = some (.slti 1 2 0xA03) ∧
    decodeTableWord 32 (0b101000000011#12 ++ 0b00010#5 ++ 0b011#3 ++ 0b00001#5 ++ 0b0010011#7).toNat = some (.sltiu 1 2 0xA03) ∧
    decodeTableWord 32 (0b101000000011#12 ++ 0b00010#5 ++ 0b100#3 ++ 0b00001#5 ++ 0b0010011#7).toNat = some (.xori 1 2 0xA03) ∧
    decodeTableWord 32 (0b101000000011#12 ++ 0b00010#5 ++ 0b110#3 ++ 0b00001#5 ++ 0b0010011#7).toNat = some (.ori 1 2 0xA03) ∧
    decodeTableWord 32 (0b101000000011#12 ++ 0b00010#5 ++ 0b111#3 ++ 0b00001#5 ++ 0b0010011#7).toNat = some (.andi 1 2 0xA03) := by
  decide

/-- imm[31:12], rd, opcode (R109). -/
theorem test_decode_lui :
    decodeTableWord 32 (0b10000000000000000011#20 ++ 0b00111#5 ++ 0b0110111#7).toNat = some (.lui 7 0x80003) := by decide

/-- imm[11:0], rs1, funct3, rd, opcode (R106). -/
theorem test_decode_loads :
    decodeTableWord 32 (0b100000000001#12 ++ 0b00010#5 ++ 0b000#3 ++ 0b00001#5 ++ 0b0000011#7).toNat = some (.lb 1 2 0x801) ∧
    decodeTableWord 32 (0b100000000001#12 ++ 0b00010#5 ++ 0b001#3 ++ 0b00001#5 ++ 0b0000011#7).toNat = some (.lh 1 2 0x801) ∧
    decodeTableWord 32 (0b100000000001#12 ++ 0b00010#5 ++ 0b010#3 ++ 0b00001#5 ++ 0b0000011#7).toNat = some (.lw 1 2 0x801) ∧
    decodeTableWord 32 (0b100000000001#12 ++ 0b00010#5 ++ 0b100#3 ++ 0b00001#5 ++ 0b0000011#7).toNat = some (.lbu 1 2 0x801) ∧
    decodeTableWord 32 (0b100000000001#12 ++ 0b00010#5 ++ 0b101#3 ++ 0b00001#5 ++ 0b0000011#7).toNat = some (.lhu 1 2 0x801) := by
  decide

/-- imm[11:5], rs2, rs1, funct3, imm[4:0], opcode (R107). -/
theorem test_decode_stores :
    decodeTableWord 32 (0b1000001#7 ++ 0b00011#5 ++ 0b00010#5 ++ 0b000#3 ++ 0b00101#5 ++ 0b0100011#7).toNat = some (.sb 2 3 0x825) ∧
    decodeTableWord 32 (0b1000001#7 ++ 0b00011#5 ++ 0b00010#5 ++ 0b001#3 ++ 0b00101#5 ++ 0b0100011#7).toNat = some (.sh 2 3 0x825) ∧
    decodeTableWord 32 (0b1000001#7 ++ 0b00011#5 ++ 0b00010#5 ++ 0b010#3 ++ 0b00101#5 ++ 0b0100011#7).toNat = some (.sw 2 3 0x825) := by
  decide

/-- imm[12], imm[10:5], rs2, rs1, funct3, imm[4:1], imm[11], opcode (R108). -/
theorem test_decode_branches :
    decodeTableWord 32 (0b1#1 ++ 0b101010#6 ++ 0b00010#5 ++ 0b00001#5 ++ 0b000#3 ++ 0b0011#4 ++ 0b0#1 ++ 0b1100011#7).toNat =
      some (.beq 1 2 0b1010101000110) ∧
    decodeTableWord 32 (0b0#1 ++ 0b010101#6 ++ 0b00010#5 ++ 0b00001#5 ++ 0b001#3 ++ 0b0011#4 ++ 0b1#1 ++ 0b1100011#7).toNat =
      some (.bne 1 2 0b0101010100110) ∧
    decodeTableWord 32 (0b0#1 ++ 0b000000#6 ++ 0b00010#5 ++ 0b00001#5 ++ 0b100#3 ++ 0b0100#4 ++ 0b0#1 ++ 0b1100011#7).toNat =
      some (.blt 1 2 8) ∧
    decodeTableWord 32 (0b0#1 ++ 0b000000#6 ++ 0b00010#5 ++ 0b00001#5 ++ 0b101#3 ++ 0b0100#4 ++ 0b0#1 ++ 0b1100011#7).toNat =
      some (.bge 1 2 8) ∧
    decodeTableWord 32 (0b0#1 ++ 0b000000#6 ++ 0b00010#5 ++ 0b00001#5 ++ 0b110#3 ++ 0b0100#4 ++ 0b0#1 ++ 0b1100011#7).toNat =
      some (.bltu 1 2 8) ∧
    decodeTableWord 32 (0b0#1 ++ 0b000000#6 ++ 0b00010#5 ++ 0b00001#5 ++ 0b111#3 ++ 0b0100#4 ++ 0b0#1 ++ 0b1100011#7).toNat =
      some (.bgeu 1 2 8) := by decide

/-- imm[20], imm[10:1], imm[11], imm[19:12], rd, opcode (R110); and R106 for `jalr`. -/
theorem test_decode_jumps :
    decodeTableWord 32 (0b1#1 ++ 0b0000000011#10 ++ 0b0#1 ++ 0b10000001#8 ++ 0b00001#5 ++ 0b1101111#7).toNat = some (.jal 1 0x181006) ∧
    decodeTableWord 32 (0b0#1 ++ 0b1000000000#10 ++ 0b1#1 ++ 0b00000000#8 ++ 0b00001#5 ++ 0b1101111#7).toNat = some (.jal 1 0x000C00) ∧
    decodeTableWord 32 (0b111111111111#12 ++ 0b00010#5 ++ 0b000#3 ++ 0b00001#5 ++ 0b1100111#7).toNat = some (.jalr 1 2 0xFFF) := by
  decide

/-- The words of part 2 that decode to `INVALID`. -/
theorem test_decode_invalid_words :
    ∀ w ∈ [0x00000000, 0xFFFFFFFF, 0x02000033, 0x40001033, 0x40007033, 0x00001013, 0x00005013, 0x00003003, 0x00006003, 0x00007003,
      0x00001067, 0x00003023, 0x00004023, 0x00002063, 0x00003063, 0x00000017, 0x00000073, 0x0000000F],
      decodeTableWord 32 w = none := by decide

/-- An unlisted function code keeps the opcode's tag and sets `invalid`; an unknown opcode has the tag `INVALID` (R103, R119). -/
theorem test_decoder_fmt :
    ((decoderOutputs 0x02000033).fmt = .r ∧ (decoderOutputs 0x02000033).mnem = none ∧ (decoderOutputs 0x02000033).invalid = true) ∧
    ((decoderOutputs 0x00000073).fmt = .invalid ∧ (decoderOutputs 0x00000073).invalid = true) ∧
    ((decoderOutputs 0x003100B3).fmt = .r ∧ (decoderOutputs 0x003100B3).invalid = false) := by decide

/-! ### Register and immediate arithmetic -/

theorem test_add_wraps : result (vector 0x003100B3 [(2, 0xFFFFFFFF), (3, 1)] []) 1 = some (0, 0x104) := by decide -- V1
theorem test_add_same_register : result (vector 0x00210133 [(2, 0x40000000)] []) 2 = some (0x80000000, 0x104) := by decide -- V4
theorem test_sub_borrows : result (vector 0x403100B3 [(3, 1)] []) 1 = some (0xFFFFFFFF, 0x104) := by decide -- V5
theorem test_sub_wraps : result (vector 0x403100B3 [(2, 0x80000000), (3, 1)] []) 1 = some (0x7FFFFFFF, 0x104) := by decide -- V6
theorem test_xor : result (vector 0x0062C233 [(5, 0xF0F0F0F0), (6, 0xFF00FF00)] []) 4 = some (0x0FF00FF0, 0x104) := by decide -- V8
theorem test_or : result (vector 0x0062E233 [(5, 0xF0F0F0F0), (6, 0x0000FFFF)] []) 4 = some (0xF0F0FFFF, 0x104) := by decide -- V9
theorem test_and : result (vector 0x0062F233 [(5, 0xF0F0F0F0), (6, 0x0000FFFF)] []) 4 = some (0x0000F0F0, 0x104) := by decide -- V10
theorem test_sll_amount_mod_32 : result (vector 0x009413B3 [(8, 1), (9, 0x20)] []) 7 = some (1, 0x104) := by decide -- V12
theorem test_sll_loses_top : result (vector 0x009413B3 [(8, 0x80000001), (9, 1)] []) 7 = some (2, 0x104) := by decide -- V14
theorem test_srl_fills_zero : result (vector 0x009453B3 [(8, 0x80000000), (9, 0x1F)] []) 7 = some (1, 0x104) := by decide -- V15
theorem test_srl_amount_mod_32 :
    result (vector 0x009453B3 [(8, 0x80000000), (9, 0xFFFFFFE4)] []) 7 = some (0x08000000, 0x104) := by decide -- V16
theorem test_sra_fills_sign : result (vector 0x409453B3 [(8, 0x80000000), (9, 4)] []) 7 = some (0xF8000000, 0x104) := by decide -- V17
theorem test_sra_into_amount : result (vector 0x409454B3 [(8, 0xFFFFFF00), (9, 4)] []) 9 = some (0xFFFFFFF0, 0x104) := by decide -- V20
theorem test_slt_negative : result (vector 0x00C5A533 [(11, 0xFFFFFFFF), (12, 1)] []) 10 = some (1, 0x104) := by decide -- V21
theorem test_slt_equal : result (vector 0x00C5A533 [(10, 7), (11, 5), (12, 5)] []) 10 = some (0, 0x104) := by decide -- V22
theorem test_sltu_large : result (vector 0x00C5B533 [(10, 7), (11, 0xFFFFFFFF), (12, 1)] []) 10 = some (0, 0x104) := by decide -- V24
theorem test_sltu_zero : result (vector 0x00C03533 [(12, 7)] []) 10 = some (1, 0x104) := by decide -- V25
theorem test_addi_smallest : result (vector 0x80010093 [] []) 1 = some (0xFFFFF800, 0x104) := by decide -- V29
theorem test_addi_wraps : result (vector 0x00110093 [(2, 0x7FFFFFFF)] []) 1 = some (0x80000000, 0x104) := by decide -- V28
theorem test_slti_negative : result (vector 0x0000A113 [(1, 0xFFFFFFFF)] []) 2 = some (1, 0x104) := by decide -- V31
theorem test_slti_equal : result (vector 0xFFF0A113 [(1, 0xFFFFFFFF)] []) 2 = some (0, 0x104) := by decide -- V32
theorem test_sltiu_equal : result (vector 0xFFF0B193 [(1, 0xFFFFFFFF)] []) 3 = some (0, 0x104) := by decide -- V33
theorem test_sltiu_below : result (vector 0xFFF0B193 [(1, 0xFFFFFFFE)] []) 3 = some (1, 0x104) := by decide -- V34
theorem test_xori_not : result (vector 0xFFF0C213 [(1, 0x0F0F0F0F)] []) 4 = some (0xF0F0F0F0, 0x104) := by decide -- V36
theorem test_ori_sign_extends : result (vector 0xF000E293 [(1, 0x12)] []) 5 = some (0xFFFFFF12, 0x104) := by decide -- V38
theorem test_andi : result (vector 0x0FF0F313 [(1, 0x12345678)] []) 6 = some (0x78, 0x104) := by decide -- V39
theorem test_andi_sign_extends : result (vector 0xFF00F313 [(1, 0x12345678)] []) 6 = some (0x12345670, 0x104) := by decide -- V40
theorem test_lui_replaces : result (vector 0x12345137 [(2, 0xFFFFFFFF)] []) 2 = some (0x12345000, 0x104) := by decide -- V42
theorem test_lui_x0 : result (vector 0x00001037 [] []) 0 = some (0, 0x104) := by decide -- V43

/-! ### Loads and stores -/

theorem test_lb : result (vector 0x00010083 [(2, 0x400)] dataBytes) 1 = some (0xFFFFFF80, 0x104) := by decide -- V44
theorem test_lbu : result (vector 0x00014083 [(2, 0x400)] dataBytes) 1 = some (0x80, 0x104) := by decide -- V45
theorem test_lh : result (vector 0x00011083 [(2, 0x400)] [(0x401, 0x80)]) 1 = some (0xFFFF8000, 0x104) := by decide -- V46
theorem test_lh_odd : result (vector 0x00111083 [(2, 0x400)] dataBytes) 1 = some (0x3400, 0x104) := by decide -- V48
theorem test_lhu : result (vector 0x00015083 [(2, 0x400)] [(0x401, 0x80)]) 1 = some (0x8000, 0x104) := by decide -- V47
theorem test_lw_straddles : result (vector 0x3FE02083 [] dataBytes) 1 = some (0x00800000, 0x104) := by decide -- V51
theorem test_lw_into_base : result (vector 0x00012103 [(2, 0x400)] dataBytes) 2 = some (0x12340080, 0x104) := by decide -- V60
theorem test_sb : stored (vector 0x003100A3 [(2, 0x400), (3, 0x12345678)] []) = some [(0x401, 0x78)] := by decide -- V61
theorem test_sh : stored (vector 0x00311123 [(2, 0x400), (3, 0x12345678)] []) = some [(0x402, 0x78), (0x403, 0x56)] := by decide -- V62
theorem test_sw_straddles :
    stored (vector 0x0E312F23 [(2, 0x700), (3, 0xAABBCCDD)] []) = some [(0x7FE, 0xDD), (0x7FF, 0xCC)] := by decide -- V65
theorem test_sw_beyond_faults :
    ending (vector 0x06312F23 [(2, 0xD680), (3, 0x11223344)] []) = some (.halted (.addressFault 0xD6FE), 0x100) := by decide -- V71

/-! ### Branches and jumps -/

theorem test_beq_taken : result (vector 0x00208863 [(1, 5), (2, 5)] []) 0 = some (0, 0x110) := by decide -- V73
theorem test_beq_not_taken : result (vector 0x00208863 [(1, 5), (2, 6)] []) 0 = some (0, 0x104) := by decide -- V74
theorem test_bne_backward : result (vector 0xFE209EE3 [(1, 5), (2, 6)] []) 0 = some (0, 0xFC) := by decide -- V75
theorem test_bne_not_taken : result (vector 0xFE109EE3 [(1, 5)] []) 0 = some (0, 0x104) := by decide -- V76
theorem test_blt_taken : result (vector 0x0020C463 [(1, 0xFFFFFFFF)] []) 0 = some (0, 0x108) := by decide -- V77
theorem test_blt_not_taken : result (vector 0x0020C463 [(2, 0xFFFFFFFF)] []) 0 = some (0, 0x104) := by decide -- V78
theorem test_bge_equal : result (vector 0x0020D463 [(1, 3), (2, 3)] []) 0 = some (0, 0x108) := by decide -- V79
theorem test_bge_not_taken : result (vector 0x0020D463 [(1, 0x80000000), (2, 0x7FFFFFFF)] []) 0 = some (0, 0x104) := by decide -- V80
theorem test_bltu_taken : result (vector 0x0020E463 [(2, 0xFFFFFFFF)] []) 0 = some (0, 0x108) := by decide -- V81
theorem test_bltu_not_taken : result (vector 0x0020E463 [(1, 0xFFFFFFFF)] []) 0 = some (0, 0x104) := by decide -- V82
theorem test_bgeu_taken : result (vector 0x0020F463 [(1, 0xFFFFFFFF)] []) 0 = some (0, 0x108) := by decide -- V83
theorem test_bgeu_not_taken : result (vector 0x00207463 [(2, 1)] []) 0 = some (0, 0x104) := by decide -- V84
theorem test_jal : result (vector 0x020000EF [] []) 1 = some (0x104, 0x120) := by decide -- V88
theorem test_jal_to_self : result (vector 0x000002EF [(5, 9)] []) 5 = some (0x104, 0x100) := by decide -- V90
theorem test_jalr_old_base : result (vector 0xFFF080E7 [(1, 0x205)] []) 1 = some (0x104, 0x204) := by decide -- V93
theorem test_jalr_odd_target : result (vector 0x001080E7 [(1, 0x200)] []) 1 = some (0x104, 0x201) := by decide -- V94

/-! ### Ports, one test each -/

theorem test_port_write_char : events (vector 0x002300A3 [(2, 0x41), (6, 0x7FF)] []) = some ([.writeChar 0x41], 0x104) ∧
    (Event.writeChar 0x41).pieces = [ascii "A"] := by decide -- V95
theorem test_port_write_sint : events (vector 0x002302A3 [(2, 0xFFFFFFFF), (6, 0x7FF)] []) = some ([.writeSint 0xFF], 0x104) ∧
    (Event.writeSint 0xFF).pieces = [ascii "255"] ∧ (Event.writeSint 0xFFFFFFFF).pieces = [ascii "-1"] ∧
    (Event.writeSint 0x80000000).pieces = [ascii "-2147483648"] := by decide -- V97, V98, V100
theorem test_port_write_uhex : events (vector 0x002314A3 [(2, 0xFFFFFFFF), (6, 0x7FF)] []) = some ([.writeUhex 0xFFFF], 0x104) ∧
    (Event.writeUhex 0xABCDEF).pieces = [ascii "abcdef"] := by decide -- V102, V103
theorem test_port_halt : ending (vector 0x002306A3 [(2, 0x55), (6, 0x7FF)] []) = some (.halted .halt, 0x100) := by decide -- V104
theorem test_port_dump_pc : events (vector 0x020320A3 [(6, 0x7FF)] []) = some ([.dumpPc 0x100], 0x104) ∧
    (Event.dumpPc 0x100).pieces = [ascii "0x0100"] := by decide -- V105
theorem test_port_dump_regs : events (vector 0x020322A3 [(3, 0xABCD), (6, 0x7FF)] []) =
    some ([.dumpRegs 0x100 ([0, 0, 0, 0xABCD, 0, 0, 0x7FF] ++ List.replicate 25 0)], 0x104) := by decide -- V106
theorem test_port_dump_mem : events (vector 0x022324A3 [(2, 0x401), (6, 0x7FF)] [(0x400, 0x11), (0x401, 0xAB)]) =
    some ([.dumpMem 0xAB], 0x104) ∧ (Event.dumpMem 0xAB).pieces = [ascii "000000ab"] := by decide -- V107
theorem test_port_read_char :
    result ((vector 0x01330183 [(6, 0x7FF)] []).setInput [.char 0xE9]) 3 = some (0xFFFFFFE9, 0x104) := by decide -- V112
theorem test_port_read_sint :
    result ((vector 0x01731183 [(6, 0x7FF)] []).setInput [.sint 0x12348765]) 3 = some (0xFFFF8765, 0x104) := by decide -- V116
theorem test_port_read_blocks : step (vector 0x01332183 [(6, 0x7FF)] []) = .fault (.consoleInputBlocked .readChar) := rfl -- V119
theorem test_port_malloc : (after (step (vector 0x022328A3 [(2, 100), (6, 0x7FF)] []))).map (fun t => (t.x 28, t.bytesAllocated)) =
    some (0xB700, counts [64, 36]) := by decide -- V124, E3
theorem test_port_malloc_first_fit :
    (after (step ((vector 0x022328A3 [(2, 64), (6, 0x7FF)] []).setBytesAllocated (counts [64, 64, 0, 10])))).map
      (fun t => (t.x 28, t.bytesAllocated)) = some (0xB800, counts [64, 64, 0, 10, 64, 64]) := by decide -- V130
theorem test_port_free : (after (step ((vector 0x02232AA3 [(2, 0xB700), (6, 0x7FF)] []).setBytesAllocated (counts [64])))).map
    (fun t => (t.pc, t.bytesAllocated)) = some (0x104, counts [64]) := by decide -- V133

/-! ### The router's request lines: the masked value goes with the request (V127; R261, R274) -/

theorem test_router_requests_malloc : (routerOutputs State.reset (storeInputs .byte 0x0830 0x12C)).allocator.size = some 0x2C ∧
    (routerOutputs State.reset (storeInputs .byte 0x0834 0x12C)).allocator.req = false := by decide
theorem test_router_requests_port :
    (routerOutputs State.reset (storeInputs .half 0x0808 0xFFFFFFFF)).virtual = some (.store .writeUhex 0xFFFF) := by decide -- V102

/-! ### Fetch and termination -/

theorem test_fetch_pcExit : ending (State.reset.setPc 0x400) = some (.halted .pcExit, 0x400) := by decide -- V134
theorem test_fetch_misaligned : ending (State.reset.setPc 0x3FD) = some (.halted (.misalignedFetch 0x3FD), 0x3FD) := by decide -- V138
theorem test_fetch_invalid : events (vector 0 [(5, 7)] []) =
    some ([.dumpRegs 0x100 ([0, 0, 0, 0, 0, 7] ++ List.replicate 26 0)], 0x100) := by decide -- V139
theorem test_zero_image : ending State.reset = some (.halted (.invalidInstruction 0), 0) := by decide -- P6
theorem test_reset_inv : State.reset.Inv :=
  { memoryCanonical := by decide, memoryInStorage := by decide, countsShape := ⟨rfl, by simp [State.reset]⟩, pendingClear := by decide,
    haltedConsistent := by intro c h; cases h }

/-! ### Witnesses: the hypotheses of the obligations are met -/

/-- `x6` at the port base, `x2` holding `v`, and these input values. -/
def atPorts (v : Word) (input : List InputValue) : State := (registers [(2, v), (6, 0x7FF)] []).setInput input

theorem test_witness_DecodeOfEncode : (Instr.bne 31 1 0x1FFE).WellFormed ∧ (Instr.sra 7 8 9).WellFormed := by decide
theorem test_witness_EncodeOfDecode : decodeWord 0xFE209EE3 = .ok (.bne 1 2 0x1FFC) := rfl
theorem test_witness_ValidWordMatchesOneRow :
    decodeWord 0x409453B3 = .ok (.sra 7 8 9) ∧ decodeWord 0x40001033 = .error (.unresolvedFunction 0x33 1 0x20) := ⟨rfl, rfl⟩
theorem test_witness_ImmediatesExact : (-4096 : Int) ≤ -4096 ∧ (4094 : Int) ≤ 4094 ∧ (-4096 : Int) % 2 = 0 ∧ (4094 : Int) % 2 = 0 := by
  decide
theorem test_witness_InvalidWords :
    opcodeField 0x00000073 ∉ [0x33#7, 0x13#7, 0x03#7, 0x67#7, 0x23#7, 0x63#7, 0x37#7, 0x6F#7] ∧
    (opcodeField 0x02000033 = 0x33 ∧ funct7Field 0x02000033 = 0b0000001) ∧
    (opcodeField 0x00001013 = 0x13 ∧ funct3Field 0x00001013 = 0b001) ∧ (opcodeField 0x00005013 = 0x13 ∧ funct3Field 0x00005013 = 0b101) ∧
    (opcodeField 0x00003003 = 0x03 ∧ funct3Field 0x00003003 = 0b011) ∧ (opcodeField 0x00007003 = 0x03 ∧ funct3Field 0x00007003 = 0b111) ∧
    (opcodeField 0x00001067 = 0x67 ∧ funct3Field 0x00001067 ≠ 0b000) ∧
    (opcodeField 0x00003023 = 0x23 ∧ 0b011 ≤ (funct3Field 0x00003023).toNat) ∧
    (opcodeField 0x00002063 = 0x63 ∧ funct3Field 0x00002063 = 0b010) ∧ (opcodeField 0x00003063 = 0x63 ∧ funct3Field 0x00003063 = 0b011) := by
  decide
theorem test_witness_RegisterRead : (1 : RegId) ≠ 0 ∧ (31 : RegId) ≠ 0 := by decide
theorem test_witness_OnlyDestinationChanges :
    (∃ t, step (vector 0x003100B3 [(2, 5), (3, 6)] []) = .next t ∧ t.x 1 ≠ (vector 0x003100B3 [(2, 5), (3, 6)] []).x 1) ∧
    (∃ t, step (vector 0x022328A3 [(2, 100), (6, 0x7FF)] []) = .next t ∧
      t.x 28 ≠ (vector 0x022328A3 [(2, 100), (6, 0x7FF)] []).x 28) := ⟨⟨_, rfl, by decide⟩, ⟨_, rfl, by decide⟩⟩
theorem test_witness_RegisterFormCommonBehaviour :
    Instr.sltu ∈ [Instr.add, Instr.sub, Instr.xor, Instr.or, Instr.and, Instr.sll, Instr.srl, Instr.sra, Instr.slt, Instr.sltu] := by simp
theorem test_witness_ProgramCounterUpdate :
    (∃ t, step (vector 0x003100B3 [] []) = .next t ∧ t.runState = .running ∧
      (vector 0x003100B3 [] []).setsPc (.add 1 2 3) = false) ∧
    (∃ t, step (vector 0x00208863 [(1, 5), (2, 6)] []) = .next t ∧ t.runState = .running ∧
      (vector 0x00208863 [(1, 5), (2, 6)] []).setsPc (.beq 1 2 16) = false) ∧
    (∃ t, step (vector 0x002306A3 [(6, 0x7FF)] []) = .next t ∧ t.runState = .halted .halt) :=
  ⟨⟨_, rfl, rfl, rfl⟩, ⟨_, rfl, rfl, rfl⟩, ⟨_, rfl, rfl⟩⟩
theorem test_witness_ByteRouting :
    route 0x03FF = .imem 0x3FF ∧ route 0x0400 = .dmem 0 ∧ route 0x07FF = .dmem 0x3FF ∧ route 0x0800 = .unmapped ∧
    route 0xB6FF = .unmapped ∧ route 0xB700 = .heap 0 0 ∧ route 0xD6FF = .heap 127 63 ∧ route 0xD700 = .beyond ∧
    route 0xFFFFFFFF = .beyond := by decide
theorem test_witness_PortDecode : portOf 0x0834 = some .heapFree ∧ portOf 0x0813 = none := by decide
theorem test_witness_PlainLoads :
    (Instr.lb, 1, true) ∈ loadForms ∧ (Instr.lhu, 2, false) ∈ loadForms ∧ (Instr.lw, 4, true) ∈ loadForms ∧
    (let s := registers [(2, 0xD680)] [(0xD6FF, 0x44)]
     s.effectiveAddress 2 124 = 0xD6FC ∧ ∀ k, k < 4 → s.byteAt (s.effectiveAddress 2 124 + BitVec.ofNat 32 k) = [0, 0, 0, (0x44 : Byte)][k]?) ∧
    (let s := registers [] dataBytes
     s.effectiveAddress 0 0x3FE = 0x3FE ∧ ∀ k, k < 4 → s.byteAt (s.effectiveAddress 0 0x3FE + BitVec.ofNat 32 k) = [0, 0, (0x80 : Byte), 0][k]?) :=
  ⟨by simp [loadForms], by simp [loadForms], by simp [loadForms], ⟨by decide, by decide⟩, ⟨by decide, by decide⟩⟩
theorem test_witness_PlainStores :
    (Instr.sb, 1) ∈ storeForms ∧ (Instr.sh, 2) ∈ storeForms ∧ (Instr.sw, 4) ∈ storeForms ∧
    (let s := registers [(2, 0x700)] []
     s.effectiveAddress 2 254 = 0x7FE ∧ s.effectiveAddress 2 254 ∉ interceptedStores ∧
       ∀ k, k < 4 → (s.effectiveAddress 2 254 + BitVec.ofNat 32 k).toNat ≤ 0xD6FF) ∧
    (let s := registers [(2, 0xD680)] []
     s.effectiveAddress 2 124 ∉ interceptedStores ∧ ∀ k, k < 4 → (s.effectiveAddress 2 124 + BitVec.ofNat 32 k).toNat ≤ 0xD6FF) :=
  ⟨by simp [storeForms], by simp [storeForms], by simp [storeForms], by decide, by decide⟩
theorem test_witness_AccessBeyondHeapFaults :
    (let s := registers [(2, 0xD680)] []
     0xD700 ≤ (s.effectiveAddress 2 125 + BitVec.ofNat 32 3).toNat ∧ ¬ 0xD700 ≤ (s.effectiveAddress 2 124 + BitVec.ofNat 32 3).toNat) ∧
    0xD700 ≤ (State.reset.effectiveAddress 0 0xFFF + BitVec.ofNat 32 0).toNat := by decide
theorem test_witness_UnmappedAccess :
    route 0x0800 = .unmapped ∧ route 0xB6FF = .unmapped ∧
    (let s := registers [(2, 0xB6FC)] []
     s.effectiveAddress 2 0 ∉ interceptedStores ∧ s.effectiveAddress 2 0 ≠ 0x0812 ∧ s.effectiveAddress 2 0 ≠ 0x0816 ∧
       s.pendingVirtualLoad = false ∧ ∀ k, k < 4 → route (s.effectiveAddress 2 0 + BitVec.ofNat 32 k) = .unmapped) ∧
    (atPorts 0 []).effectiveAddress 6 53 = 0x0834 ∧ (atPorts 0 []).pendingVirtualLoad = false := by decide
theorem test_witness_LoadAfterStore :
    (∀ k, k < 4 → Storable ((registers [(2, 0x7FC), (3, 0xAABBCCDD)] []).effectiveAddress 2 0 + BitVec.ofNat 32 k)) ∧
    ∃ t, exec (.sw 2 3 0) (registers [(2, 0x7FC), (3, 0xAABBCCDD)] []) = .next t ∧
      t.effectiveAddress 2 0 = (registers [(2, 0x7FC), (3, 0xAABBCCDD)] []).effectiveAddress 2 0 + BitVec.ofNat 32 0 ∧
      t.effectiveAddress 2 2 = (registers [(2, 0x7FC), (3, 0xAABBCCDD)] []).effectiveAddress 2 0 + BitVec.ofNat 32 2 ∧
      t.effectiveAddress 2 3 = (registers [(2, 0x7FC), (3, 0xAABBCCDD)] []).effectiveAddress 2 0 + BitVec.ofNat 32 3 := by
  refine ⟨?_, _, rfl, by decide, by decide, by decide⟩
  unfold Storable
  decide
theorem test_witness_OnlyStoresChangeMemory :
    ∃ t, step (vector 0x00312223 [(2, 0x400), (3, 0x12345678)] []) = .next t ∧
      t.byteAt 0x404 ≠ (vector 0x00312223 [(2, 0x400), (3, 0x12345678)] []).byteAt 0x404 := ⟨_, rfl, by decide⟩
theorem test_witness_InstructionMemoryConstant :
    ∃ t, Steps (vector 0x00312023 [(3, 0xFFFFFFFF)] []) t ∧ (vector 0x00312023 [(3, 0xFFFFFFFF)] []).StoresTo (.sw 2 3 0) 0 :=
  ⟨_, .tail .refl rfl, by decide, 0, by decide, by decide⟩
/-- The port statements' addresses (WritePorts, HaltPort, DumpPorts, MallocPort, UnmappedAccess), each reached from `x6`. -/
theorem test_witness_WritePorts_HaltPort :
    (atPorts 0 []).effectiveAddress 6 1 = 0x0800 ∧ (atPorts 0 []).effectiveAddress 6 5 = 0x0804 ∧
    (atPorts 0 []).effectiveAddress 6 9 = 0x0808 ∧ (atPorts 0 []).effectiveAddress 6 13 = 0x080C ∧
    (atPorts 0 []).effectiveAddress 6 19 = 0x0812 ∧ (atPorts 0 []).effectiveAddress 6 23 = 0x0816 ∧
    (atPorts 0 []).effectiveAddress 6 33 = 0x0820 ∧ (atPorts 0 []).effectiveAddress 6 37 = 0x0824 ∧
    (atPorts 0 []).effectiveAddress 6 41 = 0x0828 ∧ (atPorts 0 []).effectiveAddress 6 49 = 0x0830 ∧
    (atPorts 0 []).effectiveAddress 6 53 = 0x0834 := by decide
theorem test_witness_WriteUnsignedHex : (1 : Word) ≠ 0 ∧ (atPorts 0xFFFFFFFF []).effectiveAddress 6 9 = 0x0808 := by decide
theorem test_witness_DumpPorts :
    (atPorts 0xD6FF []).effectiveAddress 6 41 = 0x0828 ∧ (atPorts 0xD6FF []).byteAt (BitVec.ofNat 32 (0xD6FF % 2 ^ (8 * 4))) = some 0 ∧
    (atPorts 0xD700 []).effectiveAddress 6 41 = 0x0828 ∧ 0xD700 ≤ ((atPorts 0xD700 []).x 2).toNat % 2 ^ (8 * 4) := by decide
theorem test_witness_ReadPorts :
    ((atPorts 0 [.char 0xE9]).effectiveAddress 6 19 = 0x0812 ∧ (atPorts 0 [.char 0xE9]).input = .char 0xE9 :: []) ∧
    ((atPorts 0 [.sint 0x80000000]).effectiveAddress 6 23 = 0x0816 ∧ (atPorts 0 [.sint 0x80000000]).input = .sint 0x80000000 :: []) := by
  decide
theorem test_witness_ReadPortsBlock :
    ((atPorts 0 []).effectiveAddress 6 19 = 0x0812 ∧ ∀ c rest, (atPorts 0 []).input ≠ .char c :: rest) ∧
    ((atPorts 0 [.char 1]).effectiveAddress 6 23 = 0x0816 ∧ ∀ i rest, (atPorts 0 [.char 1]).input ≠ .sint i :: rest) :=
  ⟨⟨by decide, fun _ _ h => by cases h⟩, ⟨by decide, fun _ _ h => by cases h⟩⟩
theorem test_witness_BlockedReadIsAnswered :
    (step (vector 0x01330183 [(6, 0x7FF)] []) = .fault (.consoleInputBlocked .readChar) ∧ (vector 0x01330183 [(6, 0x7FF)] []).input = [] ∧
      ∃ c, InputValue.char 0xE9 = .char c) ∧
    (step (vector 0x01731183 [(6, 0x7FF)] []) = .fault (.consoleInputBlocked .readSint) ∧ (vector 0x01731183 [(6, 0x7FF)] []).input = [] ∧
      ∃ i, InputValue.sint 7 = .sint i) := ⟨⟨rfl, rfl, _, rfl⟩, ⟨rfl, rfl, _, rfl⟩⟩
theorem test_witness_AllocatorProperties :
    (counts [64, 64, 0, 10]).length = 128 ∧
    malloc (counts [64, 64, 0, 10]) (64 : Word).toNat = some (4, counts [64, 64, 0, 10, 64, 64]) ∧ 2 < 4 ∧
    malloc (counts [64, 64, 0, 10]) (0x2000 : Word).toNat = none ∧
    ((atPorts 0x2000 []).effectiveAddress 6 49 = 0x0830 ∧ malloc (atPorts 0x2000 []).bytesAllocated ((atPorts 0x2000 []).x 2).toNat = none) :=
  ⟨rfl, rfl, by decide, rfl, ⟨rfl, rfl⟩⟩
theorem test_witness_MallocPort_success :
    let s := (atPorts 1 []).setBytesAllocated (List.replicate 127 64 ++ [0])
    s.bytesAllocated.length = 128 ∧ s.effectiveAddress 6 49 = 0x0830 ∧
      (∀ k, k < (s.x 2).toNat % 2 ^ (8 * 4) / 64 + 1 → s.bytesAllocated[127 + k]? = some 0) ∧
      (∀ start', start' < 127 → ∃ k, k < (s.x 2).toNat % 2 ^ (8 * 4) / 64 + 1 ∧ s.bytesAllocated[start' + k]? ≠ some 0) :=
  ⟨rfl, rfl, by decide, fun start' h => ⟨0, by decide, by
    show (List.replicate 127 64 ++ [0])[start']? ≠ some 0
    rw [List.getElem?_append_left (by simpa using h), List.getElem?_replicate, if_pos h]
    decide⟩⟩
theorem test_witness_MallocPort_failure :
    let s := atPorts 0x2000 []
    s.bytesAllocated.length = 128 ∧ s.effectiveAddress 6 49 = 0x0830 ∧
      ∀ start, start + ((s.x 2).toNat % 2 ^ (8 * 4) / 64 + 1) ≤ 128 →
        ∃ k, k < (s.x 2).toNat % 2 ^ (8 * 4) / 64 + 1 ∧ s.bytesAllocated[start + k]? ≠ some 0 := by
  refine ⟨rfl, rfl, fun start h => absurd h ?_⟩
  have : ((atPorts 0x2000 []).x 2).toNat % 2 ^ (8 * 4) / 64 + 1 = 129 := by decide
  omega
theorem test_witness_BanksStayAllocated :
    let s := (vector 0x022328A3 [(2, 100), (6, 0x7FF)] []).setBytesAllocated (counts [5])
    (∃ t, Steps s t ∧ t.bytesAllocated = counts [5, 64, 36]) ∧ s.bytesAllocated[0]? = some 5 ∧ (5 : Nat) ≠ 0 :=
  ⟨⟨_, .tail .refl rfl, rfl⟩, rfl, by decide⟩
theorem test_witness_PositiveCountsUnobservable :
    let s := (vector 0x003100B3 [] []).setBytesAllocated (5 :: List.replicate 127 0)
    let t := (vector 0x003100B3 [] []).setBytesAllocated (7 :: List.replicate 127 0)
    s.SameButCounts t ∧ s ≠ t ∧ (∃ s', step s = .next s') := by
  refine ⟨⟨rfl, rfl, fun k => ?_⟩, fun h => ?_, _, rfl⟩
  · show (7 :: List.replicate 127 0)[k]? = some 0 ↔ (5 :: List.replicate 127 0)[k]? = some 0
    cases k <;> simp
  · have := congrArg State.bytesAllocated h
    cases this
theorem test_witness_PositiveCountsUnobservable_fault :
    let s := (vector 0x01330183 [(6, 0x7FF)] []).setBytesAllocated (5 :: List.replicate 127 0)
    s.SameButCounts s ∧ step s = .fault (.consoleInputBlocked .readChar) := ⟨⟨rfl, rfl, fun _ => Iff.rfl⟩, rfl⟩
theorem test_witness_StepRunsDecoded :
    let s := vector 0xFE209EE3 [] []
    s.runState = .running ∧ s.pc.toNat ≤ 0x3FF ∧ s.pc.toNat % 4 = 0 ∧ s.byteAt s.pc = some 0xE3 ∧ s.byteAt (s.pc + 1) = some 0x9E ∧
      s.byteAt (s.pc + 2) = some 0x20 ∧ s.byteAt (s.pc + 3) = some 0xFE ∧
      decodeBytes [0xE3, 0x9E, 0x20, 0xFE] = .ok (.bne 1 2 0x1FFC, []) :=
  ⟨rfl, by decide, by decide, by decide, by decide, by decide, by decide, rfl⟩
theorem test_witness_PcExit : (State.reset.setPc 0x400).runState = .running ∧ 0x3FF < (State.reset.setPc 0x400).pc.toNat := by decide
theorem test_witness_MisalignedFetch :
    let s := State.reset.setPc 0x3FF
    s.runState = .running ∧ s.pc.toNat ≤ 0x3FF ∧ s.pc.toNat % 4 ≠ 0 := by decide
theorem test_witness_FatalDecodeError :
    let s := (State.reset.setPc 0x3FC).withFetchWord 32 0x73
    s.runState = .running ∧ s.pc.toNat ≤ 0x3FF ∧ s.pc.toNat % 4 = 0 ∧ decodeWord s.fetchWord = .error (.unknownOpcode 0x73) :=
  ⟨rfl, by decide, by decide, rfl⟩
theorem test_witness_HaltedIsTerminal : (State.reset.raise .pcExit).runState = .halted .pcExit := rfl
theorem test_witness_EndingCycleChangesNothing :
    (∃ t, step (vector 0x002306A3 [(6, 0x7FF)] []) = .next t ∧ t.runState = .halted .halt) ∧
    (∃ t, step (vector 0xFFF00083 [] []) = .next t ∧ t.runState = .halted (.addressFault 0xFFFFFFFF)) := ⟨⟨_, rfl, rfl⟩, ⟨_, rfl, rfl⟩⟩
theorem test_witness_EffectsOfACycle :
    ∃ t, step (vector 0x022328A3 [(2, 100), (6, 0x7FF)] []) = .next t ∧
      t.bytesAllocated ≠ (vector 0x022328A3 [(2, 100), (6, 0x7FF)] []).bytesAllocated := ⟨_, rfl, by intro h; cases h⟩
theorem test_witness_InvariantKept :
    (vector 0x00312223 [(2, 0x400), (3, 0x12345678)] dataBytes).Inv ∧
    ∃ t, step (vector 0x00312223 [(2, 0x400), (3, 0x12345678)] dataBytes) = .next t :=
  ⟨{ memoryCanonical := by decide, memoryInStorage := by decide, countsShape := ⟨rfl, fun c h => by rw [List.eq_of_mem_replicate (n := 128) (a := 0) h]; decide⟩, pendingClear := rfl,
     haltedConsistent := by intro c h; cases h }, _, rfl⟩
theorem test_witness_LaunchState :
    (List.replicate 2048 (0x13 : Byte)).length = 2048 ∧ (List.replicate 2047 (0x13 : Byte)).length ≠ 2048 :=
  ⟨List.length_replicate, by rw [List.length_replicate]; decide⟩

end Sys2Proof.Tests
end

section
/-! The register file's reads (10_state.md R21). -/

namespace Sys2Proof.Machine

/-- A register other than `x0` is held in the file, one place before its number (R21). -/
theorem State.gpr_getElem?_of_ne_zero (s : State) {r : RegId} (hr : r ≠ 0) :
    s.gpr[r.toNat - 1]? = some (s.x r) := by
  have hpos : r.toNat ≠ 0 := by simpa [← BitVec.toNat_inj] using hr
  have hlt : r.toNat - 1 < 31 := by have := r.isLt; omega
  rw [Vector.getElem?_eq_getElem hlt, State.x, dif_neg hpos]

/-- Settles O9: register 0 reads 0 by `State.x_zero`, and every other register reads its place in the file. -/
theorem registerRead : Obligations.RegisterRead := fun s =>
  ⟨s.x_zero, fun _ hr => (s.gpr_getElem?_of_ne_zero hr).symm⟩

end Sys2Proof.Machine
end

section
/-! The router and plain accesses to unmapped bytes (20_memory.md R63, R64, R66). -/

namespace Sys2Proof.Machine

/-- Settles O24: `route_cases` names the class of an address, and its range excludes the other four. -/
theorem byteRouting : Obligations.ByteRouting := by
  refine ⟨fun a => ?_, route_portAddress, fun s cs a => s.setBytesAllocated_byteAt cs a⟩
  rcases route_cases a with ⟨h, e⟩ | ⟨h, e⟩ | ⟨h, e⟩ | ⟨h, e⟩ | ⟨h, e⟩
  · exact ⟨fun _ => e, by omega, by omega, by omega, by omega⟩
  · exact ⟨by omega, fun _ _ => e, by omega, by omega, by omega⟩
  · exact ⟨by omega, by omega, fun _ _ => e, by omega, by omega⟩
  · exact ⟨by omega, by omega, by omega, fun _ => e, by omega⟩
  · exact ⟨by omega, by omega, by omega, by omega, fun _ _ => e⟩

/-- No port, no interception: neither a load nor a store at such an address is anything but plain (R64, R65). -/
theorem accessKind_of_portOf_eq_none (c : AccessClass) {ea : Word} (h : portOf ea = none) : accessKind c ea = .plain := by
  unfold accessKind
  rw [h]
  cases c <;> rfl

/-- Settles O25: `portOf_eq_some_iff` at the eleven addresses, and no port at any other, 0x07FE among them. -/
theorem portDecode : Obligations.PortDecode := by
  refine ⟨fun ea p => ?_, fun c _ => accessKind_of_portOf_eq_none c, accessKind_of_portOf_eq_none _ (by decide)⟩
  rw [portOf_eq_some_iff]
  rcases p with (_ | _ | _ | _ | _ | _ | _) | (_ | _) | _ | _ <;> rfl

/-! ### Plain accesses, by their bytes -/

/-- A plain load whose bytes are all in storage or unmapped takes their value (R69). -/
theorem plainLoad_of_readBytes {ea : Word} {w : Width} {s : State} {bs : List Byte} (h : s.readBytes ea w.bytes = some bs)
    (ext : Word → Word) (rd : RegId) :
    plainLoad ea w ext rd s = .next ((s.writeReg rd (ext (littleEndian bs))).advancePc) := by
  simp only [plainLoad, State.memRead, h, Option.map_some]

/-- A plain store with no byte beyond the heap drives its strobes (R70). -/
theorem plainStore_of_not_touchesBeyond {ea : Word} {w : Width} (h : touchesBeyond ea w.bytes = false) (v : Word) (s : State) :
    plainStore ea w v s = (s.setMem (Memory.writeAll s.mem (writeStrobes ea (lowBytes v w.bytes)))).advancePc := by
  simp only [plainStore, State.memWrite, h, Bool.false_eq_true, if_false]

/-! ### Unmapped bytes (R66) -/

theorem State.byteAt_of_route_unmapped (s : State) {a : Word} (h : route a = .unmapped) : s.byteAt a = some 0x00 := by
  unfold State.byteAt
  rw [h]

/-- A read of unmapped bytes reads zeros. -/
theorem State.readBytes_of_route_unmapped (s : State) {ea : Word} {n : Nat}
    (h : ∀ k, k < n → route (ea + BitVec.ofNat 32 k) = .unmapped) :
    s.readBytes ea n = some (List.replicate n 0) :=
  State.readBytes_eq_some List.length_replicate fun k hk => by
    rw [s.byteAt_of_route_unmapped (h k hk), List.getElem?_replicate, if_pos hk]

theorem touchesBeyond_of_route_unmapped {ea : Word} {n : Nat}
    (h : ∀ k, k < n → route (ea + BitVec.ofNat 32 k) = .unmapped) : touchesBeyond ea n = false := by
  rw [← Bool.not_eq_true, touchesBeyond_iff]
  rintro ⟨k, hk, hb⟩
  rw [← route_beyond_iff, h k hk] at hb
  cases hb

/-- A store to unmapped bytes raises no write strobe. -/
theorem writeStrobes_of_route_unmapped {ea : Word} {bs : List Byte}
    (h : ∀ k, k < bs.length → route (ea + BitVec.ofNat 32 k) = .unmapped) : writeStrobes ea bs = [] := by
  refine List.eq_nil_iff_forall_not_mem.mpr fun c hc => ?_
  obtain ⟨k, hk, -, hcell, -⟩ := mem_writeStrobes hc
  rw [h k hk] at hcell
  cases hcell

theorem littleEndian_replicate_zero (n : Nat) : littleEndian (List.replicate n 0) = 0 := by
  induction n with
  | zero => rfl
  | succ n ih => rw [List.replicate_succ, littleEndian, ih]; rfl

theorem extendedValue_zero (n : Nat) (signed : Bool) : extendedValue n signed 0 = 0 := by simp [extendedValue]

/-- A store whose bytes are all unmapped, at no port that intercepts it, changes `pc` only. -/
theorem completesWith_store_of_route_unmapped {S : (RegId → RegId → BitVec 12 → Instr) × Nat} (hS : S ∈ storeForms)
    {s : State} {rs1 : RegId} (rs2 : RegId) {imm : BitVec 12} (hp : s.effectiveAddress rs1 imm ∉ interceptedStores)
    (hu : ∀ k, k < S.2 → route (s.effectiveAddress rs1 imm + BitVec.ofNat 32 k) = .unmapped) :
    CompletesWith (S.1 rs1 rs2 imm) s 0 0 (s.pc + 4) := by
  obtain ⟨w, hw, hexec, -⟩ := exec_storeForms hS
  obtain ⟨hstore, hmalloc⟩ := not_port_of_not_mem_interceptedStores hp
  rw [hw] at hu
  have hstrobes := writeStrobes_of_route_unmapped (bs := lowBytes (s.x rs2) w.bytes) (by rwa [lowBytes_length])
  refine completesWith_of_advancePc ?_
  rw [hexec, storeOp_plain hstore hmalloc, plainStore_of_not_touchesBeyond (touchesBeyond_of_route_unmapped hu), hstrobes]
  rfl

/-- A load whose bytes are all unmapped, at no read port, loads 0. -/
theorem completesWith_load_of_route_unmapped {L : (RegId → RegId → BitVec 12 → Instr) × Nat × Bool} (hL : L ∈ loadForms)
    {s : State} (rd : RegId) {rs1 : RegId} {imm : BitVec 12} (hpending : s.pendingVirtualLoad = false)
    (hp : ∀ p, s.effectiveAddress rs1 imm ≠ portAddress (.load p))
    (hu : ∀ k, k < L.2.1 → route (s.effectiveAddress rs1 imm + BitVec.ofNat 32 k) = .unmapped) :
    CompletesWith (L.1 rd rs1 imm) s rd 0 (s.pc + 4) := by
  obtain ⟨w, ext, hw, hexec, hext⟩ := exec_loadForms hL
  have hzero : ext 0 = 0 := by simpa [extendedValue_zero] using hext 0
  have hself : s.setPending false = s := by rw [← hpending, setPending_self]
  rw [hw] at hu
  refine completesWith_of_advancePc ?_
  rw [hexec, loadOp_plain hp, hself, plainLoad_of_readBytes (s.readBytes_of_route_unmapped hu), littleEndian_replicate_zero, hzero]

/-- An access of any width at the heap-free port touches unmapped bytes only (R62). -/
theorem route_heapFree_add (w : Width) : ∀ k, k < w.bytes → route (0x0834 + BitVec.ofNat 32 k) = .unmapped := by
  cases w <;> decide

/-- Settles O29: unmapped bytes read 0 and raise no strobe, and the bytes from the heap-free port on are unmapped. -/
theorem unmappedAccess : Obligations.UnmappedAccess := by
  refine ⟨fun s _ => s.byteAt_of_route_unmapped, fun S hS s rs1 rs2 imm => completesWith_store_of_route_unmapped hS rs2,
    fun S hS s rs1 rs2 imm ha => ?_, fun L hL s rd rs1 imm hpending hchar hsint => ?_, fun L hL s rd rs1 imm hpending ha => ?_⟩
  · obtain ⟨w, hw, -⟩ := exec_storeForms hS
    exact completesWith_store_of_route_unmapped hS rs2 (by rw [ha]; decide) (by rw [ha, hw]; exact route_heapFree_add w)
  · refine completesWith_load_of_route_unmapped hL rd hpending fun p => ?_
    cases p
    · exact hchar
    · exact hsint
  · obtain ⟨w, -, hw, -⟩ := exec_loadForms hL
    refine completesWith_load_of_route_unmapped hL rd hpending (fun p => ?_) (by rw [ha, hw]; exact route_heapFree_add w)
    rw [ha]
    cases p <;> decide

end Sys2Proof.Machine
end

section
/-! The decoder's fields as slices of the word, and its immediates as numbers (30_encoding.md R101 to R112). -/

namespace Sys2Proof

open Machine

/-- Every decoded value is one format's fields: an unresolved word has those of `INVALID` (R104, R116). -/
theorem decodeFields_eq_fieldsOf (w : Word) : ∃ f m, decodeFields w = fieldsOf f m w := by
  unfold decodeFields
  cases resolve (classify (opcodeField w)) (funct3Field w) (funct7Field w) with
  | some m => exact ⟨_, m, rfl⟩
  | none => exact ⟨.invalid, .add, rfl⟩

/-- Within its contract, `extract_bits` is the slice of the same bits (R101, R102). -/
theorem extractBits_eq_slice (w : Word) {hi lo len : Nat} (hlen : lo + len = hi + 1) (hlo : lo ≤ hi) (hhi : hi ≤ 31) :
    extractBits w hi lo = some (w.extractLsb' lo len).toNat := by
  rw [extractBits, if_pos ⟨hlo, hhi⟩, BitVec.extractLsb'_toNat, Nat.shiftRight_eq_div_pow, show hi - lo + 1 = len by omega]

/-! ### Each field (R105, R106) -/

theorem extractBits_opcodeField (w : Word) : extractBits w 6 0 = some (opcodeField w).toNat :=
  extractBits_eq_slice w rfl (by decide) (by decide)
theorem extractBits_rdField (w : Word) : extractBits w 11 7 = some (rdField w).toNat :=
  extractBits_eq_slice w rfl (by decide) (by decide)
theorem extractBits_funct3Field (w : Word) : extractBits w 14 12 = some (funct3Field w).toNat :=
  extractBits_eq_slice w rfl (by decide) (by decide)
theorem extractBits_rs1Field (w : Word) : extractBits w 19 15 = some (rs1Field w).toNat :=
  extractBits_eq_slice w rfl (by decide) (by decide)
theorem extractBits_rs2Field (w : Word) : extractBits w 24 20 = some (rs2Field w).toNat :=
  extractBits_eq_slice w rfl (by decide) (by decide)
theorem extractBits_funct7Field (w : Word) : extractBits w 31 25 = some (funct7Field w).toNat :=
  extractBits_eq_slice w rfl (by decide) (by decide)
theorem extractBits_immRawI (w : Word) : extractBits w 31 20 = some (immRawI w).toNat :=
  extractBits_eq_slice w rfl (by decide) (by decide)

/-! ### The immediates assembled from fields (R107, R109) -/

/-- The S immediate has `funct7`'s bits above `rd`'s (R107). -/
theorem toNat_immRawS (w : Word) : (immRawS w).toNat = ((funct7Field w).toNat <<< 5) ||| (rdField w).toNat :=
  BitVec.toNat_append ..

/-- The U immediate has twelve zeros below its slice (R109). -/
theorem toNat_immRawU (w : Word) : (immRawU w).toNat = (w.extractLsb' 12 20).toNat <<< 12 :=
  (BitVec.toNat_append ..).trans (Nat.or_zero _)

/-- Settles O5: the decoded value is one format's fields, and each is the slice of its rule. -/
theorem fieldsOfLayouts : Obligations.FieldsOfLayouts := by
  intro w
  obtain ⟨f, m, h⟩ := decodeFields_eq_fieldsOf w
  rw [h]
  cases f with
  | r =>
    exact ⟨rfl, extractBits_opcodeField w, extractBits_rdField w, extractBits_funct3Field w, extractBits_rs1Field w,
      extractBits_rs2Field w, extractBits_funct7Field w⟩
  | iArith | iLoad | iJump =>
    exact ⟨rfl, extractBits_rdField w, extractBits_funct3Field w, extractBits_rs1Field w, extractBits_immRawI w,
      fun _ => getLsbD_sext12 _⟩
  | s =>
    exact ⟨rfl, extractBits_funct3Field w, extractBits_rs1Field w, extractBits_rs2Field w,
      ⟨_, _, extractBits_funct7Field w, extractBits_rdField w, toNat_immRawS w⟩, fun _ => getLsbD_sext12 _⟩
  | u =>
    exact ⟨rfl, extractBits_rdField w, ⟨_, extractBits_eq_slice w rfl (by decide) (by decide), toNat_immRawU w⟩, rfl⟩
  | sb | uj | invalid => trivial

/-! ### Immediates as numbers (R11, R112) -/

/-- The two's-complement value (00_scope.md R11), for every width with a sign bit. -/
theorem toInt_eq_twosComplement {n : Nat} (v : BitVec (n + 1)) :
    v.toInt = if v.toNat < 2 ^ n then (v.toNat : Int) else v.toNat - 2 ^ (n + 1) := by
  rw [BitVec.toInt_eq_toNat_cond, Int.natCast_pow, Int.cast_ofNat_Int]
  have hhalf : 2 * v.toNat < 2 ^ (n + 1) ↔ v.toNat < 2 ^ n := by rw [Nat.pow_succ]; omega
  simp only [hhalf]

/-- An even branch offset has bit 0 clear, as R108 asks of what is encoded. -/
theorem getLsbD_zero_ofInt_of_even {offset : Int} (h : offset % 2 = 0) : (BitVec.ofInt 13 offset).getLsbD 0 = false := by
  have heven : (offset % (2 ^ 13 : Nat)).toNat % 2 ≠ 1 := by omega
  rw [BitVec.getLsbD, BitVec.toNat_ofInt, Nat.testBit_zero, decide_eq_false heven]

/-- The SB round trip: every offset the format can hold is encoded and decoded without loss (R112). -/
theorem sext13_immRawSB_encodeSB (funct3 : BitVec 3) (rs1 rs2 : RegId) {offset : Int} (hlo : -4096 ≤ offset)
    (hhi : offset ≤ 4094) (heven : offset % 2 = 0) :
    (sext13 (immRawSB (encodeSB funct3 rs1 rs2 (BitVec.ofInt 13 offset)))).toInt = offset := by
  rw [immRawSB_encodeSB _ _ _ (getLsbD_zero_ofInt_of_even heven), sext13_toInt]
  exact BitVec.toInt_ofInt_eq_self (by decide) (by omega) (by omega)

/-- Settles O7: sign extension keeps the value, which is the two's-complement one at the width of the raw field. -/
theorem immediatesExact : Obligations.ImmediatesExact := by
  refine ⟨fun w => ?_, by decide, by decide, by decide, fun funct3 rs1 rs2 _ => sext13_immRawSB_encodeSB funct3 rs1 rs2⟩
  obtain ⟨f, m, h⟩ := decodeFields_eq_fieldsOf w
  rw [h]
  cases f with
  | iArith | iLoad | iJump | s => exact (sext12_toInt _).trans (toInt_eq_twosComplement _)
  | sb => exact (sext13_toInt _).trans (toInt_eq_twosComplement _)
  | u => exact toInt_eq_twosComplement _
  | uj => exact (sext21_toInt _).trans (toInt_eq_twosComplement _)
  | r | invalid => trivial

end Sys2Proof
end

section
/-! The R-format instructions: their words and the operation they share (40_register_alu.md R150 to R161). -/

namespace Sys2Proof

/-- A word of the R layout whose function codes resolve to `m` decodes to the instruction `C` that `m` stands for, with the
operands laid out (R105, R115). -/
theorem decodeWord_encodeR {f7 : BitVec 7} {f3 : BitVec 3} {m : Mnemonic} {C : RegId → RegId → RegId → Instr}
    (hm : resolve .r f3 f7 = some m)
    (hC : ∀ w, (fieldsOf .r m w).instr = some (C (rdField w) (rs1Field w) (rs2Field w))) (rd rs1 rs2 : RegId) :
    decodeWord (encodeR f7 f3 rd rs1 rs2) = .ok (C rd rs1 rs2) := by
  apply decodeWord_of_instr
  rw [decodeFields_encodeR hm, hC, rdField_encodeR, rs1Field_encodeR, rs2Field_encodeR]

namespace Machine

/-! ### The comparisons' 1 or 0 (R160, R161) -/

theorem compareResult_lessSigned (a b : Word) :
    compareResult (lessSigned a b) = if a.toInt < b.toInt then 1 else 0 := by
  simp only [compareResult, lessSigned, decide_eq_true_eq]

theorem compareResult_lessUnsigned (a b : Word) :
    compareResult (lessUnsigned a b) = if a.toNat < b.toNat then 1 else 0 := by
  simp only [compareResult, lessUnsigned, decide_eq_true_eq]

/-! ### The shared operation (R150) -/

/-- An instruction that runs the shared operation writes its function of the two sources, advances `pc`, and changes nothing
else. -/
theorem completesWith_of_registerOp {i : Instr} {s : State} (f : Word → Word → Word) {rd rs1 rs2 : RegId}
    (h : exec i s = registerOp f rd rs1 rs2 s) : CompletesWith i s rd (f (s.x rs1) (s.x rs2)) (s.pc + 4) :=
  completesWith_of_advancePc h

/-- Each of the ten instructions is the shared operation with a function of its own, the same in every state. -/
theorem exec_registerForms {C : RegId → RegId → RegId → Instr}
    (hC : C ∈ [Instr.add, Instr.sub, Instr.xor, Instr.or, Instr.and, Instr.sll, Instr.srl, Instr.sra, Instr.slt, Instr.sltu]) :
    ∃ f, ∀ rd rs1 rs2 s, exec (C rd rs1 rs2) s = registerOp f rd rs1 rs2 s := by
  simp only [List.mem_cons, List.mem_nil_iff, or_false] at hC
  rcases hC with rfl | rfl | rfl | rfl | rfl | rfl | rfl | rfl | rfl | rfl
  · exact ⟨fun a b => a + b, fun _ _ _ _ => rfl⟩
  · exact ⟨fun a b => a - b, fun _ _ _ _ => rfl⟩
  · exact ⟨fun a b => a ^^^ b, fun _ _ _ _ => rfl⟩
  · exact ⟨fun a b => a ||| b, fun _ _ _ _ => rfl⟩
  · exact ⟨fun a b => a &&& b, fun _ _ _ _ => rfl⟩
  · exact ⟨fun a b => a <<< shiftAmount b, fun _ _ _ _ => rfl⟩
  · exact ⟨fun a b => a >>> shiftAmount b, fun _ _ _ _ => rfl⟩
  · exact ⟨fun a b => a.sshiftRight (shiftAmount b), fun _ _ _ _ => rfl⟩
  · exact ⟨fun a b => compareResult (lessSigned a b), fun _ _ _ _ => rfl⟩
  · exact ⟨fun a b => compareResult (lessUnsigned a b), fun _ _ _ _ => rfl⟩

/-- Settles O12: `exec_registerForms` names the function, and `completesWith_of_registerOp` says what the operation does with it. -/
theorem registerFormCommonBehaviour : Obligations.RegisterFormCommonBehaviour := by
  intro C hC
  obtain ⟨f, hexec⟩ := exec_registerForms hC
  exact ⟨f, fun s rd rs1 rs2 => completesWith_of_registerOp f (hexec rd rs1 rs2 s)⟩

/-- Settles O13: the word is R layout, and the wrapping sum and difference are the exact ones reduced. -/
theorem addSub : Obligations.AddSub := by
  refine fun s rd rs1 rs2 => ⟨⟨decodeWord_encodeR rfl (fun _ => rfl) rd rs1 rs2, ?_⟩,
    ⟨decodeWord_encodeR rfl (fun _ => rfl) rd rs1 rs2, ?_⟩⟩
  · rw [← add_eq_ofInt]
    exact completesWith_of_registerOp (fun a b => a + b) rfl
  · rw [← sub_eq_ofInt]
    exact completesWith_of_registerOp (fun a b => a - b) rfl

/-- Settles O14: the word is R layout, and each bit of the result is the connective on the sources' bits. -/
theorem xorOrAnd : Obligations.XorOrAnd := by
  refine fun s rd rs1 rs2 => ⟨⟨decodeWord_encodeR rfl (fun _ => rfl) rd rs1 rs2, ?_⟩,
    ⟨decodeWord_encodeR rfl (fun _ => rfl) rd rs1 rs2, ?_⟩, ⟨decodeWord_encodeR rfl (fun _ => rfl) rd rs1 rs2, ?_⟩⟩
  · exact ⟨_, completesWith_of_registerOp (fun a b => a ^^^ b) rfl, fun _ => BitVec.getLsbD_xor⟩
  · exact ⟨_, completesWith_of_registerOp (fun a b => a ||| b) rfl, fun _ => BitVec.getLsbD_or⟩
  · exact ⟨_, completesWith_of_registerOp (fun a b => a &&& b) rfl, fun _ => BitVec.getLsbD_and⟩

/-- Settles O16: the word is R layout, and the result is the comparison's 1 or 0. -/
theorem setLessThan : Obligations.SetLessThan := by
  refine fun s rd rs1 rs2 => ⟨⟨decodeWord_encodeR rfl (fun _ => rfl) rd rs1 rs2, ?_⟩,
    ⟨decodeWord_encodeR rfl (fun _ => rfl) rd rs1 rs2, ?_⟩⟩
  · rw [← compareResult_lessSigned]
    exact completesWith_of_registerOp (fun a b => compareResult (lessSigned a b)) rfl
  · rw [← compareResult_lessUnsigned]
    exact completesWith_of_registerOp (fun a b => compareResult (lessUnsigned a b)) rfl

end Machine
end Sys2Proof
end

section
/-! The I_ARITH instructions and `lui`: their words and the operation they share (41_immediate_alu.md R180 to R187). -/

namespace Sys2Proof

/-- A word of the I layout whose opcode and function code resolve to `m` decodes to the instruction `C` that `m` stands for, with
the operands laid out (R106, R115). -/
theorem decodeWord_encodeI {op : BitVec 7} {f : Format} {f3 : BitVec 3} {m : Mnemonic} {C : RegId → RegId → BitVec 12 → Instr}
    (hc : classify op = f) (hm : ∀ f7, resolve f f3 f7 = some m)
    (hC : ∀ w, (fieldsOf f m w).instr = some (C (rdField w) (rs1Field w) (immRawI w))) (rd rs1 : RegId) (imm : BitVec 12) :
    decodeWord (encodeI op f3 rd rs1 imm) = .ok (C rd rs1 imm) := by
  apply decodeWord_of_instr
  rw [decodeFields_encodeI hc hm, hC, rdField_encodeI, rs1Field_encodeI, immRawI_encodeI]

/-- A word of the U layout decodes to `lui` with the operands laid out (R109, R115). -/
theorem decodeWord_encodeU (rd : RegId) (imm20 : BitVec 20) : decodeWord (encodeU rd imm20) = .ok (.lui rd imm20) := by
  have hinstr : ∀ w, (fieldsOf .u .lui w).instr = some (.lui (rdField w) ((immRawU w).extractLsb' 12 20)) := fun _ => rfl
  apply decodeWord_of_instr
  rw [decodeFields_encodeU, hinstr, rdField_encodeU, immRawU_encodeU, extractLsb'_luiValue]

/-- Twelve zeros below the immediate multiply it by 4096 (R109). -/
theorem luiValue_eq_ofNat (imm20 : BitVec 20) : luiValue imm20 = BitVec.ofNat 32 (imm20.toNat * 4096) := by
  have happend : (luiValue imm20).toNat = imm20.toNat <<< 12 := (BitVec.toNat_append ..).trans (Nat.or_zero _)
  have hscale : imm20.toNat <<< 12 = imm20.toNat * 4096 := Nat.shiftLeft_eq ..
  rw [← hscale, ← happend, BitVec.ofNat_toNat, BitVec.setWidth_eq]

namespace Machine

/-- An instruction that runs the shared operation writes its function of the source and the sign-extended immediate, advances
`pc`, and changes nothing else (R180). -/
theorem completesWith_of_immediateOp {i : Instr} {s : State} (f : Word → Word → Word) {rd rs1 : RegId} {imm : BitVec 12}
    (h : exec i s = immediateOp f rd rs1 imm s) : CompletesWith i s rd (f (s.x rs1) (sext12 imm)) (s.pc + 4) :=
  completesWith_of_advancePc h

/-- Settles O17: the word is I layout; the sum and the signed comparison see the immediate's own value, and the unsigned one the
number of its sign extension. -/
theorem addAndCompareImmediate : Obligations.AddAndCompareImmediate := by
  refine fun s rd rs1 imm => ⟨⟨decodeWord_encodeI rfl (fun _ => rfl) (fun _ => rfl) rd rs1 imm, ?_⟩,
    ⟨decodeWord_encodeI rfl (fun _ => rfl) (fun _ => rfl) rd rs1 imm, ?_⟩,
    ⟨decodeWord_encodeI rfl (fun _ => rfl) (fun _ => rfl) rd rs1 imm, ?_⟩⟩
  · rw [← sext12_toInt, ← add_eq_ofInt]
    exact completesWith_of_immediateOp (fun a b => a + b) rfl
  · rw [← sext12_toInt, ← compareResult_lessSigned]
    exact completesWith_of_immediateOp (fun a b => compareResult (lessSigned a b)) rfl
  · rw [← sext12_toNat, ← compareResult_lessUnsigned]
    exact completesWith_of_immediateOp (fun a b => compareResult (lessUnsigned a b)) rfl

/-- Settles O18: the word is I layout, and each bit of the result is the connective on the source's bit and the sign-extended
immediate's. -/
theorem logicImmediate : Obligations.LogicImmediate := by
  refine fun s rd rs1 imm => ⟨⟨decodeWord_encodeI rfl (fun _ => rfl) (fun _ => rfl) rd rs1 imm, ?_⟩,
    ⟨decodeWord_encodeI rfl (fun _ => rfl) (fun _ => rfl) rd rs1 imm, ?_⟩,
    ⟨decodeWord_encodeI rfl (fun _ => rfl) (fun _ => rfl) rd rs1 imm, ?_⟩⟩
  · refine ⟨_, completesWith_of_immediateOp (fun a b => a ^^^ b) rfl, fun k hk => ?_⟩
    rw [BitVec.getLsbD_xor, getLsbD_sext12 imm hk]
  · refine ⟨_, completesWith_of_immediateOp (fun a b => a ||| b) rfl, fun k hk => ?_⟩
    rw [BitVec.getLsbD_or, getLsbD_sext12 imm hk]
  · refine ⟨_, completesWith_of_immediateOp (fun a b => a &&& b) rfl, fun k hk => ?_⟩
    rw [BitVec.getLsbD_and, getLsbD_sext12 imm hk]

/-- Settles O19: the word is U layout, and the value is the immediate's alone. -/
theorem loadUpperImmediate : Obligations.LoadUpperImmediate := by
  refine fun s rd imm20 => ⟨decodeWord_encodeU rd imm20, ?_⟩
  rw [← luiValue_eq_ofNat]
  exact completesWith_of_advancePc rfl

end Machine
end Sys2Proof
end

section
/-! The words the spec writes out (30_encoding.md R115, R116; 95_test_vectors.md part 2), the branches and jumps of
43_control_transfer.md among them. -/

namespace Sys2Proof

/-- Settles O1: every clause is about one literal word, so the decoder's answer is computed, clause by clause: two words of R layout,
two of I (R106), two of S, two of SB, one each of U, UJ and I_JUMP, and one whose opcode no format has. -/
theorem decodeSpecWords : Obligations.DecodeSpecWords :=
  ⟨rfl, rfl, rfl, rfl, rfl, rfl, rfl, rfl, rfl, rfl, rfl, rfl⟩

end Sys2Proof
end

section
/-! The allocator's search and marking, and a malloc store that finds no space (44_ports_and_heap.md R271, R272, R275). -/

namespace Sys2Proof.Machine

/-! ### What `malloc` answers -/

theorem malloc_eq_some_iff {counts counts' : List Nat} {n start : Nat} :
    malloc counts n = some (start, counts') ↔
      firstFit counts (banksNeeded n) = some start ∧ markRun n start 0 counts = counts' := by
  unfold malloc
  cases firstFit counts (banksNeeded n) with
  | none => simp
  | some first =>
    simp only [Option.some_inj, Prod.mk.injEq]
    exact and_congr_right fun hstart => by rw [hstart]

theorem malloc_eq_none_iff {counts : List Nat} {n : Nat} :
    malloc counts n = none ↔ firstFit counts (banksNeeded n) = none := by
  unfold malloc
  cases firstFit counts (banksNeeded n) <;> simp

theorem runFree_eq_false_iff (counts : List Nat) (start nb : Nat) :
    runFree counts start nb = false ↔ ∃ k, k < nb ∧ counts[start + k]? ≠ some 0 := by
  rw [← Bool.not_eq_true, runFree_iff]
  simp only [Classical.not_forall, exists_prop]

theorem allocatorResponse_of_malloc_eq_some {counts counts' : List Nat} {size : Word} {start : Nat}
    (h : malloc counts size.toNat = some (start, counts')) : allocatorResponse counts size = ⟨true, bankPointer start⟩ := by
  simp only [allocatorResponse, h]

theorem allocatorResponse_of_malloc_eq_none {counts : List Nat} {size : Word} (h : malloc counts size.toNat = none) :
    allocatorResponse counts size = ⟨false, 0⟩ := by
  simp only [allocatorResponse, h]

theorem allocatorNext_of_malloc_eq_none {counts : List Nat} {size : Word} (h : malloc counts size.toNat = none) :
    allocatorNext counts size = counts := by
  simp only [allocatorNext, h]

/-- The pointer is 0 exactly on failure: heap pointers start at 0xB700 (R272, R275). -/
theorem allocatorResponse_ptr_eq_zero_iff_malloc (counts : List Nat) (size : Word) :
    (allocatorResponse counts size).ptr = 0 ↔ malloc counts size.toNat = none := by
  rw [allocatorResponse_ptr_eq_zero_iff]
  cases h : malloc counts size.toNat with
  | none => simp [allocatorResponse_of_malloc_eq_none h]
  | some r => simp [allocatorResponse_of_malloc_eq_some h]

/-! ### Marking a free run -/

section
variable {counts : List Nat} {n start k : Nat} (hfree : ∀ j, j < banksNeeded n → counts[start + j]? = some 0)
include hfree

/-- A bank of the run has its mark. -/
theorem markRun_getElem?_of_mem_run (hlo : start ≤ k) (hhi : k < start + banksNeeded n) :
    (markRun n start 0 counts)[k]? = some (markedCount n start k) := by
  have h0 : counts[k]? = some 0 := by
    rw [← hfree (k - start) (by omega), Nat.add_sub_cancel' hlo]
  rw [markRun_getElem?, Nat.zero_add, if_pos ⟨hlo, hhi⟩, h0, Option.map_some]

/-- Marking changes the run's counts and no other: a mark is never 0. -/
theorem markRun_getElem?_ne_iff :
    (markRun n start 0 counts)[k]? ≠ counts[k]? ↔ start ≤ k ∧ k < start + banksNeeded n := by
  constructor
  · intro hne
    by_cases hin : start ≤ k ∧ k < start + banksNeeded n
    · exact hin
    · rw [markRun_getElem?, Nat.zero_add, if_neg hin] at hne
      exact absurd rfl hne
  · rintro ⟨hlo, hhi⟩ heq
    have h0 := hfree (k - start) (by omega)
    rw [Nat.add_sub_cancel' hlo, ← heq, markRun_getElem?_of_mem_run hfree hlo hhi, Option.some_inj] at h0
    exact Nat.ne_of_gt (markedCount_range n start k).1 h0

end

/-! ### The malloc store without space (R271, D27) -/

/-- A request that finds no space writes 0 to the result register and nothing else. -/
theorem State.mallocRequest_of_malloc_eq_none {s : State} {v : Word} (h : malloc s.bytesAllocated v.toNat = none) :
    s.mallocRequest v = s.writeReg Config.mallocResultReg 0 := by
  rw [State.mallocRequest, allocatorNext_of_malloc_eq_none h, allocatorResponse_of_malloc_eq_none h]
  rfl

/-- A `sw` of the size to the malloc port, with no space for it, completes with 0 in the result register. -/
theorem completesWith_sw_of_malloc_eq_none {s : State} {rs1 rs2 : RegId} {imm : BitVec 12}
    (hea : s.effectiveAddress rs1 imm = portAddress .heapMalloc) (h : malloc s.bytesAllocated (s.x rs2).toNat = none) :
    CompletesWith (.sw rs1 rs2 imm) s Config.mallocResultReg 0 (s.pc + 4) := by
  have hexec : exec (.sw rs1 rs2 imm) s = .next ((s.mallocRequest (s.x rs2)).advancePc) := storeOp_malloc hea
  rw [State.mallocRequest_of_malloc_eq_none h] at hexec
  exact completesWith_of_advancePc hexec

/-- Settles O40: the scan's two characterisations say which run is taken and when there is none, and the marking of a free run says
what a success changes. -/
theorem allocatorProperties : Obligations.AllocatorProperties := by
  refine ⟨fun counts size _ => ⟨fun start counts' h => ?_, fun h start hs => ?_,
    allocatorResponse_ptr_eq_zero_iff_malloc counts size⟩, rfl, fun s rs1 rs2 imm => completesWith_sw_of_malloc_eq_none⟩
  · obtain ⟨hfit, rfl⟩ := malloc_eq_some_iff.mp h
    obtain ⟨hin, hrun, hfirst⟩ := (firstFit_eq_some_iff _ _ _).mp hfit
    have hfree := (runFree_iff _ _ _).mp hrun
    have hpos := banksNeeded_pos size.toNat
    refine ⟨hin, hfree, fun start' hs => (runFree_eq_false_iff _ _ _).mp (hfirst start' hs), ?_,
      fun k _ => ⟨markRun_getElem?_ne_iff hfree, fun hlo hhi =>
        ⟨_, markRun_getElem?_of_mem_run hfree hlo hhi, (markedCount_range _ _ _).1⟩⟩⟩
    rw [allocatorResponse_of_malloc_eq_some h]
    exact bankPointer_toNat (by omega)
  · exact (runFree_eq_false_iff _ _ _).mp ((firstFit_eq_none_iff _ _).mp (malloc_eq_none_iff.mp h) start hs)

end Sys2Proof.Machine
end

section
/-! Cycles that terminate before execute (60_exceptions.md R303; 70_reset_and_hazards.md R335). -/

namespace Sys2Proof.Machine

/-- At a valid `pc`, a word the decoder refuses is fetch's `InvalidInstruction` (R303, R335). -/
theorem State.fetchInstr_of_decodeWord_eq_error {s : State} (hpc : s.ValidPc) {r : Reject}
    (hd : decodeWord s.fetchWord = .error r) : s.fetchInstr = .error (.invalidInstruction s.fetchWord) := by
  obtain ⟨hle, hmod⟩ := hpc
  rcases s.fetchInstr_cases with ⟨hgt, -⟩ | ⟨-, hne, -⟩ | ⟨-, ⟨-, -, e⟩ | ⟨i, hok, -⟩⟩
  · exact absurd hle (Nat.not_le.mpr hgt)
  · exact absurd hmod hne
  · exact e
  · rw [hd] at hok
    cases hok

/-- A RUNNING machine whose fetch or decode terminates ends its run with that cause, and executes nothing (R303, R335). -/
theorem endsRun_step_of_fetchInstr_eq_error {s : State} {c : Cause} (hr : s.runState = .running)
    (hf : s.fetchInstr = .error c) : EndsRun (step s) s c := by
  have hf' : s.beginCycle.fetchInstr = .error c := hf
  have hstep : step s = .next (s.beginCycle.raise c) := by simp only [step, hr, hf']
  exact endsRun_of_raise false hstep

/-- Settles O47: fetch answers the word's `InvalidInstruction`, and the cycle ends the run with it. -/
theorem fatalDecodeError : Obligations.FatalDecodeError := fun _ _ hr hle hmod hd =>
  ⟨endsRun_step_of_fetchInstr_eq_error hr (State.fetchInstr_of_decodeWord_eq_error ⟨hle, hmod⟩ hd), rfl⟩

end Sys2Proof.Machine
end

section
/-! The decoder and the encoder undo each other, and which words decode (30_encoding.md R103 to R117). -/

namespace Sys2Proof

/-! ### Decoding an encoded instruction (R105 to R110, 20_memory.md R80) -/

/-- A word of the S layout whose function code resolves to `m` decodes to the instruction `C` that `m` stands for. -/
theorem decodeWord_encodeS {f3 : BitVec 3} {m : Mnemonic} {C : RegId → RegId → BitVec 12 → Instr}
    (hm : ∀ f7, resolve .s f3 f7 = some m)
    (hC : ∀ w, (fieldsOf .s m w).instr = some (C (rs1Field w) (rs2Field w) (immRawS w))) (rs1 rs2 : RegId) (imm : BitVec 12) :
    decodeWord (encodeS f3 rs1 rs2 imm) = .ok (C rs1 rs2 imm) := by
  apply decodeWord_of_instr
  rw [decodeFields_encodeS hm, hC, rs1Field_encodeS, rs2Field_encodeS, immRawS_encodeS]

/-- The same of the SB layout, for an even offset (R108). -/
theorem decodeWord_encodeSB {f3 : BitVec 3} {m : Mnemonic} {C : RegId → RegId → BitVec 13 → Instr}
    (hm : ∀ f7, resolve .sb f3 f7 = some m)
    (hC : ∀ w, (fieldsOf .sb m w).instr = some (C (rs1Field w) (rs2Field w) (immRawSB w))) (rs1 rs2 : RegId)
    {imm : BitVec 13} (h0 : imm.getLsbD 0 = false) : decodeWord (encodeSB f3 rs1 rs2 imm) = .ok (C rs1 rs2 imm) := by
  apply decodeWord_of_instr
  rw [decodeFields_encodeSB hm, hC, rs1Field_encodeSB, rs2Field_encodeSB, immRawSB_encodeSB _ _ _ h0]

/-- A word of the UJ layout with an even offset decodes to `jal` (R110). -/
theorem decodeWord_encodeUJ (rd : RegId) {imm : BitVec 21} (h0 : imm.getLsbD 0 = false) :
    decodeWord (encodeUJ rd imm) = .ok (.jal rd imm) := by
  have hinstr : ∀ w, (fieldsOf .uj .jal w).instr = some (.jal (rdField w) (immRawUJ w)) := fun _ => rfl
  apply decodeWord_of_instr
  rw [decodeFields_encodeUJ, hinstr, rdField_encodeUJ, immRawUJ_encodeUJ _ h0]

/-- The decoder undoes the encoder, layout by layout. -/
theorem decodeWord_encode {i : Instr} (h : i.WellFormed) : decodeWord (encode i) = .ok i := by
  cases i with
  | add rd rs1 rs2 | sub rd rs1 rs2 | xor rd rs1 rs2 | or rd rs1 rs2 | and rd rs1 rs2 | sll rd rs1 rs2 | srl rd rs1 rs2
  | sra rd rs1 rs2 | slt rd rs1 rs2 | sltu rd rs1 rs2 =>
    exact decodeWord_encodeR rfl (fun _ => rfl) rd rs1 rs2
  | addi rd rs1 imm | slti rd rs1 imm | sltiu rd rs1 imm | xori rd rs1 imm | ori rd rs1 imm | andi rd rs1 imm
  | lb rd rs1 imm | lh rd rs1 imm | lw rd rs1 imm | lbu rd rs1 imm | lhu rd rs1 imm | jalr rd rs1 imm =>
    exact decodeWord_encodeI rfl (fun _ => rfl) (fun _ => rfl) rd rs1 imm
  | lui rd imm20 => exact decodeWord_encodeU rd imm20
  | sb rs1 rs2 imm | sh rs1 rs2 imm | sw rs1 rs2 imm =>
    exact decodeWord_encodeS (fun _ => rfl) (fun _ => rfl) rs1 rs2 imm
  | beq rs1 rs2 imm | bne rs1 rs2 imm | blt rs1 rs2 imm | bge rs1 rs2 imm | bltu rs1 rs2 imm | bgeu rs1 rs2 imm =>
    exact decodeWord_encodeSB (fun _ => rfl) (fun _ => rfl) rs1 rs2 ((Bool.not_eq_true' _).mp h)
  | jal rd imm => exact decodeWord_encodeUJ rd ((Bool.not_eq_true' _).mp h)

/-- The word of a word's four bytes, in memory order (20_memory.md R80). -/
theorem wordOfBytes_slices (w : Word) :
    wordOfBytes (w.extractLsb' 0 8) (w.extractLsb' 8 8) (w.extractLsb' 16 8) (w.extractLsb' 24 8) = w := by
  apply BitVec.eq_of_getLsbD_eq
  intro i hi
  simp only [wordOfBytes, BitVec.getLsbD_append]
  split
  · exact getLsbD_slice w (by omega) (by omega)
  · split
    · exact getLsbD_slice w (by omega) (by omega)
    · split
      · exact getLsbD_slice w (by omega) (by omega)
      · exact getLsbD_slice w (by omega) (by omega)

/-- The byte decoder on a valid word's bytes: the word's instruction, and what follows it. -/
theorem decodeBytes_bytesOfWord {w : Word} {i : Instr} (h : decodeWord w = .ok i) (rest : List Byte) :
    decodeBytes (bytesOfWord w ++ rest) = .ok (i, rest) := by
  simp only [bytesOfWord, List.cons_append, List.nil_append, decodeBytes, wordOfBytes_slices, h]

/-- The opcode table's numbering of a valid word. -/
theorem decodeTableWord_toNat {w : Word} {i : Instr} (h : decodeWord w = .ok i) : decodeTableWord 32 w.toNat = some i := by
  have hw : BitVec.ofNat 32 (w.toNat % 2 ^ 32) = w := by rw [Nat.mod_eq_of_lt w.isLt, BitVec.ofNat_toNat, BitVec.setWidth_eq]
  have hb := decodeBytes_bytesOfWord h []
  rw [List.append_nil] at hb
  simp only [decodeTableWord, hw, hb, Nat.le_refl, if_true]

/-- Settles O2: `decodeWord_encode` is the round trip of the word, and its bytes in memory order are the word again. -/
theorem decodeOfEncode : Obligations.DecodeOfEncode := fun _ hi =>
  have hd := decodeWord_encode hi
  ⟨hd, decodeBytes_bytesOfWord hd, decodeTableWord_toNat hd⟩

/-! ### The codes of a resolved word (R103, R115) -/

/-- The function codes that a mnemonic's row of the table fixes (R115, R117): `funct7` for R format alone, and `funct3` for all but
U and UJ. -/
def Mnemonic.HasCodes (m : Mnemonic) (f3 : BitVec 3) (f7 : BitVec 7) : Prop :=
  (m.format ≠ .u → m.format ≠ .uj → f3 = funct3Field m.pattern) ∧ (m.format = .r → f7 = funct7Field m.pattern)

theorem resolve_of_hasCodes {m : Mnemonic} {f3 : BitVec 3} {f7 : BitVec 7} (h : m.HasCodes f3 f7) :
    resolve m.format f3 f7 = some m := by
  obtain ⟨h3, h7⟩ := h
  cases m with
  | add | sub | xor | or | and | sll | srl | sra | slt | sltu => rw [h3 nofun nofun, h7 rfl]; rfl
  | addi | slti | sltiu | xori | ori | andi | lb | lh | lw | lbu | lhu | sb | sh | sw | beq | bne | blt | bge | bltu | bgeu
  | jalr => rw [h3 nofun nofun]; rfl
  | lui | jal => rfl

/-- A resolved word has its mnemonic's format and codes. -/
theorem hasCodes_of_resolve {f : Format} {f3 : BitVec 3} {f7 : BitVec 7} {m : Mnemonic} (h : resolve f f3 f7 = some m) :
    f = m.format ∧ m.HasCodes f3 f7 := by
  have hlast : f3 ≠ 0b000#3 → f3 ≠ 0b001#3 → f3 ≠ 0b010#3 → f3 ≠ 0b011#3 → f3 ≠ 0b100#3 → f3 ≠ 0b101#3 → f3 ≠ 0b110#3 →
      f3 = 0b111#3 := by bv_omega
  cases f with
  | r =>
    simp only [resolve] at h
    repeat' split at h
    all_goals cases h
    all_goals refine ⟨rfl, fun _ _ => ?_, fun _ => by assumption⟩
    any_goals assumption
    exact hlast ‹_› ‹_› ‹_› ‹_› ‹_› ‹_› ‹_›
  | iArith | iLoad | iJump | s | sb =>
    simp only [resolve] at h
    repeat' split at h
    all_goals cases h
    all_goals exact ⟨rfl, fun _ _ => by assumption, nofun⟩
  | u | uj => cases h; exact ⟨rfl, nofun, nofun⟩
  | invalid => cases h

/-- The opcode of each format (R103); `INVALID` has none, and stands for 0 here. -/
def Format.opcode : Format → BitVec 7
  | .r => 0b0110011
  | .iArith => 0b0010011
  | .iLoad => 0b0000011
  | .iJump => 0b1100111
  | .s => 0b0100011
  | .sb => 0b1100011
  | .u => 0b0110111
  | .uj => 0b1101111
  | .invalid => 0

theorem opcode_classify {op : BitVec 7} (h : classify op ≠ .invalid) : (classify op).opcode = op := by
  rcases classify_cases op with ⟨ho, hc⟩ | ⟨ho, hc⟩ | ⟨ho, hc⟩ | ⟨ho, hc⟩ | ⟨ho, hc⟩ | ⟨ho, hc⟩ | ⟨ho, hc⟩ | ⟨ho, hc⟩ | hc
  case inr.inr.inr.inr.inr.inr.inr.inr => exact absurd hc h
  all_goals rw [hc, ho]; rfl

theorem classify_opcode {f : Format} (h : f ≠ .invalid) : classify f.opcode = f := by
  cases f with
  | invalid => exact absurd rfl h
  | r | iArith | iLoad | iJump | s | sb | u | uj => rfl

theorem Mnemonic.format_ne_invalid (m : Mnemonic) : m.format ≠ .invalid := by cases m <;> nofun
theorem Mnemonic.opcode_format (m : Mnemonic) : m.format.opcode = opcodeField m.pattern := by cases m <;> rfl

/-- A word resolves to `m` exactly when it has `m`'s opcode and function codes (R103, R115). -/
theorem resolve_eq_some_iff (w : Word) (m : Mnemonic) :
    resolve (classify (opcodeField w)) (funct3Field w) (funct7Field w) = some m ↔
      opcodeField w = m.format.opcode ∧ m.HasCodes (funct3Field w) (funct7Field w) := by
  constructor
  · intro h
    obtain ⟨hf, hcodes⟩ := hasCodes_of_resolve h
    exact ⟨by rw [← hf, opcode_classify (by rw [hf]; exact m.format_ne_invalid)], hcodes⟩
  · rintro ⟨ho, hcodes⟩
    rw [ho, classify_opcode m.format_ne_invalid, resolve_of_hasCodes hcodes]

/-! ### The instruction of a resolved word (R115) -/

/-- A resolved word has an instruction, well-formed, whose encoding is the word: each layout is determined by its fields. -/
theorem exists_instr_of_resolve {w : Word} {m : Mnemonic}
    (h : resolve (classify (opcodeField w)) (funct3Field w) (funct7Field w) = some m) :
    ∃ i, (fieldsOf (classify (opcodeField w)) m w).instr = some i ∧ i.WellFormed ∧ encode i = w := by
  obtain ⟨ho, h3, h7⟩ := (resolve_eq_some_iff w m).mp h
  rw [ho, classify_opcode m.format_ne_invalid]
  cases m with
  | add | sub | xor | or | and | sll | srl | sra | slt | sltu =>
    have hw := encodeR_fields ho
    rw [h3 nofun nofun, h7 rfl] at hw
    exact ⟨_, rfl, rfl, hw⟩
  | addi | slti | sltiu | xori | ori | andi | lb | lh | lw | lbu | lhu | jalr =>
    have hw := encodeI_fields w
    rw [ho, h3 nofun nofun] at hw
    exact ⟨_, rfl, rfl, hw⟩
  | lui => exact ⟨_, rfl, rfl, encodeU_fields ho⟩
  | sb | sh | sw =>
    have hw := encodeS_fields ho
    rw [h3 nofun nofun] at hw
    exact ⟨_, rfl, rfl, hw⟩
  | beq | bne | blt | bge | bltu | bgeu =>
    have hw := encodeSB_fields ho
    rw [h3 nofun nofun] at hw
    exact ⟨_, rfl, (Bool.not_eq_true' _).mpr (getLsbD_zero_immRawSB w), hw⟩
  | jal => exact ⟨_, rfl, (Bool.not_eq_true' _).mpr (getLsbD_zero_immRawUJ w), encodeUJ_fields ho⟩

/-- Settles O3: what a word decodes to is the instruction of its fields, which encodes to the word. -/
theorem encodeOfDecode : Obligations.EncodeOfDecode := by
  intro w i hd
  obtain ⟨m, hm, hi⟩ := decodeWord_ok hd
  obtain ⟨j, hj, hwf, henc⟩ := exists_instr_of_resolve hm
  rw [hi] at hj
  cases hj
  exact ⟨hwf, henc⟩

/-! ### The rows of the opcode table (R117) -/

theorem opcodeField_mask (m : Mnemonic) : opcodeField m.mask = BitVec.allOnes 7 := by cases m <;> rfl

/-- A word that matches a row has the row's opcode and function codes: the row's mask keeps those fields whole. -/
theorem hasCodes_of_matchesWord {m : Mnemonic} {w : Word} (h : m.matchesWord w = true) :
    opcodeField w = m.format.opcode ∧ m.HasCodes (funct3Field w) (funct7Field w) := by
  have hmatch : w &&& m.mask = m.pattern := beq_iff_eq.mp h
  have hfield {lo len : Nat} (hmask : m.mask.extractLsb' lo len = BitVec.allOnes len) :
      w.extractLsb' lo len = m.pattern.extractLsb' lo len := by
    rw [← hmatch, BitVec.extractLsb'_and, hmask, BitVec.and_allOnes]
  refine ⟨by rw [m.opcode_format]; exact hfield (opcodeField_mask m), fun hu huj => hfield ?_, fun hr => hfield ?_⟩
  · cases m with
    | lui => exact absurd rfl hu
    | jal => exact absurd rfl huj
    | _ => rfl
  · rw [Mnemonic.mask, hr]
    rfl

theorem resolve_of_matchesWord {m : Mnemonic} {w : Word} (h : m.matchesWord w = true) :
    resolve (classify (opcodeField w)) (funct3Field w) (funct7Field w) = some m :=
  (resolve_eq_some_iff w m).mpr (hasCodes_of_matchesWord h)

/-- The encoder's word matches its instruction's own row: the family `EncodeMatchesRow`, for every instruction. -/
theorem matchesWord_encode (i : Instr) : i.mnemonic.matchesWord (encode i) = true := by
  cases i with
  | add rd rs1 rs2 | sub rd rs1 rs2 | xor rd rs1 rs2 | or rd rs1 rs2 | and rd rs1 rs2 | sll rd rs1 rs2 | srl rd rs1 rs2
  | sra rd rs1 rs2 | slt rd rs1 rs2 | sltu rd rs1 rs2 => exact beq_iff_eq.mpr (Laws.encodeR_and_mask _ _ rd rs1 rs2)
  | addi rd rs1 imm | slti rd rs1 imm | sltiu rd rs1 imm | xori rd rs1 imm | ori rd rs1 imm | andi rd rs1 imm
  | lb rd rs1 imm | lh rd rs1 imm | lw rd rs1 imm | lbu rd rs1 imm | lhu rd rs1 imm | jalr rd rs1 imm =>
    exact beq_iff_eq.mpr (Laws.encodeI_and_mask _ _ rd rs1 imm)
  | lui rd imm20 => exact Laws.EncodeMatchesRow.lui rd imm20
  | sb rs1 rs2 imm | sh rs1 rs2 imm | sw rs1 rs2 imm => exact beq_iff_eq.mpr (Laws.encodeS_and_mask _ rs1 rs2 imm)
  | beq rs1 rs2 imm | bne rs1 rs2 imm | blt rs1 rs2 imm | bge rs1 rs2 imm | bltu rs1 rs2 imm | bgeu rs1 rs2 imm =>
    exact beq_iff_eq.mpr (Laws.encodeSB_and_mask _ rs1 rs2 imm)
  | jal rd imm => exact Laws.EncodeMatchesRow.jal rd imm

/-- A word that decodes matches the row of its instruction's mnemonic. -/
theorem matchesWord_of_decodeWord_ok {w : Word} {i : Instr} (h : decodeWord w = .ok i) : i.mnemonic.matchesWord w = true := by
  rw [← (encodeOfDecode w i h).2]
  exact matchesWord_encode i

/-- A word that matches a row decodes. -/
theorem exists_decodeWord_of_resolve {w : Word} {m : Mnemonic}
    (h : resolve (classify (opcodeField w)) (funct3Field w) (funct7Field w) = some m) : ∃ i, decodeWord w = .ok i := by
  obtain ⟨i, hi, -⟩ := exists_instr_of_resolve h
  exact ⟨i, decodeWord_of_instr (by simpa only [decodeFields, h] using hi)⟩

/-- Settles O4: a match resolves the word to the row's mnemonic, and a word resolves to one mnemonic at most. -/
theorem validWordMatchesOneRow : Obligations.ValidWordMatchesOneRow := by
  refine fun w => ⟨fun i hd m => ⟨fun hm => ?_, fun hm => hm ▸ matchesWord_of_decodeWord_ok hd⟩, fun r hd m => ?_⟩
  · have hi := resolve_of_matchesWord (matchesWord_of_decodeWord_ok hd)
    rw [resolve_of_matchesWord hm] at hi
    exact Option.some.inj hi
  · rw [← Bool.not_eq_true]
    intro hm
    obtain ⟨i, hi⟩ := exists_decodeWord_of_resolve (resolve_of_matchesWord hm)
    rw [hd] at hi
    cases hi

/-! ### The words that are no instruction (R104, R116) -/

/-- A word that resolves to nothing decodes to `INVALID`, with the reason its opcode gives. -/
theorem decodeWord_of_resolve_eq_none {w : Word}
    (h : resolve (classify (opcodeField w)) (funct3Field w) (funct7Field w) = none) :
    decodeFields w = .invalid w (opcodeField w) ∧
    decodeWord w = .error (if classify (opcodeField w) = .invalid then .unknownOpcode (opcodeField w)
      else .unresolvedFunction (opcodeField w) (funct3Field w) (funct7Field w)) := by
  have hf : decodeFields w = .invalid w (opcodeField w) := by rw [decodeFields, h]
  refine ⟨hf, ?_⟩
  rw [decodeWord, hf]
  dsimp only [Decoded.instr]
  split <;> rfl

theorem decodeWord_of_classify_eq_invalid {w : Word} (h : classify (opcodeField w) = .invalid) :
    decodeWord w = .error (.unknownOpcode (opcodeField w)) := by
  rw [(decodeWord_of_resolve_eq_none (by rw [h]; rfl)).2, if_pos h]

theorem decodeWord_of_unresolved {w : Word} {f : Format} (hc : classify (opcodeField w) = f) (hf : f ≠ .invalid)
    (h : resolve f (funct3Field w) (funct7Field w) = none) :
    decodeWord w = .error (.unresolvedFunction (opcodeField w) (funct3Field w) (funct7Field w)) := by
  rw [(decodeWord_of_resolve_eq_none (by rw [hc, h])).2, if_neg (by rwa [hc])]

/-- A refused word is one that decodes to `INVALID`. -/
theorem decodeWord_eq_error_iff (w : Word) : (∃ r, decodeWord w = .error r) ↔ decodeFields w = .invalid w (opcodeField w) := by
  constructor
  · rintro ⟨r, hr⟩
    cases h : resolve (classify (opcodeField w)) (funct3Field w) (funct7Field w) with
    | none => exact (decodeWord_of_resolve_eq_none h).1
    | some m =>
      obtain ⟨i, hi⟩ := exists_decodeWord_of_resolve h
      rw [hr] at hi
      cases hi
  · intro h
    rw [decodeWord, h]
    dsimp only [Decoded.instr]
    split <;> exact ⟨_, rfl⟩

/-- The opcodes outside the eight are `INVALID`'s (R104). -/
theorem classify_eq_invalid {op : BitVec 7} (h : op ∉ [0x33#7, 0x13#7, 0x03#7, 0x67#7, 0x23#7, 0x63#7, 0x37#7, 0x6F#7]) :
    classify op = .invalid := by
  revert op
  decide

/-- Settles O8: an opcode outside the eight has no format, and a listed one refuses each function code that R115 has no row for. -/
theorem invalidWords : Obligations.InvalidWords := by
  refine ⟨decodeWord_eq_error_iff, fun w h => decodeWord_of_classify_eq_invalid (classify_eq_invalid h), rfl, rfl, rfl,
    fun w h => ?_⟩
  rcases h with ⟨ho, h7⟩ | ⟨ho, h3⟩ | ⟨ho, h3⟩ | ⟨ho, h3⟩ | ⟨ho, h3⟩ | ⟨ho, h3⟩
  · exact decodeWord_of_unresolved (f := .r) (by rw [ho]; rfl) nofun (by rw [h7]; rfl)
  · refine decodeWord_of_unresolved (f := .iArith) (by rw [ho]; rfl) nofun ?_
    rcases h3 with h3 | h3 <;> rw [h3] <;> rfl
  · refine decodeWord_of_unresolved (f := .iLoad) (by rw [ho]; rfl) nofun ?_
    rcases h3 with h3 | h3 | h3 <;> rw [h3] <;> rfl
  · exact decodeWord_of_unresolved (f := .iJump) (by rw [ho]; rfl) nofun (if_neg h3)
  · refine decodeWord_of_unresolved (f := .s) (by rw [ho]; rfl) nofun ?_
    have hs : ∀ f3 : BitVec 3, 0b011 ≤ f3.toNat → resolve .s f3 0 = none := by decide
    exact hs _ h3
  · refine decodeWord_of_unresolved (f := .sb) (by rw [ho]; rfl) nofun ?_
    rcases h3 with h3 | h3 <;> rw [h3] <;> rfl

/-! ### The fields of branches and jumps (R108, R110) -/

theorem getLsbD_sext13 (v : BitVec 13) {k : Nat} (h : k < 32) : (sext13 v).getLsbD k = v.getLsbD (min k 12) := by
  unfold sext13
  rw [BitVec.getLsbD_signExtend, decide_eq_true h, Bool.true_and]
  split
  · congr 1; omega
  · rw [BitVec.msb_eq_getLsbD_last]; congr 1; omega

theorem getLsbD_sext21 (v : BitVec 21) {k : Nat} (h : k < 32) : (sext21 v).getLsbD k = v.getLsbD (min k 20) := by
  unfold sext21
  rw [BitVec.getLsbD_signExtend, decide_eq_true h, Bool.true_and]
  split
  · congr 1; omega
  · rw [BitVec.msb_eq_getLsbD_last]; congr 1; omega

/-- Settles O6: the decoded value is one format's fields, and `getLsbD_immRawSB` and `getLsbD_immRawUJ` give the immediates' bits. -/
theorem fieldsOfBranchesAndJumps : Obligations.FieldsOfBranchesAndJumps := by
  intro w
  obtain ⟨f, m, h⟩ := decodeFields_eq_fieldsOf w
  rw [h]
  cases f with
  | sb =>
    refine ⟨rfl, extractBits_funct3Field w, extractBits_rs1Field w, extractBits_rs2Field w, getLsbD_immRawSB w 12,
      getLsbD_immRawSB w 11, fun k hlo hhi => ?_, fun k hlo hhi => ?_, getLsbD_zero_immRawSB w, fun _ => getLsbD_sext13 _⟩
    · rw [getLsbD_immRawSB, if_neg (by omega), if_neg (by omega), if_pos (by omega), Nat.add_comm]
    · rw [getLsbD_immRawSB, if_neg (by omega), if_pos (by omega), Nat.add_comm]
  | uj =>
    refine ⟨rfl, extractBits_rdField w, getLsbD_immRawUJ w 20, getLsbD_immRawUJ w 11, fun k hlo hhi => ?_, fun k hlo hhi => ?_,
      getLsbD_zero_immRawUJ w, fun _ => getLsbD_sext21 _⟩
    · rw [getLsbD_immRawUJ, if_neg (by omega), if_neg (by omega), if_neg (by omega), if_pos (by omega)]
    · rw [getLsbD_immRawUJ, if_neg (by omega), if_pos (by omega), Nat.add_comm]
  | r | iArith | iLoad | iJump | s | u | invalid => trivial

end Sys2Proof
end

section
/-! What a cycle can do to each part of the state, from the one inversion lemma of `step` (70_reset_and_hazards.md R334 to R337), and the
properties of runs that follow. -/

namespace Sys2Proof.Machine

/-! ### The effects, part by part -/

section
variable {s t : State}

/-- Only a plain store touches memory, by its strobes. -/
theorem Effect.mem_cases (h : Effect s t) :
    t.mem = s.mem ∨ ∃ ea bs, t.mem = Memory.writeAll s.mem (writeStrobes ea bs) := by
  cases h with
  | store ea bs hlen => exact .inr ⟨ea, bs, rfl⟩
  | register | load | console | emit | malloc | raise => left; simp

/-- Only a malloc request touches the counts. -/
theorem Effect.bytesAllocated_cases (h : Effect s t) :
    t.bytesAllocated = s.bytesAllocated ∨ ∃ v, t.bytesAllocated = allocatorNext s.bytesAllocated v := by
  cases h with
  | malloc v => exact .inr ⟨v, by simp⟩
  | register | load | console | store | emit | raise => left; simp

/-- Only a termination touches the run state. -/
theorem Effect.runState_cases (h : Effect s t) :
    t.runState = s.runState ∨ ∃ b c, t = (s.setPending b).raise c ∧
      (c = .halt ∨ ∃ ea, c = .addressFault ea ∧ ∃ i, i < 4 ∧ 0xD700 ≤ (ea + BitVec.ofNat 32 i).toNat) := by
  cases h with
  | raise b _ c hc => exact .inr ⟨b, c, rfl, hc⟩
  | register | load | console | store | emit | malloc => left; simp

/-- No effect leaves a virtual load pending. -/
theorem Effect.pendingVirtualLoad_eq_false (h : Effect s t) (hs : s.pendingVirtualLoad = false) :
    t.pendingVirtualLoad = false := by
  cases h with
  | raise b hb c _ => rcases hb with rfl | rfl <;> simp [hs]
  | register | load | console | store | emit | malloc => simp [hs]

theorem State.raise_output_cases (s : State) (c : Cause) : ∃ es, es.length ≤ 1 ∧ (s.raise c).output = s.output ++ es := by
  rw [State.raise_output]
  split
  · exact ⟨[.dumpRegs _ _], Nat.le_refl 1, rfl⟩
  · exact ⟨[], Nat.zero_le 1, (List.append_nil _).symm⟩

/-- At most one event is added, at the end. -/
theorem Effect.output_cases (h : Effect s t) : ∃ es, es.length ≤ 1 ∧ t.output = s.output ++ es := by
  cases h with
  | emit e => exact ⟨[e], Nat.le_refl 1, rfl⟩
  | raise b _ c _ => exact State.raise_output_cases _ c
  | register | load | console | store | malloc => exact ⟨[], Nat.zero_le 1, by simp⟩

/-- At most one input value is taken, from the front. -/
theorem Effect.input_cases (h : Effect s t) : ∃ vs, vs.length ≤ 1 ∧ s.input = vs ++ t.input := by
  cases h with
  | console i rest r v hi => exact ⟨[i], Nat.le_refl 1, by simp [hi]⟩
  | register | load | store | emit | malloc | raise => exact ⟨[], Nat.zero_le 1, by simp⟩

/-- A state whose registers read as before is one in which `x0` was written. -/
theorem State.writesReg_zero_of_sameRegs (h : s.SameRegs t) : s.WritesReg t 0 0 := fun q => by
  rw [h q, if_neg (fun hq => hq.2 hq.1)]

/-- At most one register is written. -/
theorem Effect.exists_writesReg (h : Effect s t) : ∃ rd v, s.WritesReg t rd v := by
  cases h with
  | register r v p => exact ⟨r, v, s.x_writeReg r v⟩
  | load r v => exact ⟨r, v, State.x_writeReg _ r v⟩
  | console i rest r v _ => exact ⟨r, v, State.x_writeReg _ r v⟩
  | malloc v => exact ⟨_, _, s.mallocRequest_x v⟩
  | store | emit | raise => exact ⟨0, 0, State.writesReg_zero_of_sameRegs fun q => by simp⟩

end

/-! ### Steps, part by part -/

section
variable {s t : State} (h : step s = .next t)
include h

/-- A step is an effect of the cycle's start, or a termination before execute. -/
theorem step_effect_or_raise : Effect s.beginCycle t ∨ ∃ c, t = (s.beginCycle.setPending false).raise c :=
  (step_effect h).2.symm

/-- A step executes the decoded instruction, or terminates before. -/
theorem step_executes_or_raises :
    (∃ i, decodeWord s.fetchWord = .ok i ∧ exec i s.beginCycle = .next t) ∨ ∃ c, t = s.beginCycle.raise c := by
  obtain ⟨-, ⟨-, ht⟩ | ⟨-, -, ht⟩ | ⟨-, ⟨r, -, ht⟩ | ⟨i, hd, hx⟩⟩⟩ := step_cases h
  · exact .inr ⟨_, ht⟩
  · exact .inr ⟨_, ht⟩
  · exact .inr ⟨_, ht⟩
  · exact .inl ⟨i, hd, hx⟩

theorem step_mem_cases : t.mem = s.mem ∨ ∃ ea bs, t.mem = Memory.writeAll s.mem (writeStrobes ea bs) := by
  rcases step_effect_or_raise h with he | ⟨c, rfl⟩
  · exact he.mem_cases
  · left; simp

theorem step_bytesAllocated_cases :
    t.bytesAllocated = s.bytesAllocated ∨ ∃ v, t.bytesAllocated = allocatorNext s.bytesAllocated v := by
  rcases step_effect_or_raise h with he | ⟨c, rfl⟩
  · exact he.bytesAllocated_cases
  · left; simp

theorem step_pendingVirtualLoad : t.pendingVirtualLoad = false := by
  rcases step_effect_or_raise h with he | ⟨c, rfl⟩
  · exact he.pendingVirtualLoad_eq_false rfl
  · simp

theorem step_output_cases : ∃ es, es.length ≤ 1 ∧ t.output = s.output ++ es := by
  rcases step_effect_or_raise h with he | ⟨c, rfl⟩
  · exact he.output_cases
  · exact State.raise_output_cases _ c

theorem step_input_cases : ∃ vs, vs.length ≤ 1 ∧ s.input = vs ++ t.input := by
  rcases step_effect_or_raise h with he | ⟨c, rfl⟩
  · exact he.input_cases
  · exact ⟨[], Nat.zero_le 1, by simp⟩

theorem step_exists_writesReg : ∃ rd v, s.WritesReg t rd v := by
  rcases step_effect_or_raise h with he | ⟨c, rfl⟩
  · exact he.exists_writesReg
  · exact ⟨0, 0, State.writesReg_zero_of_sameRegs fun q => by simp⟩

/-- A step that ends in HALTED is a termination of the cycle's start. -/
theorem step_halted {c : Cause} (hc : t.runState = .halted c) : ∃ b, t = (s.beginCycle.setPending b).raise c := by
  have raised {b : Bool} {d : Cause} (ht : t = (s.beginCycle.setPending b).raise d) :
      ∃ b, t = (s.beginCycle.setPending b).raise c := by
    rw [ht, State.raise_runState, RunState.halted.injEq] at hc
    exact ⟨b, by rw [ht, hc]⟩
  rcases step_effect_or_raise h with he | ⟨d, ht⟩
  · rcases he.runState_cases with hr | ⟨b, d, ht, -⟩
    · rw [hr, State.beginCycle_runState, (step_cases h).1] at hc
      cases hc
    · exact raised ht
  · exact raised ht

end

/-! ### Instruction memory (20_memory.md R79) -/

/-- No strobe reaches instruction memory (R67, D13). -/
theorem read_writeAll_strobes_of_imem (m : Memory) (ea : Word) (bs : List Byte) {a : Nat} (ha : a ≤ 0x3FF) :
    Memory.read (Memory.writeAll m (writeStrobes ea bs)) a = Memory.read m a := by
  refine Memory.read_writeAll_of_not_mem _ _ _ fun c hc hca => ?_
  obtain ⟨i, -, hcell, hstore, -⟩ := mem_writeStrobes hc
  have hrange := (route_storeCell hstore).2
  omega

theorem step_read_imem {s t : State} (h : step s = .next t) {a : Nat} (ha : a ≤ 0x3FF) :
    Memory.read t.mem a = Memory.read s.mem a := by
  rcases step_mem_cases h with hm | ⟨ea, bs, hm⟩ <;> rw [hm]
  exact read_writeAll_strobes_of_imem _ _ _ ha

theorem steps_read_imem {s t : State} (h : Steps s t) {a : Nat} (ha : a ≤ 0x3FF) :
    Memory.read t.mem a = Memory.read s.mem a := by
  induction h with
  | refl => rfl
  | tail _ hstep ih => rw [step_read_imem hstep ha, ih]

/-- Settles O32: no cycle's strobes reach instruction memory, by induction on the number of cycles; a fetch word is four of its bytes. -/
theorem instructionMemoryConstant : Obligations.InstructionMemoryConstant := by
  refine fun s t h => ⟨fun a ha => State.byteAt_congr (steps_read_imem h ha), fun k hk => ?_⟩
  have hbyte : ∀ a, a ≤ 0x3FF → t.imem a = s.imem a := fun a ha => steps_read_imem h ha
  rw [State.iword, State.iword, hbyte (4 * k) (by omega), hbyte (4 * k + 1) (by omega), hbyte (4 * k + 2) (by omega),
    hbyte (4 * k + 3) (by omega)]

/-! ### Allocated banks (44_ports_and_heap.md R273) -/

theorem step_keeps_allocated {s t : State} (h : step s = .next t) {k c : Nat} (hk : s.bytesAllocated[k]? = some c)
    (hc : c ≠ 0) : t.bytesAllocated[k]? = some c := by
  rcases step_bytesAllocated_cases h with hm | ⟨v, hm⟩ <;> rw [hm]
  · exact hk
  · exact allocatorNext_of_ne_zero hk hc

/-- Settles O42: a request marks free banks only, by induction on the number of cycles. -/
theorem banksStayAllocated : Obligations.BanksStayAllocated := by
  intro s t h k c hk hc
  induction h with
  | refl => exact hk
  | tail _ hstep ih => exact step_keeps_allocated hstep ih hc

/-! ### The end of a run (60_exceptions.md R303 to R305) -/

/-- Settles O49: a step that ends in HALTED is a termination of the cycle's start, which changes nothing else. -/
theorem endingCycleChangesNothing : Obligations.EndingCycleChangesNothing := by
  intro s t c h hc
  obtain ⟨b, rfl⟩ := step_halted h hc
  exact endsRun_of_raise b h

theorem step_of_halted {s : State} {c : Cause} (h : s.runState = .halted c) : step s = .fault .halted := by
  rw [step, h]

/-- Settles O48: HALTED has no step, so no run leaves it. -/
theorem haltedIsTerminal : Obligations.HaltedIsTerminal := by
  refine fun s c hc => ⟨step_of_halted hc, fun t h => ?_⟩
  induction h with
  | refl => rfl
  | tail _ hstep ih =>
    rw [ih, step_of_halted hc] at hstep
    cases hstep

/-- Settles O45: the range check is the first of the fetch check. -/
theorem pcExit : Obligations.PcExit := by
  refine fun s hr hpc => ⟨endsRun_step_of_fetchInstr_eq_error hr ?_, rfl⟩
  rcases s.fetchInstr_cases with ⟨-, e⟩ | ⟨hle, -⟩ | ⟨⟨hle, -⟩, -⟩
  · exact e
  · exact absurd hle (Nat.not_le.mpr hpc)
  · exact absurd hle (Nat.not_le.mpr hpc)

/-- Settles O46: in range, the alignment check is next. -/
theorem misalignedFetch : Obligations.MisalignedFetch := by
  refine fun s hr hle hmod => ⟨endsRun_step_of_fetchInstr_eq_error hr ?_, rfl⟩
  rcases s.fetchInstr_cases with ⟨hgt, -⟩ | ⟨-, -, e⟩ | ⟨⟨-, hz⟩, -⟩
  · exact absurd hle (Nat.not_le.mpr hgt)
  · exact e
  · exact absurd hz hmod

/-! ### A cycle that executes (70_reset_and_hazards.md R335) -/

theorem step_of_fetchInstr {s : State} {i : Instr} (hr : s.runState = .running) (h : s.fetchInstr = .ok i) :
    step s = exec i s.beginCycle := by
  have h' : s.beginCycle.fetchInstr = .ok i := h
  simp only [step, hr, h']

theorem State.byteAt_of_imem (s : State) {a : Word} (h : a.toNat ≤ 0x3FF) : s.byteAt a = some (s.imem a.toNat) := by
  rw [State.byteAt_eq, if_pos (by omega)]
  rfl

/-- The word fetched at a valid `pc` is that of the four bytes from `pc` on (20_memory.md R80, D10). -/
theorem State.fetchWord_of_bytes {s : State} {b0 b1 b2 b3 : Byte} (hle : s.pc.toNat ≤ 0x3FF) (hmod : s.pc.toNat % 4 = 0)
    (h0 : s.byteAt s.pc = some b0) (h1 : s.byteAt (s.pc + 1) = some b1) (h2 : s.byteAt (s.pc + 2) = some b2)
    (h3 : s.byteAt (s.pc + 3) = some b3) : s.fetchWord = wordOfBytes b0 b1 b2 b3 := by
  have hpc : 4 * (s.pc.toNat / 4) = s.pc.toNat := by omega
  have e1 : (s.pc + 1).toNat = s.pc.toNat + 1 := by bv_omega
  have e2 : (s.pc + 2).toNat = s.pc.toNat + 2 := by bv_omega
  have e3 : (s.pc + 3).toNat = s.pc.toNat + 3 := by bv_omega
  rw [s.byteAt_of_imem hle] at h0
  rw [s.byteAt_of_imem (by omega), e1] at h1
  rw [s.byteAt_of_imem (by omega), e2] at h2
  rw [s.byteAt_of_imem (by omega), e3] at h3
  rw [State.fetchWord, State.iword, hpc, Option.some.inj h0, Option.some.inj h1, Option.some.inj h2, Option.some.inj h3]

/-- Settles O44: the four bytes are the fetched word's, and fetch answers what it decodes to. -/
theorem stepRunsDecoded : Obligations.StepRunsDecoded := by
  refine ⟨fun s i b0 b1 b2 b3 hr hle hmod h0 h1 h2 h3 hd => step_of_fetchInstr hr ?_, fun s => rfl⟩
  have hword : decodeWord s.fetchWord = .ok i := by
    rw [State.fetchWord_of_bytes hle hmod h0 h1 h2 h3]
    simp only [decodeBytes] at hd
    split at hd
    · next j hj => cases hd; exact hj
    · cases hd
  rcases s.fetchInstr_cases with ⟨hgt, -⟩ | ⟨-, hne, -⟩ | ⟨-, ⟨r, hr, -⟩ | ⟨j, hj, hf⟩⟩
  · exact absurd hle (Nat.not_le.mpr hgt)
  · exact absurd hmod hne
  · rw [hword] at hr
    cases hr
  · rw [hword] at hj
    cases hj
    exact hf

/-! ### The invariant (10_state.md R27, R35; 60_exceptions.md R301) -/

/-- A plain store keeps the canonical form, and lists storage only. -/
theorem memory_writeAll_strobes {m : Memory} (hwf : Memory.wf m)
    (hin : ∀ c ∈ m, c.1 ≤ 0x07FF ∨ (0xB700 ≤ c.1 ∧ c.1 ≤ 0xD6FF)) (ea : Word) (bs : List Byte) :
    Memory.wf (Memory.writeAll m (writeStrobes ea bs)) ∧
      ∀ c ∈ Memory.writeAll m (writeStrobes ea bs), c.1 ≤ 0x07FF ∨ (0xB700 ≤ c.1 ∧ c.1 ≤ 0xD6FF) := by
  refine ⟨Memory.writeAll_wf hwf _, fun c hc => ?_⟩
  rcases Memory.mem_writeAll hc with ⟨d, hd, hcd⟩ | hm
  · obtain ⟨i, -, haddr, hstore, -⟩ := mem_writeStrobes hd
    have hrange := (route_storeCell hstore).2
    omega
  · exact hin c hm

/-- What a status-1 termination adds to the trace is the dump of the state it leaves (R303). -/
theorem State.raise_output_dump (s : State) {c : Cause} (h : c.exitStatus = 1) :
    ∃ es, (s.raise c).output = es ++ [.dumpRegs (s.raise c).pc (s.raise c).dump] :=
  ⟨s.output, by rw [State.raise_output, if_pos h, State.raise_pc, State.raise_dump]⟩

theorem State.fetchWord_raise (s : State) (c : Cause) : (s.raise c).fetchWord = s.fetchWord := by
  simp [State.fetchWord]

/-- A step that terminates leaves HALTED as its cause says. -/
theorem step_leftIn {s t : State} (h : step s = .next t) {c : Cause} (hc : t.runState = .halted c) : c.LeftIn t := by
  obtain ⟨hr, ⟨hpc, rfl⟩ | ⟨hpc, hmod, rfl⟩ | ⟨hvalid, ⟨r, hd, rfl⟩ | ⟨i, -, hx⟩⟩⟩ := step_cases h
  · rw [State.raise_runState] at hc
    cases hc
    simpa [Cause.LeftIn] using hpc
  · rw [State.raise_runState] at hc
    cases hc
    exact ⟨by simp, by simpa using hpc, by simpa using hmod, State.raise_output_dump _ rfl⟩
  · rw [State.raise_runState] at hc
    cases hc
    refine ⟨by simpa [State.ValidPc] using hvalid, ?_, ⟨r, hd⟩, State.raise_output_dump _ rfl⟩
    rw [State.fetchWord_raise]
    rfl
  · rcases (exec_effect hx).runState_cases with hrun | ⟨b, d, rfl, hd⟩
    · rw [hrun, State.beginCycle_runState, hr] at hc
      cases hc
    · rw [State.raise_runState, RunState.halted.injEq] at hc
      have hpc : State.ValidPc ((s.beginCycle.setPending b).raise d) := by simpa [State.ValidPc] using hvalid
      rcases hd with rfl | ⟨ea, rfl, hbeyond⟩ <;> subst hc
      · exact hpc
      · exact ⟨hpc, hbeyond, State.raise_output_dump _ rfl⟩

/-- Settles O51: each part of the invariant from what a step does to that part. -/
theorem invariantKept : Obligations.InvariantKept := by
  intro s t hs h
  have hmem : Memory.wf t.mem ∧ ∀ c ∈ t.mem, c.1 ≤ 0x07FF ∨ (0xB700 ≤ c.1 ∧ c.1 ≤ 0xD6FF) := by
    rcases step_mem_cases h with hm | ⟨ea, bs, hm⟩ <;> rw [hm]
    · exact ⟨hs.memoryCanonical, hs.memoryInStorage⟩
    · exact memory_writeAll_strobes hs.memoryCanonical hs.memoryInStorage ea bs
  have hcounts : t.bytesAllocated.length = 128 ∧ ∀ c ∈ t.bytesAllocated, c ≤ 64 := by
    obtain ⟨hlen, hle⟩ := hs.countsShape
    rcases step_bytesAllocated_cases h with hm | ⟨v, hm⟩ <;> rw [hm]
    · exact ⟨hlen, hle⟩
    · exact ⟨by rw [allocatorNext_length, hlen], allocatorNext_le hle v⟩
  exact ⟨hmem.1, hmem.2, hcounts, step_pendingVirtualLoad h, fun c => step_leftIn h⟩

/-! ### Reset and launch (70_reset_and_hazards.md R331, R332) -/

theorem reset_x (q : RegId) : State.reset.x q = 0 := by
  unfold State.x
  split
  · rfl
  · simp [State.reset]

/-- Settles O53: reset gives every field its value; an unlisted byte reads 0. -/
theorem resetState : Obligations.ResetState := by
  refine ⟨rfl, rfl, rfl, reset_x, rfl, rfl, rfl, rfl, rfl, fun a ha => ?_⟩
  have hread : Memory.read State.reset.mem a.toNat = 0x00 := rfl
  rw [State.byteAt_eq, hread]
  split
  · rfl
  · rw [if_neg (by omega)]

/-- An image of 2048 bytes keeps the invariant of the reset state: its bytes are laid out in instruction and data memory. -/
theorem inv_launch {bs : List Byte} (hlen : bs.length ≤ 2048) (input : List InputValue) :
    ((State.reset.setMem (Memory.ofBytes 0 bs)).setInput input).Inv where
  memoryCanonical := Memory.ofBytes_wf 0 bs
  memoryInStorage c hc := by
    have hlt := (Memory.mem_ofBytes hc).2.1
    left; omega
  countsShape := ⟨List.length_replicate, fun c hc => by rw [List.eq_of_mem_replicate hc]; decide⟩
  pendingClear := rfl
  haltedConsistent := nofun

/-- Settles O52: reset is the state of a launch of no bytes and no input. -/
theorem invariantAtReset : Obligations.InvariantAtReset := inv_launch (bs := []) (by decide) []

/-- Settles O54: `Memory.read_ofBytes` gives the image's bytes, and 0 past its end. -/
theorem launchState : Obligations.LaunchState := by
  refine fun image input => ⟨fun hlen => if_neg hlen, fun hlen => ⟨_, if_pos hlen, inv_launch (Nat.le_of_eq hlen) input,
    fun a ha => ?_, fun a hlo hhi => ?_, rfl, rfl, rfl, reset_x, rfl, rfl, rfl⟩⟩
  all_goals
    have hread : Memory.read (Memory.ofBytes 0 image) a.toNat = image.getD a.toNat Memory.unlisted := by
      simpa using Memory.read_ofBytes 0 image a.toNat
    rw [State.byteAt_eq, State.setInput_mem, State.setMem_mem, hread, List.getD_eq_getElem?_getD]
  · rw [if_pos (by omega), List.getElem?_eq_getElem (by omega), Option.getD_some]
  · rw [List.getElem?_eq_none (by omega), if_neg (Nat.not_le.mpr (by omega) : ¬0xD700 ≤ a.toNat)]
    exact ite_self _

end Sys2Proof.Machine
end

section
/-! The three kinds of instruction, what a cycle of each kind does, and the whole-machine rules that name the cycle's instruction
(10_state.md R23, R28; 20_memory.md R71; 44_ports_and_heap.md R274; 90_conflicts.md C4). -/

namespace Sys2Proof.Machine

/-! ### The three kinds of instruction -/

/-- A register form: it writes a value to `rd` and sets `pc`, both found without the allocation counts. -/
structure RegisterForm (i : Instr) (rd : RegId) (v pc : State → Word) : Prop where
  exec_eq : ∀ s : State, exec i s = .next ((s.writeReg rd (v s)).setPc (pc s))
  ignores_counts : ∀ (s : State) (cs : List Nat), v (s.setBytesAllocated cs) = v s ∧ pc (s.setBytesAllocated cs) = pc s
  writtenRegister_eq : ∀ s : State, rd ≠ 0 → s.writtenRegister i = some rd
  pc_eq : ∀ s : State, s.setsPc i = false → pc s = s.pc + 4

/-- A load: the shared operation at a width and extension (42_load_store.md R200). -/
structure LoadForm (i : Instr) (w : Width) (ext : Word → Word) (rd rs1 : RegId) (imm : BitVec 12) : Prop where
  exec_eq : ∀ s : State, exec i s = loadOp w ext rd rs1 imm s
  writtenRegister_eq : ∀ s : State, s.writtenRegister i = some rd

/-- A store: the shared operation at a width (42_load_store.md R201). -/
structure StoreForm (i : Instr) (w : Width) (rs1 rs2 : RegId) (imm : BitVec 12) : Prop where
  exec_eq : ∀ s : State, exec i s = storeOp w rs1 rs2 imm s
  mem_storeForms : ∃ C, (C, w.bytes) ∈ storeForms ∧ i = C rs1 rs2 imm
  writtenRegister_eq : ∀ s : State, s.effectiveAddress rs1 imm = 0x0830 → s.writtenRegister i = some Config.mallocResultReg
  storesTo : ∀ s : State, s.effectiveAddress rs1 imm ∉ interceptedStores → ∀ k, k < w.bytes →
    s.StoresTo i (s.effectiveAddress rs1 imm + BitVec.ofNat 32 k)

/-- What kind an instruction is. -/
inductive InstrKind (i : Instr) : Prop
  | register {rd : RegId} {v pc : State → Word} (h : RegisterForm i rd v pc)
  | load {w : Width} {ext : Word → Word} {rd rs1 : RegId} {imm : BitVec 12} (h : LoadForm i w ext rd rs1 imm)
  | store {w : Width} {rs1 rs2 : RegId} {imm : BitVec 12} (h : StoreForm i w rs1 rs2 imm)

/-- The shared operation of the branches writes no register (43_control_transfer.md R230). -/
theorem branchOp_eq (cond : Word → Word → Bool) (rs1 rs2 : RegId) (imm : BitVec 13) (s : State) :
    branchOp cond rs1 rs2 imm s =
      .next ((s.writeReg 0 0).setPc (if cond (s.x rs1) (s.x rs2) then s.pc + sext13 imm else s.pc + 4)) := by
  unfold branchOp
  split <;> rfl

theorem registerForm_branch {i : Instr} {cond : Word → Word → Bool} {rs1 rs2 : RegId} {imm : BitVec 13}
    (hexec : ∀ s : State, exec i s = branchOp cond rs1 rs2 imm s) (hset : ∀ s : State, s.setsPc i = cond (s.x rs1) (s.x rs2)) :
    RegisterForm i 0 (fun _ => 0) (fun s => if cond (s.x rs1) (s.x rs2) then s.pc + sext13 imm else s.pc + 4) where
  exec_eq s := by rw [hexec, branchOp_eq]
  ignores_counts _ _ := ⟨rfl, rfl⟩
  writtenRegister_eq _ h := absurd rfl h
  pc_eq s h := if_neg (by rw [← hset, h]; exact Bool.false_ne_true)

theorem registerForm_advancePc {i : Instr} {rd : RegId} {v : State → Word}
    (hexec : ∀ s : State, exec i s = .next ((s.writeReg rd (v s)).advancePc))
    (hv : ∀ (s : State) (cs : List Nat), v (s.setBytesAllocated cs) = v s) (hw : ∀ s : State, s.writtenRegister i = some rd) :
    RegisterForm i rd v (fun s => s.pc + 4) where
  exec_eq s := by rw [hexec, State.advancePc, State.writeReg_pc]
  ignores_counts s cs := ⟨hv s cs, rfl⟩
  writtenRegister_eq s _ := hw s
  pc_eq _ _ := rfl

/-- What a store hands to a port, as a number (42_load_store.md R201, D19). -/
theorem maskToWidth_eq_ofNat (w : Width) (v : Word) : maskToWidth w v = BitVec.ofNat 32 (v.toNat % 2 ^ (8 * w.bytes)) := by
  have hv := v.isLt
  apply BitVec.eq_of_toNat_eq
  cases w with
  | byte => simp [maskToWidth, zext8, Width.bytes]
  | half => simp [maskToWidth, zext16, Width.bytes]
  | word => simp only [maskToWidth, Width.bytes, BitVec.toNat_ofNat]; omega

/-- Every instruction is of one of the kinds. -/
theorem instrKind (i : Instr) : InstrKind i := by
  cases i with
  | add rd rs1 rs2 | sub rd rs1 rs2 | xor rd rs1 rs2 | or rd rs1 rs2 | and rd rs1 rs2 | sll rd rs1 rs2 | srl rd rs1 rs2
  | sra rd rs1 rs2 | slt rd rs1 rs2 | sltu rd rs1 rs2 | addi rd rs1 imm | slti rd rs1 imm | sltiu rd rs1 imm | xori rd rs1 imm
  | ori rd rs1 imm | andi rd rs1 imm | lui rd imm20 =>
    exact .register (registerForm_advancePc (fun _ => rfl) (fun _ _ => rfl) fun _ => rfl)
  | jal rd imm | jalr rd rs1 imm => exact .register ⟨fun _ => rfl, fun _ _ => ⟨rfl, rfl⟩, fun _ _ => rfl, nofun⟩
  | beq rs1 rs2 imm | bne rs1 rs2 imm | blt rs1 rs2 imm | bge rs1 rs2 imm | bltu rs1 rs2 imm | bgeu rs1 rs2 imm =>
    exact .register (registerForm_branch (fun _ => rfl) fun _ => rfl)
  | lb rd rs1 imm | lh rd rs1 imm | lw rd rs1 imm | lbu rd rs1 imm | lhu rd rs1 imm =>
    exact .load ⟨fun _ => rfl, fun _ => rfl⟩
  | sb rs1 rs2 imm =>
    refine .store (w := .byte) ⟨fun _ => rfl, ⟨_, .head _, rfl⟩, fun _ h => if_pos h, fun s hp k hk => ⟨hp, ?_⟩⟩
    rw [Nat.lt_one_iff.mp hk]
    exact BitVec.add_zero _
  | sh rs1 rs2 imm =>
    exact .store (w := .half) ⟨fun _ => rfl, ⟨_, .tail _ (.head _), rfl⟩, fun _ h => if_pos h, fun s hp k hk => ⟨hp, k, hk, rfl⟩⟩
  | sw rs1 rs2 imm =>
    exact .store (w := .word) ⟨fun _ => rfl, ⟨_, .tail _ (.tail _ (.head _)), rfl⟩, fun _ h => if_pos h,
      fun s hp k hk => ⟨hp, k, hk, rfl⟩⟩

/-! ### The next states of a load and of a store -/

/-- A load writes `rd` and advances, with what is left of the input, or ends the run. -/
theorem loadOp_next {w : Width} {ext : Word → Word} {rd rs1 : RegId} {imm : BitVec 12} {s t : State}
    (h : loadOp w ext rd rs1 imm s = .next t) :
    (∃ input v, t = (((s.setInput input).setPending false).writeReg rd v).advancePc) ∨ ∃ c, t = (s.setPending false).raise c := by
  rcases accessKind_load_cases (s.effectiveAddress rs1 imm) with ⟨p, ha, -⟩ | ⟨ha, -⟩
  · cases hi : (s.setPending true).hostIn p with
    | none => rw [loadOp_blocked ha hi] at h; cases h
    | some r =>
      rw [loadOp_console ha hi] at h
      cases h
      rcases State.hostIn_some hi with ⟨c, rest, -, -, -, hu⟩ | ⟨i, rest, -, -, -, hu⟩ <;> exact .inl ⟨rest, _, by rw [hu]; rfl⟩
  · rw [loadOp_plain ha, plainLoad] at h
    split at h
    · cases h; exact .inl ⟨s.input, _, rfl⟩
    · cases h; exact .inr ⟨_, rfl⟩

/-- An address at which no store is intercepted, by the ports (20_memory.md R65). -/
theorem not_mem_interceptedStores {ea : Word} (hp : ∀ p, ea ≠ portAddress (.store p)) (hm : ea ≠ portAddress .heapMalloc) :
    ea ∉ interceptedStores := by
  simp only [interceptedStores, List.mem_cons, List.mem_nil_iff, or_false, not_or]
  exact ⟨hp .writeChar, hp .writeSint, hp .writeUhex, hp .halt, hp .dumpPc, hp .dumpRegs, hp .dumpMem, hm⟩

/-- A store port emits one event and advances, or ends the run. -/
theorem storePortEffect_cases (p : StorePort) (v : Word) (s : State) :
    (∃ e, storePortEffect p v s = (s.emit e).advancePc) ∨ ∃ c, storePortEffect p v s = s.raise c := by
  cases p with
  | writeChar | writeSint | writeUhex | dumpPc | dumpRegs => exact .inl ⟨_, rfl⟩
  | halt => exact .inr ⟨_, rfl⟩
  | dumpMem =>
    dsimp only [storePortEffect]
    split
    · exact .inl ⟨_, rfl⟩
    · exact .inr ⟨_, rfl⟩

/-- A store at the malloc port is a request, one at no intercepted port drives its strobes, one at a store port emits an event; or the
store ends the run. -/
theorem storeOp_next {w : Width} {rs1 rs2 : RegId} {imm : BitVec 12} {s t : State} (h : storeOp w rs1 rs2 imm s = .next t) :
    (s.effectiveAddress rs1 imm = 0x0830 ∧ t = (s.mallocRequest (maskToWidth w (s.x rs2))).advancePc) ∨
    (s.effectiveAddress rs1 imm ∉ interceptedStores ∧
      t = (s.setMem (Memory.writeAll s.mem (writeStrobes (s.effectiveAddress rs1 imm) (lowBytes (s.x rs2) w.bytes)))).advancePc) ∨
    (∃ e, t = (s.emit e).advancePc) ∨ ∃ c, t = s.raise c := by
  rcases accessKind_store_cases (s.effectiveAddress rs1 imm) with ⟨p, ha, -⟩ | ⟨ha, -⟩ | ⟨hp, hm, -⟩
  · rw [storeOp_port ha] at h
    cases h
    exact .inr (.inr (storePortEffect_cases p _ s))
  · rw [storeOp_malloc ha] at h
    cases h
    exact .inl ⟨ha, rfl⟩
  · rw [storeOp_plain hp hm, plainStore] at h
    cases h
    split
    · next u hu =>
      rw [(State.memWrite_eq_some hu).2]
      exact .inr (.inl ⟨not_mem_interceptedStores hp hm, rfl⟩)
    · exact .inr (.inr (.inr ⟨_, rfl⟩))

/-! ### What an instruction changes -/

theorem eq_of_x_writeReg_ne {s : State} {r q : RegId} {v : Word} (h : (s.writeReg r v).x q ≠ s.x q) : q = r ∧ q ≠ 0 := by
  rw [State.x_writeReg] at h
  by_cases hq : q = r ∧ q ≠ 0
  · exact hq
  · exact absurd (if_neg hq) h

/-- A byte that a store's strobes change is one of the store's, where stores reach storage (20_memory.md R71). -/
theorem State.storable_of_byteAt_ne {s : State} {ea a : Word} {bs : List Byte}
    (h : (s.setMem (Memory.writeAll s.mem (writeStrobes ea bs))).byteAt a ≠ s.byteAt a) :
    Storable a ∧ ∃ k, k < bs.length ∧ a = ea + BitVec.ofNat 32 k :=
  Classical.byContradiction fun hno => h (s.byteAt_writeStrobes_of_not_stored ea bs a fun k hk ha =>
    Classical.not_not.mp fun hcell => hno ⟨(storable_iff a).mpr hcell, k, hk, ha⟩)

section
variable {i : Instr} {s t : State} (h : exec i s = .next t)
include h

/-- A register that changes is the instruction's written one (10_state.md R23). -/
theorem exec_writtenRegister {q : RegId} (hq : t.x q ≠ s.x q) : s.writtenRegister i = some q := by
  cases instrKind i with
  | register hi =>
    rw [hi.exec_eq] at h
    cases h
    obtain ⟨rfl, h0⟩ := eq_of_x_writeReg_ne hq
    exact hi.writtenRegister_eq s h0
  | load hi =>
    rw [hi.exec_eq] at h
    rcases loadOp_next h with ⟨input, v, rfl⟩ | ⟨c, rfl⟩
    · rw [hi.writtenRegister_eq, (eq_of_x_writeReg_ne (s := (s.setInput input).setPending false) hq).1]
    · exact absurd (by simp) hq
  | store hi =>
    rw [hi.exec_eq] at h
    rcases storeOp_next h with ⟨ha, rfl⟩ | ⟨-, rfl⟩ | ⟨e, rfl⟩ | ⟨c, rfl⟩
    · rw [hi.writtenRegister_eq s ha, (eq_of_x_writeReg_ne (s := s.setBytesAllocated _) hq).1]
    · exact absurd (by simp) hq
    · exact absurd (by simp) hq
    · exact absurd (by simp) hq

/-- An instruction that sets no `pc` and ends no run advances (10_state.md R28). -/
theorem exec_pc (hset : s.setsPc i = false) : t.pc = s.pc + 4 ∨ ∃ c, t.runState = .halted c := by
  cases instrKind i with
  | register hi =>
    rw [hi.exec_eq] at h
    cases h
    exact .inl (hi.pc_eq s hset)
  | load hi =>
    rw [hi.exec_eq] at h
    rcases loadOp_next h with ⟨input, v, rfl⟩ | ⟨c, rfl⟩
    · left; simp
    · exact .inr ⟨c, State.raise_runState _ c⟩
  | store hi =>
    rw [hi.exec_eq] at h
    rcases storeOp_next h with ⟨-, rfl⟩ | ⟨-, rfl⟩ | ⟨e, rfl⟩ | ⟨c, rfl⟩
    · left; simp
    · exact .inl rfl
    · exact .inl rfl
    · exact .inr ⟨c, State.raise_runState s c⟩

/-- A byte of memory that changes is one the instruction stores to (20_memory.md R71). -/
theorem exec_storesTo {a : Word} (hbyte : t.byteAt a ≠ s.byteAt a) : Storable a ∧ s.StoresTo i a := by
  cases instrKind i with
  | register hi =>
    rw [hi.exec_eq] at h
    cases h
    exact absurd (by simp) hbyte
  | load hi =>
    rw [hi.exec_eq] at h
    rcases loadOp_next h with ⟨input, v, rfl⟩ | ⟨c, rfl⟩ <;> exact absurd (by simp) hbyte
  | @store w rs1 rs2 imm hi =>
    rw [hi.exec_eq] at h
    rcases storeOp_next h with ⟨-, rfl⟩ | ⟨hp, rfl⟩ | ⟨e, rfl⟩ | ⟨c, rfl⟩
    · exact absurd (by simp) hbyte
    · obtain ⟨hs, k, hk, ha⟩ := State.storable_of_byteAt_ne hbyte
      rw [lowBytes_length] at hk
      exact ⟨hs, ha ▸ hi.storesTo s hp k hk⟩
    · exact absurd rfl hbyte
    · exact absurd (by simp) hbyte

/-- Counts that change are the allocator's answer to a store at the malloc port (44_ports_and_heap.md R274). -/
theorem exec_bytesAllocated (hcounts : t.bytesAllocated ≠ s.bytesAllocated) :
    ∃ (rs1 rs2 : RegId) (imm : BitVec 12) (S : (RegId → RegId → BitVec 12 → Instr) × Nat), S ∈ storeForms ∧
      i = S.1 rs1 rs2 imm ∧ s.effectiveAddress rs1 imm = 0x0830 ∧
      t.bytesAllocated = allocatorNext s.bytesAllocated (BitVec.ofNat 32 ((s.x rs2).toNat % 2 ^ (8 * S.2))) := by
  cases instrKind i with
  | register hi =>
    rw [hi.exec_eq] at h
    cases h
    exact absurd (by simp) hcounts
  | load hi =>
    rw [hi.exec_eq] at h
    rcases loadOp_next h with ⟨input, v, rfl⟩ | ⟨c, rfl⟩ <;> exact absurd (by simp) hcounts
  | @store w rs1 rs2 imm hi =>
    rw [hi.exec_eq] at h
    rcases storeOp_next h with ⟨ha, rfl⟩ | ⟨-, rfl⟩ | ⟨e, rfl⟩ | ⟨c, rfl⟩
    · obtain ⟨C, hC, rfl⟩ := hi.mem_storeForms
      refine ⟨rs1, rs2, imm, _, hC, rfl, ha, ?_⟩
      rw [State.advancePc_bytesAllocated, State.mallocRequest_bytesAllocated, maskToWidth_eq_ofNat]
    · exact absurd rfl hcounts
    · exact absurd rfl hcounts
    · exact absurd (by simp) hcounts

end

/-! ### The whole-machine rules -/

/-- Settles O11: a cycle that decodes no instruction changes no register, and one that does changes its written register alone. -/
theorem onlyDestinationChanges : Obligations.OnlyDestinationChanges := by
  intro s t h q hq
  rcases step_executes_or_raises h with ⟨i, hd, hx⟩ | ⟨c, rfl⟩
  · exact ⟨i, hd, exec_writtenRegister hx hq⟩
  · exact absurd (by simp) hq

/-- Settles O22: a cycle that ends RUNNING executed its instruction, and one that ends in HALTED is a termination of its start. -/
theorem programCounterUpdate : Obligations.ProgramCounterUpdate := by
  refine fun s t h => ⟨fun hr => ?_, fun c hc => ?_⟩
  · rcases step_executes_or_raises h with ⟨i, hd, hx⟩ | ⟨c, rfl⟩
    · refine ⟨i, hd, fun hset => (exec_pc hx hset).resolve_right fun ⟨c, hc⟩ => ?_⟩
      rw [hr] at hc
      cases hc
    · rw [State.raise_runState] at hr
      cases hr
  · obtain ⟨b, rfl⟩ := step_halted h hc
    exact State.raise_pc _ c

/-- Settles O31: `exec_storesTo` for the cycle's instruction. -/
theorem onlyStoresChangeMemory : Obligations.OnlyStoresChangeMemory := by
  intro s t h a ha
  rcases step_executes_or_raises h with ⟨i, hd, hx⟩ | ⟨c, rfl⟩
  · obtain ⟨hs, hto⟩ := exec_storesTo hx ha
    exact ⟨hs, i, hd, hto⟩
  · exact absurd (by simp) ha

/-- Settles O50: the effects part by part, and `exec_bytesAllocated` for the cycle's instruction. -/
theorem effectsOfACycle : Obligations.EffectsOfACycle := by
  refine fun s t h => ⟨step_output_cases h, step_input_cases h, step_exists_writesReg h, fun hcounts => ?_⟩
  rcases step_executes_or_raises h with ⟨i, hd, hx⟩ | ⟨c, rfl⟩
  · obtain ⟨rs1, rs2, imm, S, hS, rfl, ha, hnext⟩ := exec_bytesAllocated hx hcounts
    exact ⟨rs1, rs2, imm, S, hS, hd, ha, hnext⟩
  · exact absurd (by simp) hcounts

/-! ### A blocked read (60_exceptions.md R309; 70_reset_and_hazards.md R337) -/

/-- Only a load at the port's address blocks, and only while no value of the port's kind is next. -/
theorem exec_blocked {i : Instr} {s : State} {p : LoadPort} (h : exec i s = .fault (.consoleInputBlocked p)) :
    ∃ w ext rd rs1 imm, LoadForm i w ext rd rs1 imm ∧ s.effectiveAddress rs1 imm = portAddress (.load p) := by
  cases instrKind i with
  | register hi => rw [hi.exec_eq] at h; cases h
  | @load w ext rd rs1 imm hi =>
    refine ⟨w, ext, rd, rs1, imm, hi, ?_⟩
    rw [hi.exec_eq] at h
    rcases accessKind_load_cases (s.effectiveAddress rs1 imm) with ⟨q, ha, -⟩ | ⟨ha, -⟩
    · cases hin : (s.setPending true).hostIn q with
      | none => rw [loadOp_blocked ha hin] at h; cases h; exact ha
      | some r => rw [loadOp_console ha hin] at h; cases h
    · rw [loadOp_plain ha, plainLoad] at h
      split at h <;> cases h
  | store hi =>
    rw [hi.exec_eq] at h
    unfold storeOp at h
    dsimp only at h
    split at h <;> cases h

/-- A step blocks when the load of its cycle does. -/
theorem step_blocked {s : State} {p : LoadPort} (h : step s = .fault (.consoleInputBlocked p)) :
    s.runState = .running ∧ ∃ i, s.fetchInstr = .ok i ∧ exec i s.beginCycle = .fault (.consoleInputBlocked p) := by
  unfold step at h
  split at h
  · cases h
  · next hr =>
    refine ⟨hr, ?_⟩
    split at h
    · cases h
    · next i hi => exact ⟨i, hi, h⟩

/-- A value of the port's kind that is next is taken (44_ports_and_heap.md R260). -/
theorem State.hostIn_of_kind {s : State} {p : LoadPort} {v : InputValue} {rest : List InputValue} (hin : s.input = v :: rest)
    (hchar : p = .readChar → ∃ c, v = .char c) (hsint : p = .readSint → ∃ i, v = .sint i) :
    ∃ raw, s.hostIn p = some (raw, s.setInput rest) := by
  cases p with
  | readChar =>
    obtain ⟨c, rfl⟩ := hchar rfl
    exact ⟨c.setWidth 32, by simp only [State.hostIn, hin]⟩
  | readSint =>
    obtain ⟨i, rfl⟩ := hsint rfl
    exact ⟨i, by simp only [State.hostIn, hin]⟩

/-- Settles O39: the host's value changes nothing before the load, which takes it. -/
theorem blockedReadIsAnswered : Obligations.BlockedReadIsAnswered := by
  intro s p v h hin hchar hsint
  obtain ⟨hr, i, hf, hx⟩ := step_blocked h
  obtain ⟨w, ext, rd, rs1, imm, hi, ha⟩ := exec_blocked hx
  have hstep : step (s.supply v) = exec i (s.supply v).beginCycle := step_of_fetchInstr hr hf
  have hsupply : ((s.supply v).beginCycle.setPending true).input = v :: [] := by simp [State.supply, hin]
  obtain ⟨raw, hraw⟩ := State.hostIn_of_kind hsupply hchar hsint
  refine ⟨_, hstep.trans ((hi.exec_eq _).trans (loadOp_console ha hraw)), ?_⟩
  simp [State.supply, State.SameBytes, hr]

end Sys2Proof.Machine
end

section
/-! How many bytes of an allocated bank are counted changes no run (90_conflicts.md C4): the machine asks of the counts only which banks
are free. -/

namespace Sys2Proof.Machine

/-! ### The allocator asks which banks are free -/

/-- The same banks are free in both lists of counts. -/
def SameFree (cs ds : List Nat) : Prop := ∀ k : Nat, ds[k]? = some 0 ↔ cs[k]? = some 0

section
variable {cs ds : List Nat} (h : SameFree cs ds)
include h

theorem runFree_of_sameFree (start nb : Nat) : runFree ds start nb = runFree cs start nb := by
  rw [Bool.eq_iff_iff, runFree_iff, runFree_iff]
  exact forall₂_congr fun k _ => h (start + k)

theorem firstFit_of_sameFree (nb : Nat) : firstFit ds nb = firstFit cs nb := by
  unfold firstFit
  simp only [runFree_of_sameFree h]

theorem allocatorResponse_of_sameFree (size : Word) : allocatorResponse ds size = allocatorResponse cs size := by
  unfold allocatorResponse malloc
  rw [firstFit_of_sameFree h]
  cases firstFit cs (banksNeeded size.toNat) <;> rfl

/-- Marking a run leaves the same banks free: a mark is never 0. -/
theorem sameFree_markRun (n start bank : Nat) : SameFree (markRun n start bank cs) (markRun n start bank ds) := by
  intro k
  have hmark : markedCount n start (bank + k) ≠ 0 := Nat.ne_of_gt (markedCount_range n start (bank + k)).1
  rw [markRun_getElem?, markRun_getElem?]
  split
  · simp [Option.map_eq_some_iff, hmark]
  · exact h k

theorem sameFree_allocatorNext (size : Word) : SameFree (allocatorNext cs size) (allocatorNext ds size) := by
  unfold allocatorNext malloc
  rw [firstFit_of_sameFree h]
  cases firstFit cs (banksNeeded size.toNat) with
  | none => exact h
  | some start => exact sameFree_markRun h _ _ _

end

/-! ### Operations that do not see the counts -/

theorem State.writeReg_setBytesAllocated (s : State) (cs : List Nat) (r : RegId) (v : Word) :
    (s.setBytesAllocated cs).writeReg r v = (s.writeReg r v).setBytesAllocated cs := by
  unfold State.writeReg
  split <;> rfl

theorem State.raise_setBytesAllocated (s : State) (cs : List Nat) (c : Cause) :
    (s.setBytesAllocated cs).raise c = (s.raise c).setBytesAllocated cs := by
  unfold State.raise
  split <;> rfl

theorem State.memRead_setBytesAllocated (s : State) (cs : List Nat) (ea : Word) (n : Nat) :
    (s.setBytesAllocated cs).memRead ea n = s.memRead ea n := by
  rw [State.memRead, State.memRead, State.readBytes_congr fun _ _ => s.setBytesAllocated_byteAt cs _]

theorem State.hostIn_setBytesAllocated (s : State) (cs : List Nat) (p : LoadPort) :
    (s.setBytesAllocated cs).hostIn p = (s.hostIn p).map fun r => (r.1, r.2.setBytesAllocated cs) := by
  unfold State.hostIn
  cases p <;> rcases hi : s.input with _ | ⟨_ | _, _⟩ <;> simp [hi] <;> rfl

/-! ### Outcomes that agree but for positive counts -/

/-- Two outcomes no program can tell apart: next states that differ in positive counts only, or the same fault. -/
inductive SameOutcome : Host.Outcome State Fault Refusal → Host.Outcome State Fault Refusal → Prop
  | next {s t : State} (h : s.SameButCounts t) : SameOutcome (.next s) (.next t)
  | fault (f : Fault) : SameOutcome (.fault f) (.fault f)

theorem SameOutcome.of_next {s : State} {o : Host.Outcome State Fault Refusal} (h : SameOutcome (.next s) o) :
    ∃ t, o = .next t ∧ s.SameButCounts t := by
  cases h with
  | next h => exact ⟨_, rfl, h⟩

theorem SameOutcome.of_fault {f : Fault} {o : Host.Outcome State Fault Refusal} (h : SameOutcome (.fault f) o) : o = .fault f := by
  cases h
  rfl

theorem State.sameButCounts_iff {s t : State} :
    s.SameButCounts t ↔ ∃ cs, t = s.setBytesAllocated cs ∧ cs.length = s.bytesAllocated.length ∧
      SameFree s.bytesAllocated cs := by
  constructor
  · rintro ⟨ht, hlen, hfree⟩
    exact ⟨t.bytesAllocated, ht, hlen, hfree⟩
  · rintro ⟨cs, rfl, hlen, hfree⟩
    exact ⟨rfl, hlen, hfree⟩

section
variable {s : State} {cs : List Nat} (hlen : cs.length = s.bytesAllocated.length) (hfree : SameFree s.bytesAllocated cs)
include hlen hfree

/-- A next state that keeps the counts and does not see them. -/
theorem sameOutcome_next {t u : State} (hu : u = t.setBytesAllocated cs) (ht : t.bytesAllocated = s.bytesAllocated) :
    SameOutcome (.next t) (.next u) :=
  .next (State.sameButCounts_iff.mpr ⟨cs, hu, by rw [ht, hlen], by rwa [ht]⟩)

theorem sameOutcome_loadOp (w : Width) (ext : Word → Word) (rd rs1 : RegId) (imm : BitVec 12) :
    SameOutcome (loadOp w ext rd rs1 imm s) (loadOp w ext rd rs1 imm (s.setBytesAllocated cs)) := by
  rcases accessKind_load_cases (s.effectiveAddress rs1 imm) with ⟨p, ha, -⟩ | ⟨ha, -⟩
  · have hin : ((s.setBytesAllocated cs).setPending true).hostIn p = _ := (s.setPending true).hostIn_setBytesAllocated cs p
    cases hs : (s.setPending true).hostIn p with
    | none =>
      rw [hs] at hin
      rw [loadOp_blocked ha hs, loadOp_blocked (s := s.setBytesAllocated cs) ha hin]
      exact .fault _
    | some r =>
      rw [hs] at hin
      rw [loadOp_console ha hs, loadOp_console (s := s.setBytesAllocated cs) ha hin]
      refine sameOutcome_next hlen hfree (congrArg State.advancePc ((r.2.setPending false).writeReg_setBytesAllocated cs rd _)) ?_
      rcases State.hostIn_some hs with ⟨c, rest, -, -, -, hr⟩ | ⟨i, rest, -, -, -, hr⟩ <;> simp [hr]
  · have hread : ((s.setBytesAllocated cs).setPending false).memRead (s.effectiveAddress rs1 imm) w.bytes = _ :=
      (s.setPending false).memRead_setBytesAllocated cs _ _
    rw [loadOp_plain ha, loadOp_plain (s := s.setBytesAllocated cs) ha]
    show SameOutcome _ (plainLoad (s.effectiveAddress rs1 imm) w ext rd _)
    rw [plainLoad, plainLoad, hread]
    cases (s.setPending false).memRead (s.effectiveAddress rs1 imm) w.bytes with
    | some v =>
      exact sameOutcome_next hlen hfree (congrArg State.advancePc ((s.setPending false).writeReg_setBytesAllocated cs rd _)) (by simp)
    | none => exact sameOutcome_next hlen hfree ((s.setPending false).raise_setBytesAllocated cs _) (by simp)

theorem sameOutcome_storePortEffect (p : StorePort) (v : Word) :
    SameOutcome (.next (storePortEffect p v s)) (.next (storePortEffect p v (s.setBytesAllocated cs))) := by
  cases p with
  | writeChar | writeSint | writeUhex | dumpPc | dumpRegs => exact sameOutcome_next hlen hfree rfl rfl
  | halt => exact sameOutcome_next hlen hfree (s.raise_setBytesAllocated cs _) (s.raise_bytesAllocated _)
  | dumpMem =>
    dsimp only [storePortEffect]
    rw [State.setBytesAllocated_byteAt]
    cases s.byteAt v with
    | some b => exact sameOutcome_next hlen hfree rfl rfl
    | none => exact sameOutcome_next hlen hfree (s.raise_setBytesAllocated cs _) (s.raise_bytesAllocated _)

/-- A request is answered alike, and leaves the same banks free. -/
theorem sameOutcome_mallocRequest (v : Word) :
    SameOutcome (.next (s.mallocRequest v).advancePc) (.next ((s.setBytesAllocated cs).mallocRequest v).advancePc) := by
  refine .next (State.sameButCounts_iff.mpr ⟨allocatorNext cs v, ?_, by simp [hlen], ?_⟩)
  · simp only [State.mallocRequest, State.setBytesAllocated_bytesAllocated, allocatorResponse_of_sameFree hfree,
      State.writeReg_setBytesAllocated]
    rfl
  · simpa using sameFree_allocatorNext hfree v

theorem sameOutcome_plainStore (ea : Word) (w : Width) (v : Word) :
    SameOutcome (.next (plainStore ea w v s)) (.next (plainStore ea w v (s.setBytesAllocated cs))) := by
  unfold plainStore State.memWrite
  cases touchesBeyond ea w.bytes with
  | false => exact sameOutcome_next hlen hfree rfl rfl
  | true => exact sameOutcome_next hlen hfree (s.raise_setBytesAllocated cs _) (s.raise_bytesAllocated _)

theorem sameOutcome_storeOp (w : Width) (rs1 rs2 : RegId) (imm : BitVec 12) :
    SameOutcome (storeOp w rs1 rs2 imm s) (storeOp w rs1 rs2 imm (s.setBytesAllocated cs)) := by
  rcases accessKind_store_cases (s.effectiveAddress rs1 imm) with ⟨p, ha, -⟩ | ⟨ha, -⟩ | ⟨hp, hm, -⟩
  · rw [storeOp_port ha, storeOp_port (s := s.setBytesAllocated cs) ha]
    exact sameOutcome_storePortEffect hlen hfree p _
  · rw [storeOp_malloc ha, storeOp_malloc (s := s.setBytesAllocated cs) ha]
    exact sameOutcome_mallocRequest hlen hfree _
  · rw [storeOp_plain hp hm, storeOp_plain (s := s.setBytesAllocated cs) hp hm]
    exact sameOutcome_plainStore hlen hfree _ w _

theorem sameOutcome_exec (i : Instr) : SameOutcome (exec i s) (exec i (s.setBytesAllocated cs)) := by
  cases instrKind i with
  | @register rd v pc hi =>
    obtain ⟨hv, hpc⟩ := hi.ignores_counts s cs
    rw [hi.exec_eq, hi.exec_eq, hv, hpc, State.writeReg_setBytesAllocated]
    exact sameOutcome_next hlen hfree rfl (by simp)
  | load hi =>
    rw [hi.exec_eq, hi.exec_eq]
    exact sameOutcome_loadOp hlen hfree _ _ _ _ _
  | store hi =>
    rw [hi.exec_eq, hi.exec_eq]
    exact sameOutcome_storeOp hlen hfree _ _ _ _

theorem sameOutcome_step : SameOutcome (step s) (step (s.setBytesAllocated cs)) := by
  have hfetch : (s.setBytesAllocated cs).beginCycle.fetchInstr = s.beginCycle.fetchInstr := rfl
  simp only [step, State.setBytesAllocated_runState, hfetch]
  cases s.runState with
  | halted c => exact .fault _
  | running =>
    cases s.beginCycle.fetchInstr with
    | error c => exact sameOutcome_next hlen hfree (s.beginCycle.raise_setBytesAllocated cs c) (by simp)
    | ok i => exact sameOutcome_exec (s := s.beginCycle) hlen hfree i

end

/-- Settles O43: neither fetch nor an instruction sees more of the counts than which banks are free. -/
theorem positiveCountsUnobservable : Obligations.PositiveCountsUnobservable := by
  intro s t h
  obtain ⟨cs, rfl, hlen, hfree⟩ := State.sameButCounts_iff.mp h
  have hstep := sameOutcome_step hlen hfree
  exact ⟨fun s' hs => (hs ▸ hstep).of_next, fun f hf => (hf ▸ hstep).of_fault⟩

end Sys2Proof.Machine
end

section
/-! Register writes, shifts, branches and jumps, one instruction at a time (10_state.md R22; 20_memory.md R61; 40_register_alu.md R157 to
R159; 43_control_transfer.md R230 to R238). -/

namespace Sys2Proof.Machine

/-- Settles O10: `State.x_writeReg` gives every register, and the field lemmas the rest. -/
theorem registerWrite : Obligations.RegisterWrite := fun s r v =>
  ⟨s.x_writeReg r v, rfl, s.writeReg_pc r v, s.writeReg_mem r v, by simp [State.SameRest]⟩

/-- Settles O15: each is the shared operation with a shift by the low five bits of the second source. -/
theorem shifts : Obligations.Shifts := by
  refine fun s rd rs1 rs2 => ⟨⟨_, completesWith_of_registerOp (fun a b => a <<< shiftAmount b) rfl, fun k hk => ?_⟩,
    ⟨_, completesWith_of_registerOp (fun a b => a >>> shiftAmount b) rfl, fun k hk => ?_⟩,
    ⟨_, completesWith_of_registerOp (fun a b => a.sshiftRight (shiftAmount b)) rfl, fun k hk => ?_⟩⟩
  · rw [BitVec.getLsbD_shiftLeft, decide_eq_true hk, Bool.true_and, shiftAmount]
    split
    · next h => rw [decide_eq_false (Nat.not_lt.mpr h), Bool.not_false, Bool.true_and]
    · next h => rw [decide_eq_true (Nat.not_le.mp h), Bool.not_true, Bool.false_and]
  · rw [BitVec.getLsbD_ushiftRight, shiftAmount, Nat.add_comm]
    split
    · rfl
    · next h => exact BitVec.getLsbD_of_ge _ _ (Nat.not_lt.mp h)
  · rw [BitVec.getLsbD_sshiftRight, decide_eq_false (Nat.not_le.mpr hk), Bool.not_false, Bool.true_and, shiftAmount,
      Nat.add_comm, BitVec.msb_eq_getLsbD_last]

/-- A branch whose condition says `P` goes to the target when `P` holds and on when it does not, and changes nothing else (R230). -/
theorem completesWith_branch {i : Instr} {s : State} {cond : Word → Word → Bool} {rs1 rs2 : RegId} {imm : BitVec 13}
    (hexec : exec i s = branchOp cond rs1 rs2 imm s) {P : Prop} [Decidable P] (hcond : cond (s.x rs1) (s.x rs2) = true ↔ P) :
    CompletesWith i s 0 0 (if P then BitVec.ofInt 32 (s.pc.toInt + imm.toInt) else s.pc + 4) := by
  refine completesWith_of_setPc ?_
  rw [hexec, branchOp_eq, ← sext13_toInt, ← add_eq_ofInt]
  simp only [hcond]

/-- Settles O20: each branch is the shared operation, with the comparison it names. -/
theorem branches : Obligations.Branches := by
  refine fun s rs1 rs2 imm => ⟨completesWith_branch rfl ?_, completesWith_branch rfl ?_, completesWith_branch rfl ?_,
    completesWith_branch rfl ?_, completesWith_branch rfl ?_, completesWith_branch rfl ?_⟩
  · exact beq_iff_eq
  · exact bne_iff_ne
  · exact decide_eq_true_iff
  · simp [condGe, lessSigned]
  · exact decide_eq_true_iff
  · simp [condGeu, lessUnsigned]

/-- Settles O21: the link is written and the target, found before, becomes `pc`. -/
theorem jumps : Obligations.Jumps := by
  refine fun s rd rs1 offset imm => ⟨?_, ?_⟩
  · rw [← sext21_toInt, ← add_eq_ofInt]
    exact completesWith_of_setPc rfl
  · rw [← sext12_toInt, ← add_eq_ofInt]
    exact completesWith_of_setPc rfl

/-- Settles O23: sign extension keeps the immediate's value, and `x0` reads 0. -/
theorem effectiveAddress : Obligations.EffectiveAddress :=
  ⟨fun s rs1 imm => by rw [State.effectiveAddress, add_eq_ofInt, sext12_toInt],
    fun s => by rw [State.effectiveAddress, State.x_zero]; decide⟩

end Sys2Proof.Machine
end

section
/-! Loads and stores away from the ports, by their bytes (20_memory.md R68 to R72; 42_load_store.md R200 to R209). -/

namespace Sys2Proof.Machine

/-! ### Which addresses are ports -/

/-- An access at a port touches no byte beyond the heap. -/
theorem portAddress_add_toNat_lt (p : Port) {k : Nat} (hk : k < 4) : (portAddress p + BitVec.ofNat 32 k).toNat < 0xD700 := by
  revert k
  rcases p with (_ | _ | _ | _ | _ | _ | _) | (_ | _) | _ | _ <;> decide

theorem not_port_of_beyond {ea : Word} {w : Width} (h : ∃ k, k < w.bytes ∧ 0xD700 ≤ (ea + BitVec.ofNat 32 k).toNat) (p : Port) :
    ea ≠ portAddress p := by
  rintro rfl
  obtain ⟨k, hk, hb⟩ := h
  have hlt := portAddress_add_toNat_lt p (k := k) (by cases w <;> simp only [Width.bytes] at hk <;> omega)
  omega

theorem not_port_of_storable {ea : Word} (h : Storable ea) (p : Port) : ea ≠ portAddress p := by
  rintro rfl
  rw [storable_iff, route_portAddress] at h
  exact h rfl

theorem not_loadPort {ea : Word} (hchar : ea ≠ 0x0812) (hsint : ea ≠ 0x0816) (p : LoadPort) : ea ≠ portAddress (.load p) := by
  cases p
  · exact hchar
  · exact hsint

/-! ### Plain loads -/

/-- A load at no read port takes the number of its bytes, extended (R69, R200). -/
theorem exec_load_of_byteAt {L : (RegId → RegId → BitVec 12 → Instr) × Nat × Bool} (hL : L ∈ loadForms) {s : State} (rd : RegId)
    {rs1 : RegId} {imm : BitVec 12} {bs : List Byte} (hp : ∀ p, s.effectiveAddress rs1 imm ≠ portAddress (.load p))
    (hlen : bs.length = L.2.1) (hbs : ∀ k, k < L.2.1 → s.byteAt (s.effectiveAddress rs1 imm + BitVec.ofNat 32 k) = bs[k]?) :
    exec (L.1 rd rs1 imm) s =
      .next (((s.setPending false).writeReg rd (extendedValue L.2.1 L.2.2 (bytesNumber bs))).advancePc) := by
  obtain ⟨w, ext, hw, hexec, hext⟩ := exec_loadForms hL
  have hread : (s.setPending false).readBytes (s.effectiveAddress rs1 imm) w.bytes = some bs :=
    State.readBytes_eq_some (hlen.trans hw) fun k hk => hbs k (by rwa [hw])
  have hfour : bs.length ≤ 4 := by rw [hlen, hw]; cases w <;> decide
  rw [hexec, loadOp_plain hp, plainLoad_of_readBytes hread, hext, littleEndian_toNat hfour, ← hlen,
    Nat.mod_eq_of_lt (bytesNumber_lt bs)]

/-- Settles O26: `exec_load_of_byteAt` is the next state. -/
theorem plainLoads : Obligations.PlainLoads := by
  intro L hL s rd rs1 imm bs hchar hsint hlen hbs
  refine ⟨_, exec_load_of_byteAt hL rd (not_loadPort hchar hsint) hlen hbs, (s.setPending false).x_writeReg rd _, ?_⟩
  simp [State.SameBytes]

/-! ### Plain stores -/

/-- A store at no intercepted port, with no byte beyond the heap, drives its strobes (R70, R201). -/
theorem exec_store_of_not_beyond {S : (RegId → RegId → BitVec 12 → Instr) × Nat} (hS : S ∈ storeForms) {s : State} {rs1 : RegId}
    (rs2 : RegId) {imm : BitVec 12} (hp : s.effectiveAddress rs1 imm ∉ interceptedStores)
    (hb : ∀ k, k < S.2 → (s.effectiveAddress rs1 imm + BitVec.ofNat 32 k).toNat ≤ 0xD6FF) :
    exec (S.1 rs1 rs2 imm) s = .next
      (s.setMem (Memory.writeAll s.mem (writeStrobes (s.effectiveAddress rs1 imm) (lowBytes (s.x rs2) S.2)))).advancePc := by
  obtain ⟨w, hw, hexec, -⟩ := exec_storeForms hS
  obtain ⟨hstore, hmalloc⟩ := not_port_of_not_mem_interceptedStores hp
  have hin : touchesBeyond (s.effectiveAddress rs1 imm) w.bytes = false := by
    rw [← Bool.not_eq_true, touchesBeyond_iff]
    rintro ⟨k, hk, hbeyond⟩
    have hle := hb k (by rwa [hw])
    omega
  rw [hexec, storeOp_plain hstore hmalloc, plainStore_of_not_touchesBeyond hin, hw]

/-- The strobes of the low bytes of a value store those bytes and no other (R70, R71). -/
theorem storesBytes_writeStrobes (s : State) (ea v : Word) {n : Nat} (hn : n ≤ 4) :
    s.StoresBytes (s.setMem (Memory.writeAll s.mem (writeStrobes ea (lowBytes v n)))).advancePc ea n v := by
  refine ⟨fun i hi hs => ?_, fun a ha => ?_⟩
  · have hbyte : (lowBytes v n)[i]? = some (v.extractLsb' (8 * i) 8) := by
      rw [lowBytes_getElem? v hi, BitVec.setWidth_ushiftRight_eq_extractLsb]
    exact s.byteAt_writeStrobes_of_stored ea _ (by rw [lowBytes_length]; omega) hbyte ((storable_iff _).mp hs)
  · refine s.byteAt_writeStrobes_of_not_stored ea _ a fun i hi hai => ?_
    rw [lowBytes_length] at hi
    exact Classical.not_not.mp fun hcell => ha i hi hai ((storable_iff a).mpr hcell)

theorem storeForms_width_le {S : (RegId → RegId → BitVec 12 → Instr) × Nat} (hS : S ∈ storeForms) : S.2 ≤ 4 := by
  obtain ⟨w, hw, -⟩ := exec_storeForms hS
  rw [hw]
  cases w <;> decide

/-- Settles O27: the strobes are all that the next state adds to `pc + 4`. -/
theorem plainStores : Obligations.PlainStores := by
  intro S hS s rs1 rs2 imm hp hb
  exact ⟨_, exec_store_of_not_beyond hS rs2 hp hb, storesBytes_writeStrobes s _ _ (storeForms_width_le hS), fun _ => rfl, rfl,
    rfl, rfl, rfl, rfl, rfl⟩

/-! ### Accesses with a byte beyond the heap (R68, D14) -/

/-- Settles O28: such an access is at no port, and a plain read or write of it has no answer. -/
theorem accessBeyondHeapFaults : Obligations.AccessBeyondHeapFaults := by
  refine ⟨fun L hL s rd rs1 imm hb => ?_, fun S hS s rs1 rs2 imm hb => ?_⟩
  · obtain ⟨w, ext, hw, hexec, -⟩ := exec_loadForms hL
    rw [hw] at hb
    have hread := ((s.setPending false).memRead_eq_none_iff _ _).mpr ((touchesBeyond_iff _ _).mpr hb)
    refine endsRun_of_raise false ?_
    rw [hexec, loadOp_plain fun p => not_port_of_beyond hb (.load p), plainLoad, hread]
  · obtain ⟨w, hw, hexec, -⟩ := exec_storeForms hS
    rw [hw] at hb
    have htouch := (touchesBeyond_iff _ _).mpr hb
    refine endsRun_of_raise s.pendingVirtualLoad ?_
    rw [hexec, storeOp_plain (fun p => not_port_of_beyond hb (.store p)) (not_port_of_beyond hb .heapMalloc), plainStore,
      State.memWrite, if_pos htouch, setPending_self]

/-! ### Reading back a store (R72, R76) -/

/-- The number of the low bytes of a value. -/
theorem bytesNumber_lowBytes (v : Word) (n : Nat) : bytesNumber (lowBytes v n) = v.toNat % 2 ^ (8 * n) := by
  induction n generalizing v with
  | zero => simp [lowBytes, bytesNumber, Nat.mod_one]
  | succ n ih =>
    rw [lowBytes, bytesNumber, ih, BitVec.toNat_setWidth, BitVec.toNat_ushiftRight, Nat.shiftRight_eq_div_pow,
      Nat.mul_succ, Nat.add_comm (8 * n), Nat.pow_add, Nat.mod_mul]

/-- A load of any width inside the four bytes of a stored word reads the bits there. -/
theorem exec_load_after_store {L : (RegId → RegId → BitVec 12 → Instr) × Nat × Bool} (hL : L ∈ loadForms) {s t : State}
    {ea v : Word} (hst : s.StoresBytes t ea 4 v) (hs : ∀ k, k < 4 → Storable (ea + BitVec.ofNat 32 k)) (rd : RegId) {rs1 : RegId}
    {imm : BitVec 12} {j : Nat} (ha : t.effectiveAddress rs1 imm = ea + BitVec.ofNat 32 j) (hj : j < 4) (hw : j + L.2.1 ≤ 4) :
    ∃ u, exec (L.1 rd rs1 imm) t = .next u ∧
      t.WritesReg u rd (extendedValue L.2.1 L.2.2 (v.toNat / 2 ^ (8 * j) % 2 ^ (8 * L.2.1))) := by
  have hload := exec_load_of_byteAt hL rd (rs1 := rs1) (imm := imm) (bs := lowBytes (v >>> (8 * j)) L.2.1)
    (fun p => ha ▸ not_port_of_storable (hs j hj) (.load p)) (lowBytes_length _ _) fun k hk => by
      rw [ha, BitVec.add_assoc, ← BitVec.ofNat_add, hst.1 (j + k) (by omega) (hs (j + k) (by omega)), lowBytes_getElem? _ hk,
        ← BitVec.shiftRight_add, ← Nat.mul_add, BitVec.setWidth_ushiftRight_eq_extractLsb]
  rw [bytesNumber_lowBytes, BitVec.toNat_ushiftRight, Nat.shiftRight_eq_div_pow] at hload
  exact ⟨_, hload, (t.setPending false).x_writeReg rd _⟩

/-- Settles O30: `sw` stores its four bytes, at no port, and a load inside them reads them back. -/
theorem loadAfterStore : Obligations.LoadAfterStore := by
  intro s t rd rs1 rs2 imm imm' j hs hexec ha
  have hs0 : Storable (s.effectiveAddress rs1 imm) := by simpa using hs 0 (by decide)
  have hstore : exec (.sw rs1 rs2 imm) s = _ :=
    exec_store_of_not_beyond (S := (.sw, 4)) (.tail _ (.tail _ (.head _))) rs2
      (not_mem_interceptedStores (fun p => not_port_of_storable hs0 (.store p)) (not_port_of_storable hs0 .heapMalloc))
      fun k hk => by have := hs k hk; unfold Storable at this; omega
  rw [hstore] at hexec
  cases hexec
  have hst := storesBytes_writeStrobes s (s.effectiveAddress rs1 imm) (s.x rs2) (Nat.le_refl 4)
  refine ⟨fun hj => ?_, fun hj => ?_, fun hj => ?_⟩
  · have hload := exec_load_after_store (L := (.lw, 4, true)) (by simp [loadForms]) hst hs rd ha (by omega)
      (by show j + 4 ≤ 4; omega)
    simp only [hj, Nat.mul_zero, Nat.pow_zero, Nat.div_one] at hload
    rwa [← word_eq_extendedValue] at hload
  · exact exec_load_after_store (L := (.lhu, 2, false)) (by simp [loadForms]) hst hs rd ha (by omega) (by show j + 2 ≤ 4; omega)
  · exact exec_load_after_store (L := (.lbu, 1, false)) (by simp [loadForms]) hst hs rd ha (by omega) (by show j + 1 ≤ 4; omega)

end Sys2Proof.Machine
end

section
/-! The ports (44_ports_and_heap.md R260 to R272): the write, halt and dump ports, the read ports, the malloc port, and the text of
`%x`. -/

namespace Sys2Proof.Machine

/-! ### Store ports -/

/-- A store at a store port has the port's effect, with the value masked to the store's width (R201, R261). -/
theorem exec_store_port {S : (RegId → RegId → BitVec 12 → Instr) × Nat} (hS : S ∈ storeForms) {s : State} {rs1 : RegId}
    (rs2 : RegId) {imm : BitVec 12} {p : StorePort} (ha : s.effectiveAddress rs1 imm = portAddress (.store p)) :
    exec (S.1 rs1 rs2 imm) s = .next (storePortEffect p (BitVec.ofNat 32 ((s.x rs2).toNat % 2 ^ (8 * S.2))) s) := by
  obtain ⟨w, -, hexec, hmask⟩ := exec_storeForms hS
  rw [hexec, storeOp_port ha, hmask]

/-- Settles O33: each write port emits its event and advances. -/
theorem writePorts : Obligations.WritePorts := fun _ hS _ _ rs2 _ =>
  ⟨fun ha => completesEmitting_of_advancePc (exec_store_port (p := .writeChar) hS rs2 ha),
    fun ha => completesEmitting_of_advancePc (exec_store_port (p := .writeSint) hS rs2 ha),
    fun ha => completesEmitting_of_advancePc (exec_store_port (p := .writeUhex) hS rs2 ha)⟩

/-- Settles O35: the halt port raises `Halt` whatever the value. -/
theorem haltPort : Obligations.HaltPort := fun _ hS s _ rs2 _ ha =>
  ⟨endsRun_of_raise s.pendingVirtualLoad (exec_store_port (p := .halt) hS rs2 ha), rfl⟩

theorem storePortEffect_dumpMem_of_some {s : State} {v : Word} {b : Byte} (h : s.byteAt v = some b) :
    storePortEffect .dumpMem v s = (s.emit (.dumpMem b)).advancePc := by
  simp only [storePortEffect, h]

theorem storePortEffect_dumpMem_of_none {s : State} {v : Word} (h : s.byteAt v = none) :
    storePortEffect .dumpMem v s = s.raise (.addressFault v) := by
  simp only [storePortEffect, h]

/-- Settles O36: the dump ports emit `pc`, the registers, or the byte at the value, which there is unless it is beyond the heap. -/
theorem dumpPorts : Obligations.DumpPorts := by
  refine fun S hS s rs1 rs2 imm => ⟨fun ha => completesEmitting_of_advancePc (exec_store_port (p := .dumpPc) hS rs2 ha),
    fun ha => completesEmitting_of_advancePc (exec_store_port (p := .dumpRegs) hS rs2 ha), fun ha => ⟨fun b hb => ?_, fun hv => ?_⟩⟩
  · refine completesEmitting_of_advancePc ?_
    rw [exec_store_port (p := .dumpMem) hS rs2 ha, storePortEffect_dumpMem_of_some hb]
  · refine endsRun_of_raise s.pendingVirtualLoad ?_
    rw [exec_store_port (p := .dumpMem) hS rs2 ha, storePortEffect_dumpMem_of_none ((s.byteAt_eq_none_iff _).mpr hv),
      setPending_self]

/-! ### Read ports -/

/-- A load at a read port whose next input is of the port's kind takes it, extended (R200, R269, R270). -/
theorem exec_load_port {L : (RegId → RegId → BitVec 12 → Instr) × Nat × Bool} (hL : L ∈ loadForms) {s : State} (rd : RegId)
    {rs1 : RegId} {imm : BitVec 12} {p : LoadPort} (ha : s.effectiveAddress rs1 imm = portAddress (.load p)) {raw : Word}
    {rest : List InputValue} (hin : (s.setPending true).hostIn p = some (raw, (s.setPending true).setInput rest)) :
    exec (L.1 rd rs1 imm) s =
      .next ((((s.setInput rest).setPending false).writeReg rd
        (extendedValue L.2.1 L.2.2 (raw.toNat % 2 ^ (8 * L.2.1)))).advancePc) := by
  obtain ⟨w, ext, -, hexec, hext⟩ := exec_loadForms hL
  rw [hexec, loadOp_console ha hin, hext]
  rfl

/-- A character is kept whole by every width (R269). -/
theorem char_toNat_mod {L : (RegId → RegId → BitVec 12 → Instr) × Nat × Bool} (hL : L ∈ loadForms) (c : Byte) :
    (c.setWidth 32 : Word).toNat % 2 ^ (8 * L.2.1) = c.toNat := by
  obtain ⟨w, -, hw, -⟩ := exec_loadForms hL
  have hc := c.isLt
  rw [hw, BitVec.toNat_setWidth]
  cases w <;> simp only [Width.bytes] <;> omega

/-- Settles O37: `exec_load_port` at the two ports. -/
theorem readPorts : Obligations.ReadPorts := by
  refine fun L hL s rd rs1 imm rest => ⟨fun c ha hin => ?_, fun i ha hin => ?_⟩
  · have hload := exec_load_port hL rd (p := .readChar) (raw := c.setWidth 32) (rest := rest) ha
      (by simp only [State.hostIn, State.setPending_input, hin])
    rw [char_toNat_mod hL] at hload
    exact ⟨_, hload, ((s.setInput rest).setPending false).x_writeReg rd _, by simp [State.SameBytes]⟩
  · have hload := exec_load_port hL rd (p := .readSint) (raw := i) (rest := rest) ha
      (by simp only [State.hostIn, State.setPending_input, hin])
    exact ⟨_, hload, ((s.setInput rest).setPending false).x_writeReg rd _, by simp [State.SameBytes]⟩

/-- Settles O38: `HostIn` waits, and so the load. -/
theorem readPortsBlock : Obligations.ReadPortsBlock := by
  intro L hL s rd rs1 imm
  obtain ⟨w, ext, -, hexec, -⟩ := exec_loadForms hL
  rw [hexec]
  exact ⟨fun ha hin => loadOp_blocked (p := .readChar) ha ((State.hostIn_none_iff _ _).mpr ⟨fun _ => hin, nofun⟩),
    fun ha hin => loadOp_blocked (p := .readSint) ha ((State.hostIn_none_iff _ _).mpr ⟨nofun, fun _ => hin⟩)⟩

/-! ### The malloc port -/

/-- A store at the malloc port requests its masked value (R261, R271). -/
theorem exec_store_malloc {S : (RegId → RegId → BitVec 12 → Instr) × Nat} (hS : S ∈ storeForms) {s : State} {rs1 : RegId}
    (rs2 : RegId) {imm : BitVec 12} (ha : s.effectiveAddress rs1 imm = portAddress .heapMalloc) :
    exec (S.1 rs1 rs2 imm) s =
      .next ((s.mallocRequest (BitVec.ofNat 32 ((s.x rs2).toNat % 2 ^ (8 * S.2)))).advancePc) := by
  obtain ⟨w, -, hexec, hmask⟩ := exec_storeForms hS
  rw [hexec, storeOp_malloc ha, hmask]

/-- The masked value's number: a part of a word is less than 2^32. -/
theorem toNat_masked (v : Word) (n : Nat) : (BitVec.ofNat 32 (v.toNat % n)).toNat = v.toNat % n := by
  rw [BitVec.toNat_ofNat, Nat.mod_eq_of_lt (Nat.lt_of_le_of_lt (Nat.mod_le _ _) v.isLt)]

/-- A request that finds a first viable run gives its pointer and marks it (R272). -/
theorem mallocRequest_of_firstFit {s : State} {v : Word} {start : Nat}
    (h : firstFit s.bytesAllocated (banksNeeded v.toNat) = some start) :
    s.mallocRequest v = (s.setBytesAllocated (markRun v.toNat start 0 s.bytesAllocated)).writeReg Config.mallocResultReg
      (bankPointer start) := by
  simp only [State.mallocRequest, allocatorNext, allocatorResponse, malloc, h]

/-- Settles O41: the scan's two characterisations say whether the request finds a run and which, and the marking what it counts. -/
theorem mallocPort : Obligations.MallocPort := by
  intro S hS s rs1 rs2 imm hlen ha
  have hexec := exec_store_malloc hS rs2 ha
  have hn := toNat_masked (s.x rs2) (2 ^ (8 * S.2))
  generalize (s.x rs2).toNat % 2 ^ (8 * S.2) = n at hexec hn
  refine ⟨fun hnone => ?_, fun start hin hfree hfirst => ?_⟩
  · have hm : malloc s.bytesAllocated (BitVec.ofNat 32 n).toNat = none := by
      rw [malloc_eq_none_iff, firstFit_eq_none_iff, hn]
      exact fun start hs => (runFree_eq_false_iff _ _ _).mpr (hnone start hs)
    rw [State.mallocRequest_of_malloc_eq_none hm] at hexec
    exact completesWith_of_advancePc hexec
  · have hfit : firstFit s.bytesAllocated (banksNeeded (BitVec.ofNat 32 n).toNat) = some start := by
      rw [hn, firstFit_eq_some_iff]
      exact ⟨hin, (runFree_iff _ _ _).mpr hfree, fun start' hs => (runFree_eq_false_iff _ _ _).mpr (hfirst start' hs)⟩
    rw [mallocRequest_of_firstFit hfit, hn] at hexec
    refine ⟨_, hexec, (s.setBytesAllocated _).x_writeReg _ _, by simp, fun a => by simp, by simp, by simp, by simp, by simp,
      by simp [hlen], fun k _ => ?_⟩
    rw [State.advancePc_bytesAllocated, State.writeReg_bytesAllocated, State.setBytesAllocated_bytesAllocated]
    split
    · next hk => exact markRun_getElem?_of_mem_run hfree hk.1 hk.2
    · next hk => rw [markRun_getElem?, Nat.zero_add]; exact if_neg hk

/-! ### The text of `%x` (R264) -/

/-- A number without its last digit needs one digit less. -/
theorem div_lt_pow {base fuel n : Nat} (h : n < base ^ (fuel + 1)) : n / base < base ^ fuel :=
  Nat.div_lt_of_lt_mul (by rwa [Nat.pow_succ, Nat.mul_comm] at h)

/-- The digits' value is the number, where there are enough of them. -/
theorem foldl_digits {base fuel n : Nat} (h : n < base ^ fuel) : (digits base fuel n).foldl (fun a d => base * a + d) 0 = n := by
  induction fuel generalizing n with
  | zero => simpa [digits, eq_comm] using h
  | succ fuel ih =>
    unfold digits
    split
    · simp
    · rw [List.foldl_append, ih (div_lt_pow h)]
      exact Nat.div_add_mod n base

section
variable {base : Nat} (hbase : 1 < base)
include hbase

theorem digits_lt {fuel n d : Nat} (h : d ∈ digits base fuel n) : d < base := by
  induction fuel generalizing n with
  | zero => simp [digits] at h
  | succ fuel ih =>
    unfold digits at h
    split at h
    · next hn => rwa [List.mem_singleton.mp h]
    · rcases List.mem_append.mp h with h | h
      · exact ih h
      · rw [List.mem_singleton.mp h]
        exact Nat.mod_lt n (by omega)

/-- The first digit of a number is not 0, unless the number is. -/
theorem head?_digits {fuel n : Nat} (h : n < base ^ fuel) (hn : n ≠ 0) : ∃ d, (digits base fuel n).head? = some d ∧ d ≠ 0 := by
  induction fuel generalizing n with
  | zero => simp at h; exact absurd h hn
  | succ fuel ih =>
    unfold digits
    split
    · exact ⟨n, rfl, hn⟩
    · next hge =>
      have hdiv : n / base ≠ 0 := Nat.ne_of_gt (Nat.div_pos (Nat.not_lt.mp hge) (by omega))
      obtain ⟨d, hd, h0⟩ := ih (div_lt_pow h) hdiv
      exact ⟨d, by rw [List.head?_append, hd, Option.some_or], h0⟩

end

/-- The characters of the sixteen digits: which they are, the digit each stands for, and `0` for 0 alone. -/
theorem digitChar_spec : ∀ d, d < 16 →
    ((0x30 ≤ (digitChar d).toNat ∧ (digitChar d).toNat ≤ 0x39) ∨ (0x61 ≤ (digitChar d).toNat ∧ (digitChar d).toNat ≤ 0x66)) ∧
    (if (digitChar d).toNat ≤ 0x39 then (digitChar d).toNat - 0x30 else (digitChar d).toNat - 0x57) = d ∧
    (digitChar d = 0x30 → d = 0) := by decide

/-- A word has eight hex digits at most. -/
theorem word_lt_pow (v : Word) : v.toNat < 16 ^ 8 := v.isLt

theorem hexLower_range (v : Word) {c : Byte} (h : c ∈ hexLower v) :
    (0x30 ≤ c.toNat ∧ c.toNat ≤ 0x39) ∨ (0x61 ≤ c.toNat ∧ c.toNat ≤ 0x66) := by
  obtain ⟨d, hd, rfl⟩ := List.mem_map.mp h
  exact (digitChar_spec d (digits_lt (by decide) hd)).1

theorem hexLower_value (v : Word) :
    (hexLower v).foldl (fun n c => 16 * n + (if c.toNat ≤ 0x39 then c.toNat - 0x30 else c.toNat - 0x57)) 0 = v.toNat := by
  rw [hexLower, List.foldl_map]
  refine Eq.trans (List.foldl_rel (r := Eq) rfl fun d hd n n' hn => ?_) (foldl_digits (word_lt_pow v))
  rw [hn, (digitChar_spec d (digits_lt (by decide) hd)).2.1]

theorem hexLower_head? {v : Word} (hv : v ≠ 0) : (hexLower v).head? ≠ some 0x30 := by
  have h0 : v.toNat ≠ 0 := fun h => hv (BitVec.eq_of_toNat_eq h)
  obtain ⟨d, hd, hne⟩ := head?_digits (by decide) (word_lt_pow v) h0
  rw [hexLower, List.head?_map, hd, Option.map_some]
  intro h
  exact hne ((digitChar_spec d (digits_lt (by decide) (List.mem_of_head? hd))).2.2 (Option.some.inj h))

/-- Settles O34: the port emits the event, and its text is the digits of the number. -/
theorem writeUnsignedHex : Obligations.WriteUnsignedHex :=
  ⟨fun S hS s rs1 rs2 imm => (writePorts S hS s rs1 rs2 imm).2.2,
    fun v => ⟨rfl, fun _ => hexLower_range v, hexLower_value v, hexLower_head?⟩, by decide, by decide⟩

end Sys2Proof.Machine
end
